-- ==== Sys2Proof/Word.lean ====
section
/-! DEFINITION. The plain bit-vector types of the VLQ codec block (spec/00_scope.md R7; spec/10_state.md R14). -/

namespace Sys2Proof

/-- One byte: a command byte, a byte of an encoded form (R7). -/
abbrev Byte := BitVec 8

/-- The width of `ARG` and `RES` (R6, R14). -/
abbrev Word64 := BitVec 64

/-- A host register number (R14: "The host addresses the registers by a 4-bit register number"). -/
abbrev RegNum := BitVec 4

end Sys2Proof
end

