-- ==== Sys2Proof/Config.lean ====
section
/-! DEFINITION. What an implementation of the block fixes (spec/00_scope.md R6). -/

namespace Sys2Proof

/-- `StreamFaultInfo`, a stream's own fault report: "a type parameter of the model, opaque" (R6, R21).
DESIGN CHOICE (log 1): one uninterpreted label out of an endless supply; the block only copies it. -/
structure StreamFaultInfo where
  label : Nat
  deriving DecidableEq, Repr

/-- `N_INST`, "a parameter, at least 1" (R6). DESIGN CHOICE (log 2): the reset state has two instances;
`State` itself holds any number from 1 up, and no statement rests on two. -/
def Config.nInst : Nat := 2

/-- `SCRATCH_BYTES` (R6). -/
abbrev Config.scratchBytes : Nat := 9

/-- `MAXLEN_32` and `MAXLEN_64` (R6). -/
abbrev Config.maxLen32 : Nat := 5
abbrev Config.maxLen64 : Nat := 9

/-- The bytes of the endless input streams (spec/20_memory.md R34: "a finite or infinite byte sequence"): byte
`i` of the endless stream named `l`. A free value: no rule says which bytes a stream supplies (log 6). -/
opaque Config.endlessByte (l i : Nat) : Byte

end Sys2Proof
end

