-- ==== Sys2Proof/Syntax.lean ====
section
/-! DEFINITION. The instructions: one constructor per row of spec/opcode_table.json, in the table's order.
A `CMD8` row is a byte the host writes to `CMD` (spec/30_encoding.md R51, R52); a `TAG32` or `TAG64` row is
a first byte that the decoder reads at that width (R55, R56, R58, R59). -/

namespace Sys2Proof

/-- The value width of a command (R6 `W`). -/
inductive Width where
  | w32 | w64
  deriving DecidableEq, Repr

/-- The direction of a command (R51 `DIR`). -/
inductive Dir where
  | enc | dec
  deriving DecidableEq, Repr

/-- A latched command, the value of `OP` (R23: "holding `dir` (ENC or DEC), `W` (32 or 64) and `signed`"). -/
structure Op where
  dir : Dir
  width : Width
  signed : Bool
  deriving DecidableEq, Repr

/-- The three formats of the opcode table (R68). -/
inductive Format where
  | cmd8 | tag32 | tag64
  deriving DecidableEq, Repr

/-- One constructor per row. `c` is a reserved command byte, `p` the payload bits that a tier keeps in its
first byte, `b0` an illegal first byte. -/
inductive Instr where
  | encU32
  | decU32
  | encU64
  | decU64
  | encI32
  | decI32
  | encI64
  | decI64
  | reservedCmd08 (c : Byte)
  | reservedCmd10 (c : Byte)
  | reservedCmd20 (c : Byte)
  | reservedCmd40 (c : Byte)
  | reservedCmd80 (c : Byte)
  | tier0W32 (p : BitVec 7)
  | tier1W32 (p : BitVec 6)
  | tier2W32 (p : BitVec 5)
  | tier3W32 (p : BitVec 4)
  | tier4Esc32
  | illegalTagF1 (b0 : Byte)
  | illegalTagF2 (b0 : Byte)
  | illegalTagF4 (b0 : Byte)
  | illegalTagF8 (b0 : Byte)
  | tier0W64 (p : BitVec 7)
  | tier1W64 (p : BitVec 6)
  | tier2W64 (p : BitVec 5)
  | tier3W64 (p : BitVec 4)
  | tier4W64 (p : BitVec 3)
  | tier5W64 (p : BitVec 2)
  | tier6W64 (p : BitVec 1)
  | tier7W64
  | tier8Esc64
  deriving DecidableEq, Repr

end Sys2Proof
end

