-- ==== Sys2Proof/WellFormed.lean ====
section
/-! DEFINITION. Which instruction terms stand for words of the table: a reserved or illegal row keeps its whole
byte, and that byte must match the row's `match` under its `mask` (spec/30_encoding.md R68). Every other
constructor's fields are exactly the row's free bits, so every value of them is well formed. -/

namespace Sys2Proof

/-- `b` matches a row: `b & mask = match`. -/
def matchesRow (mask val b : Byte) : Bool := b &&& mask == val

/-- The well-formed instructions (R68). -/
def Instr.wf : Instr → Bool
  | .encU32 | .decU32 | .encU64 | .decU64 => true
  | .encI32 | .decI32 | .encI64 | .decI64 => true
  | .reservedCmd08 c => matchesRow 0x08 0x08 c
  | .reservedCmd10 c => matchesRow 0x18 0x10 c
  | .reservedCmd20 c => matchesRow 0x38 0x20 c
  | .reservedCmd40 c => matchesRow 0x78 0x40 c
  | .reservedCmd80 c => matchesRow 0xF8 0x80 c
  | .tier0W32 _ | .tier1W32 _ | .tier2W32 _ | .tier3W32 _ | .tier4Esc32 => true
  | .illegalTagF1 b0 => matchesRow 0xFF 0xF1 b0
  | .illegalTagF2 b0 => matchesRow 0xFE 0xF2 b0
  | .illegalTagF4 b0 => matchesRow 0xFC 0xF4 b0
  | .illegalTagF8 b0 => matchesRow 0xF8 0xF8 b0
  | .tier0W64 _ | .tier1W64 _ | .tier2W64 _ | .tier3W64 _ | .tier4W64 _ => true
  | .tier5W64 _ | .tier6W64 _ | .tier7W64 | .tier8Esc64 => true

end Sys2Proof
end

