-- ==== Sys2Proof/Decode.lean ====
section
/-! DEFINITION. The decoders of command bytes and of first bytes, total on any bytes, then the encoder
(spec/30_encoding.md R51, R52, R53, R58, R59, R68). -/

namespace Sys2Proof

/-- Why no instruction can be read. -/
inductive DecodeError where
  /-- There is no byte: every instruction of the table is one byte, and every byte is an instruction. -/
  | noByte
  deriving DecidableEq, Repr

/-- The latched command of a legal command byte, by its bit fields (R51):
`(dir = c[0] ? DEC : ENC, W = c[1] ? 64 : 32, signed = c[2] = 1)`. -/
def opOfCmd (c : Byte) : Op where
  dir := if c.getLsbD 0 then .dec else .enc
  width := if c.getLsbD 1 then .w64 else .w32
  signed := c.getLsbD 2

/-- The instruction of a command byte: the eight legal bytes of R51, then the five reserved rows of R68 (which
cover `c[7:3] != 0`; the table takes the lowest set bit of that field, log 20). -/
def decodeCmd (c : Byte) : Instr :=
  if c = 0x00 then .encU32
  else if c = 0x01 then .decU32
  else if c = 0x02 then .encU64
  else if c = 0x03 then .decU64
  else if c = 0x04 then .encI32
  else if c = 0x05 then .decI32
  else if c = 0x06 then .encI64
  else if c = 0x07 then .decI64
  else if matchesRow 0x08 0x08 c then .reservedCmd08 c
  else if matchesRow 0x18 0x10 c then .reservedCmd10 c
  else if matchesRow 0x38 0x20 c then .reservedCmd20 c
  else if matchesRow 0x78 0x40 c then .reservedCmd40 c
  else .reservedCmd80 c

/-- The instruction of a first byte at W=32, tested in the order of R58; the four last rows are R59's. -/
def decodeTag32 (b0 : Byte) : Instr :=
  if matchesRow 0x80 0x00 b0 then .tier0W32 (b0.extractLsb' 0 7)
  else if matchesRow 0xC0 0x80 b0 then .tier1W32 (b0.extractLsb' 0 6)
  else if matchesRow 0xE0 0xC0 b0 then .tier2W32 (b0.extractLsb' 0 5)
  else if matchesRow 0xF0 0xE0 b0 then .tier3W32 (b0.extractLsb' 0 4)
  else if b0 = 0xF0 then .tier4Esc32
  else if b0 = 0xF1 then .illegalTagF1 b0
  else if matchesRow 0xFE 0xF2 b0 then .illegalTagF2 b0
  else if matchesRow 0xFC 0xF4 b0 then .illegalTagF4 b0
  else .illegalTagF8 b0

/-- The instruction of a first byte at W=64, tested in the order of R58. -/
def decodeTag64 (b0 : Byte) : Instr :=
  if matchesRow 0x80 0x00 b0 then .tier0W64 (b0.extractLsb' 0 7)
  else if matchesRow 0xC0 0x80 b0 then .tier1W64 (b0.extractLsb' 0 6)
  else if matchesRow 0xE0 0xC0 b0 then .tier2W64 (b0.extractLsb' 0 5)
  else if matchesRow 0xF0 0xE0 b0 then .tier3W64 (b0.extractLsb' 0 4)
  else if matchesRow 0xF8 0xF0 b0 then .tier4W64 (b0.extractLsb' 0 3)
  else if matchesRow 0xFC 0xF8 b0 then .tier5W64 (b0.extractLsb' 0 2)
  else if matchesRow 0xFE 0xFC b0 then .tier6W64 (b0.extractLsb' 0 1)
  else if b0 = 0xFE then .tier7W64
  else .tier8Esc64

/-- The instruction of one byte of a format. -/
def decodeByte (f : Format) (b : Byte) : Instr :=
  match f with
  | .cmd8 => decodeCmd b
  | .tag32 => decodeTag32 b
  | .tag64 => decodeTag64 b

/-- The decoder: the instruction at the front of a byte list and the rest of the list (R53, R54: one byte, no
prefix, no mode). -/
def decode (f : Format) : List Byte → Except DecodeError (Instr × List Byte)
  | [] => .error .noByte
  | b :: rest => .ok (decodeByte f b, rest)

/-- The format a first byte has at a width. -/
def Width.tagFormat : Width → Format
  | .w32 => .tag32
  | .w64 => .tag64

/-- The format of an instruction's table row. -/
def Instr.format : Instr → Format
  | .encU32 | .decU32 | .encU64 | .decU64 | .encI32 | .decI32 | .encI64 | .decI64 => .cmd8
  | .reservedCmd08 _ | .reservedCmd10 _ | .reservedCmd20 _ | .reservedCmd40 _ | .reservedCmd80 _ => .cmd8
  | .tier0W32 _ | .tier1W32 _ | .tier2W32 _ | .tier3W32 _ | .tier4Esc32 => .tag32
  | .illegalTagF1 _ | .illegalTagF2 _ | .illegalTagF4 _ | .illegalTagF8 _ => .tag32
  | .tier0W64 _ | .tier1W64 _ | .tier2W64 _ | .tier3W64 _ | .tier4W64 _ => .tag64
  | .tier5W64 _ | .tier6W64 _ | .tier7W64 | .tier8Esc64 => .tag64

/-- The byte of an instruction (the tables of R51, R55, R56; the tag bits, then the payload bits). -/
def encodeByte : Instr → Byte
  | .encU32 => 0x00
  | .decU32 => 0x01
  | .encU64 => 0x02
  | .decU64 => 0x03
  | .encI32 => 0x04
  | .decI32 => 0x05
  | .encI64 => 0x06
  | .decI64 => 0x07
  | .reservedCmd08 c | .reservedCmd10 c | .reservedCmd20 c | .reservedCmd40 c | .reservedCmd80 c => c
  | .tier0W32 p => 0b0#1 ++ p
  | .tier1W32 p => 0b10#2 ++ p
  | .tier2W32 p => 0b110#3 ++ p
  | .tier3W32 p => 0b1110#4 ++ p
  | .tier4Esc32 => 0xF0
  | .illegalTagF1 b0 | .illegalTagF2 b0 | .illegalTagF4 b0 | .illegalTagF8 b0 => b0
  | .tier0W64 p => 0b0#1 ++ p
  | .tier1W64 p => 0b10#2 ++ p
  | .tier2W64 p => 0b110#3 ++ p
  | .tier3W64 p => 0b1110#4 ++ p
  | .tier4W64 p => 0b11110#5 ++ p
  | .tier5W64 p => 0b111110#6 ++ p
  | .tier6W64 p => 0b1111110#7 ++ p
  | .tier7W64 => 0xFE
  | .tier8Esc64 => 0xFF

/-- The encoder: the words of an instruction. -/
def encode (i : Instr) : List Byte := [encodeByte i]

/-- One row of the opcode table: its format, `match` and `mask` (R68). -/
structure TableRow where
  format : Format
  val : Byte
  mask : Byte
  deriving DecidableEq, Repr

/-- A byte matches a row. -/
def TableRow.fits (r : TableRow) (b : Byte) : Bool := matchesRow r.mask r.val b

/-- The 13 `CMD8` rows. -/
def cmdRows : List TableRow :=
  [⟨.cmd8, 0x00, 0xFF⟩, ⟨.cmd8, 0x01, 0xFF⟩, ⟨.cmd8, 0x02, 0xFF⟩, ⟨.cmd8, 0x03, 0xFF⟩,
   ⟨.cmd8, 0x04, 0xFF⟩, ⟨.cmd8, 0x05, 0xFF⟩, ⟨.cmd8, 0x06, 0xFF⟩, ⟨.cmd8, 0x07, 0xFF⟩,
   ⟨.cmd8, 0x08, 0x08⟩, ⟨.cmd8, 0x10, 0x18⟩, ⟨.cmd8, 0x20, 0x38⟩, ⟨.cmd8, 0x40, 0x78⟩,
   ⟨.cmd8, 0x80, 0xF8⟩]

/-- The nine `TAG32` rows. -/
def tag32Rows : List TableRow :=
  [⟨.tag32, 0x00, 0x80⟩, ⟨.tag32, 0x80, 0xC0⟩, ⟨.tag32, 0xC0, 0xE0⟩, ⟨.tag32, 0xE0, 0xF0⟩,
   ⟨.tag32, 0xF0, 0xFF⟩, ⟨.tag32, 0xF1, 0xFF⟩, ⟨.tag32, 0xF2, 0xFE⟩, ⟨.tag32, 0xF4, 0xFC⟩,
   ⟨.tag32, 0xF8, 0xF8⟩]

/-- The nine `TAG64` rows. -/
def tag64Rows : List TableRow :=
  [⟨.tag64, 0x00, 0x80⟩, ⟨.tag64, 0x80, 0xC0⟩, ⟨.tag64, 0xC0, 0xE0⟩, ⟨.tag64, 0xE0, 0xF0⟩,
   ⟨.tag64, 0xF0, 0xF8⟩, ⟨.tag64, 0xF8, 0xFC⟩, ⟨.tag64, 0xFC, 0xFE⟩, ⟨.tag64, 0xFE, 0xFF⟩,
   ⟨.tag64, 0xFF, 0xFF⟩]

/-- The 31 rows of the opcode table, in its order. -/
def tableRows : List TableRow := cmdRows ++ tag32Rows ++ tag64Rows

/-- The table row of an instruction. -/
def Instr.row : Instr → TableRow
  | .encU32 => ⟨.cmd8, 0x00, 0xFF⟩
  | .decU32 => ⟨.cmd8, 0x01, 0xFF⟩
  | .encU64 => ⟨.cmd8, 0x02, 0xFF⟩
  | .decU64 => ⟨.cmd8, 0x03, 0xFF⟩
  | .encI32 => ⟨.cmd8, 0x04, 0xFF⟩
  | .decI32 => ⟨.cmd8, 0x05, 0xFF⟩
  | .encI64 => ⟨.cmd8, 0x06, 0xFF⟩
  | .decI64 => ⟨.cmd8, 0x07, 0xFF⟩
  | .reservedCmd08 _ => ⟨.cmd8, 0x08, 0x08⟩
  | .reservedCmd10 _ => ⟨.cmd8, 0x10, 0x18⟩
  | .reservedCmd20 _ => ⟨.cmd8, 0x20, 0x38⟩
  | .reservedCmd40 _ => ⟨.cmd8, 0x40, 0x78⟩
  | .reservedCmd80 _ => ⟨.cmd8, 0x80, 0xF8⟩
  | .tier0W32 _ => ⟨.tag32, 0x00, 0x80⟩
  | .tier1W32 _ => ⟨.tag32, 0x80, 0xC0⟩
  | .tier2W32 _ => ⟨.tag32, 0xC0, 0xE0⟩
  | .tier3W32 _ => ⟨.tag32, 0xE0, 0xF0⟩
  | .tier4Esc32 => ⟨.tag32, 0xF0, 0xFF⟩
  | .illegalTagF1 _ => ⟨.tag32, 0xF1, 0xFF⟩
  | .illegalTagF2 _ => ⟨.tag32, 0xF2, 0xFE⟩
  | .illegalTagF4 _ => ⟨.tag32, 0xF4, 0xFC⟩
  | .illegalTagF8 _ => ⟨.tag32, 0xF8, 0xF8⟩
  | .tier0W64 _ => ⟨.tag64, 0x00, 0x80⟩
  | .tier1W64 _ => ⟨.tag64, 0x80, 0xC0⟩
  | .tier2W64 _ => ⟨.tag64, 0xC0, 0xE0⟩
  | .tier3W64 _ => ⟨.tag64, 0xE0, 0xF0⟩
  | .tier4W64 _ => ⟨.tag64, 0xF0, 0xF8⟩
  | .tier5W64 _ => ⟨.tag64, 0xF8, 0xFC⟩
  | .tier6W64 _ => ⟨.tag64, 0xFC, 0xFE⟩
  | .tier7W64 => ⟨.tag64, 0xFE, 0xFF⟩
  | .tier8Esc64 => ⟨.tag64, 0xFF, 0xFF⟩

/-- The instruction the decoder reads from an `nbits`-bit table word `w`. Every instruction is one byte, so any
other width, or a number that does not fit it, is refused. The byte is read as a command byte: the `TAG32`
and `TAG64` rows reuse the same byte values and are read only inside a decode command (log 16). -/
def decodeTableWord (nbits w : Nat) : Option Instr :=
  if nbits = 8 ∧ w < 256 then
    match decode .cmd8 [BitVec.ofNat 8 w] with
    | .ok (i, _) => some i
    | .error _ => none
  else none

end Sys2Proof
end

