-- ==== Sys2Proof/Machine/State.lean ====
section
/-! DEFINITION. The state of the machine: the block instances (spec/10_state.md R13 to R23), the streams
(spec/20_memory.md R34), the host's lines (spec/30_encoding.md R66), and the reasons a step can stop
(spec/60_exceptions.md R98). Plain data throughout. -/

namespace Sys2Proof.Machine

open Sys2Proof

/-- `STATUS.STATE` (R19). -/
inductive RunState where
  | idle | busy | done | error
  deriving DecidableEq, Repr

/-- `STATUS.ERR` (R19); the codes 5, 6 and 7 are "reserved, never produced". -/
inductive ErrCode where
  | noError | unrecognizedTag | inFault | outFault | illegalCommand
  deriving DecidableEq, Repr

/-- A hardware error with what it records (R92, R93). -/
inductive HwError where
  /-- The first byte matches no tag; it records that byte. -/
  | unrecognizedTag (b0 : Byte)
  /-- An `InRead` answered `fault(info)`. -/
  | inFault (info : StreamFaultInfo)
  /-- An `OutWrite` answered `fault(info)`. -/
  | outFault (info : StreamFaultInfo)
  /-- A reserved command byte was written to `CMD`. -/
  | illegalCommand
  deriving DecidableEq, Repr

/-- `PHASE` (R23). -/
inductive Phase where
  | none | emit | tag | body
  deriving DecidableEq, Repr

/-- The state of one block instance (R13). `CMD` "holds nothing" (R110), so it has no field. `none` in `arg`,
`res` and `faultInfo` is the spec's own state "holds no value" (R14, R16, R17, R21, R110; log 4). -/
structure Block where
  /-- `ARG` (R16). -/
  arg : Option Word64
  /-- `RES` (R17). -/
  res : Option Word64
  /-- `LEN` (R18). -/
  len : Byte
  /-- `STATUS` (R19), a register the host reads whole; Machine/Flags.lean names its fields. -/
  status : BitVec 16
  /-- `FAULT_INFO` (R21). -/
  faultInfo : Option StreamFaultInfo
  /-- `SCRATCH[0..8]` (R20). -/
  scratch : Vector Byte Config.scratchBytes
  /-- `PHASE` (R23). -/
  phase : Phase
  /-- `OP` (R23). -/
  op : Op
  /-- `TIER` (R23). -/
  tier : Nat
  /-- `NB` (R23). -/
  nb : Nat
  /-- `J` (R23). -/
  j : Nat
  deriving DecidableEq, Repr

/-- A host write that waits for the block to leave BUSY (R29). -/
structure HostWrite where
  reg : RegNum
  val : Nat
  deriving DecidableEq, Repr

/-- A host access of a register (R27, R28). -/
inductive Access where
  | read (r : RegNum)
  | write (r : RegNum) (v : Nat)
  deriving DecidableEq, Repr

/-- One line of a host program (R66). The two last forms attach a stream that exists already, which R34 and
R46 speak of ("attach the same stream to two instances") and the line forms of R66 do not write. -/
inductive Line where
  /-- `wr <reg>, <imm>` or `rd <reg>`. -/
  | access (a : Access)
  /-- `wait`. -/
  | wait
  /-- `attach IN, [<bytes>]`. -/
  | attachIn (data : List Byte)
  /-- `attach OUT`. -/
  | attachOut
  | attachInStream (id : Nat)
  | attachOutStream (id : Nat)
  deriving DecidableEq, Repr

/-- One instance with what stands at its ports: the writes held there (R29), the attached streams by number
(R34), and the host's lines still to run. `pending` is the place, from 1, that the program's own held write has
among the held ones, and 0 when none of them is the program's: its last line has completed (log 7). DESIGN CHOICE (log 28): a host program that uses several instances, for which
R66's lines name no instance, is one list of lines per instance, and lines at different instances have no order. -/
structure Inst where
  block : Block
  held : List HostWrite
  inPort : Option Nat
  outPort : Option Nat
  program : List Line
  pending : Nat
  deriving DecidableEq, Repr

/-- An input stream: its bytes and its read position (R34). With `endless = none` the sequence is `data` and
finite; with `endless = some l` it goes on for ever behind `data`, with the bytes named `l` (log 6). -/
structure InStream where
  data : List Byte
  endless : Option Nat
  pos : Nat
  deriving DecidableEq, Repr

/-- An output stream: the bytes written so far (R34). -/
structure OutStream where
  written : List Byte
  deriving DecidableEq, Repr

/-- One answer of a stream agent, the draws of spec/93_implementation_defined.md rows 3 to 5: whether it
answers `fault`, with which report, how far a faulting read moved the position (R35 "any value `>= pos`"), and
whether a faulting write landed (R36). -/
structure Answer where
  fails : Bool
  info : StreamFaultInfo
  advance : Nat
  landed : Bool
  deriving DecidableEq, Repr

/-- One turn of an agent. The model's own (log 5): the agents' turns are a list, so that every interleaving and
every stream answer that the spec admits is some list. -/
inductive Turn where
  /-- The host of instance `n` runs its next line. -/
  | host (n : Nat)
  /-- Another master makes a register access of instance `n` (log 7). -/
  | access (n : Nat) (a : Access)
  /-- The stream at the port that instance `n` is using answers its request. -/
  | answer (n : Nat) (a : Answer)
  /-- The reset input of instance `n` is asserted (R110). -/
  | reset (n : Nat)
  deriving DecidableEq, Repr

/-- The value a host read returned, at the register's own width (R14). -/
inductive RegValue where
  | byte (v : Byte)
  | half (v : BitVec 16)
  | word (v : Word64)
  | info (i : StreamFaultInfo)
  deriving DecidableEq, Repr

/-- One recorded host read (R66: "The program records the value read"). -/
structure ReadRecord where
  inst : Nat
  reg : RegNum
  value : RegValue
  deriving DecidableEq, Repr

/-- The whole machine. The instances are `before ++ [cur] ++ after`, so there is at least one (R6), and `cur`
is the one that acts. -/
structure State where
  before : List Inst
  cur : Inst
  after : List Inst
  inStreams : List InStream
  outStreams : List OutStream
  /-- Oldest first. -/
  reads : List ReadRecord
  /-- The turns to come, the next one first (log 5). -/
  schedule : List Turn
  deriving DecidableEq, Repr

/-- The reasons the model stops with a fault. All are safe: the spec gives no value or no cell there. -/
inductive Fault where
  /-- R16, R30, R98 (a): an encode started while `ARG` holds no value. Raised by the encode commands. Safe. -/
  | unwrittenArg
  /-- R27, R98 (b): a host read of `ARG`, `RES` or `FAULT_INFO` while it holds no value. Raised by host reads.
  Safe. -/
  | unwrittenRead (r : RegNum)
  /-- R20 gives `SCRATCH` the indices 0 to 8: an emit or body step whose `J` is above 8, which no run
  reaches. Raised by those two micro-steps. Safe (log 18). -/
  | scratchIndex
  deriving DecidableEq, Repr

/-- The reasons the model refuses. All are safe. -/
inductive Refusal where
  /-- An instruction without a meaning yet, by its mnemonic. Raised by `exec`'s arms only. Safe. -/
  | notModelled (mnemonic : String)
  /-- R28, R98 (c): an access to the register numbers 6 to 15. Raised by host accesses. Safe. -/
  | reservedRegister (r : RegNum)
  /-- R46, R98 (d), R120: one stream attached to two busy instances. Raised by a launch or an attach. Safe. -/
  | sharedStream
  /-- R34 attaches a stream before the command that uses it: an attach to the port that a command in progress
  uses. Raised by attach lines. Safe (log 12). -/
  | portInUse
  /-- An instance number that no instance has. Raised by a turn. Safe (log 22). -/
  | noSuchInstance
  /-- A stream number that no stream has. Raised by an attach line. Safe (log 22). -/
  | noSuchStream
  /-- R85: a tag byte executed when no tag step of its width is enabled, which `step` never does. Raised by
  the TAG32 and TAG64 rows. Safe (log 15). -/
  | tagStepNotEnabled
  deriving DecidableEq, Repr

/-- The block right after reset (R110). DESIGN CHOICE (log 3): the values of `scratch`, `op`, `tier`, `nb` and
`j`, which R110 leaves unspecified. -/
def Block.reset : Block where
  arg := none
  res := none
  len := 0x00
  status := 0x0000
  faultInfo := none
  scratch := Vector.replicate Config.scratchBytes 0
  phase := .none
  op := ⟨.enc, .w32, false⟩
  tier := 0
  nb := 0
  j := 0

/-- An instance right after reset, with no stream attached and no program (spec/95_test_vectors.md section 6). -/
def Inst.reset : Inst where
  block := Block.reset
  held := []
  inPort := none
  outPort := none
  program := []
  pending := 0

/-- The machine right after reset: every instance out of reset (R107), no stream, nothing read, no turn to
come. -/
def State.reset : State where
  before := []
  cur := Inst.reset
  after := List.replicate (Config.nInst - 1) Inst.reset
  inStreams := []
  outStreams := []
  reads := []
  schedule := []

end Sys2Proof.Machine
end

