-- ==== Sys2Proof/Machine/Flags.lean ====
section
/-! DEFINITION. The fields of `STATUS` and every computation that writes one (spec/10_state.md R19, R26;
spec/60_exceptions.md R92). The block has no other flags. -/

namespace Sys2Proof.Machine

open Sys2Proof

/-- The codes of `STATUS.STATE` (R19). -/
def RunState.code : RunState → BitVec 2
  | .idle => 0
  | .busy => 1
  | .done => 2
  | .error => 3

/-- The codes of `STATUS.ERR` (R19, R92). -/
def ErrCode.code : ErrCode → BitVec 3
  | .noError => 0
  | .unrecognizedTag => 1
  | .inFault => 2
  | .outFault => 3
  | .illegalCommand => 4

/-- `STATUS[1:0]`. -/
def statusState (st : BitVec 16) : BitVec 2 := st.extractLsb' 0 2

/-- `STATUS[4:2]`. -/
def statusErr (st : BitVec 16) : BitVec 3 := st.extractLsb' 2 3

/-- `STATUS[7:5]`, reserved: "read as 0, never written". -/
def statusReserved (st : BitVec 16) : BitVec 3 := st.extractLsb' 5 3

/-- `STATUS[15:8]`. -/
def statusErrByte (st : BitVec 16) : Byte := st.extractLsb' 8 8

/-- The word with these four fields. -/
def statusPack (errByte : Byte) (rsv err : BitVec 3) (state : BitVec 2) : BitVec 16 :=
  errByte ++ rsv ++ err ++ state

/-- `STATUS.STATE <- v`. -/
def withState (v : RunState) (st : BitVec 16) : BitVec 16 :=
  statusPack (statusErrByte st) (statusReserved st) (statusErr st) v.code

/-- `STATUS.ERR <- e`. -/
def withErr (e : ErrCode) (st : BitVec 16) : BitVec 16 :=
  statusPack (statusErrByte st) (statusReserved st) e.code (statusState st)

/-- `STATUS.ERR_BYTE <- b`. -/
def withErrByte (b : Byte) (st : BitVec 16) : BitVec 16 :=
  statusPack b (statusReserved st) (statusErr st) (statusState st)

/-- `STATUS.STATE = BUSY`. -/
def Block.busy (b : Block) : Bool := statusState b.status == RunState.busy.code

/-- The code of an error (R92 "code(E)"). -/
def HwError.errCode : HwError → ErrCode
  | .unrecognizedTag _ => .unrecognizedTag
  | .inFault _ => .inFault
  | .outFault _ => .outFault
  | .illegalCommand => .illegalCommand

end Sys2Proof.Machine
end

