-- ==== Sys2Proof/Machine/Operands.lean ====
section
/-! DEFINITION. The operand forms: the wire layout of a value at each tier and both widths, the canonical tier,
`enc_W`, `classify_W`, the two payload readers and `dec_W` (spec/00_scope.md R9, R10; spec/30_encoding.md R55 to
R63; spec/40_encode.md R69 to R72; spec/41_decode.md R80 to R83). Values are naturals (R8). -/

namespace Sys2Proof.Machine

open Sys2Proof

/-- `W` as a number of bits. -/
def widthBits : Width → Nat
  | .w32 => 32
  | .w64 => 64

/-- `as_unsigned_N(s)` (R9). -/
def asUnsigned (w : Width) (s : Int) : Nat :=
  if 0 ≤ s then s.toNat else (s + 2 ^ widthBits w).toNat

/-- `as_signed_N(u)` (R9). -/
def asSigned (w : Width) (u : Nat) : Int :=
  if u < 2 ^ (widthBits w - 1) then (u : Int) else (u : Int) - 2 ^ widthBits w

/-- Byte `i` of a value, byte 0 the least significant: `(v >> 8*i) & 0xFF` (R10). -/
def byteAt (i v : Nat) : Byte := BitVec.ofNat 8 (v >>> (8 * i))

/-- `be_8n(v)`: the low `n` bytes of `v`, most significant first (R10). -/
def be : Nat → Nat → List Byte
  | 0, _ => []
  | n + 1, v => byteAt n v :: be n v

/-- `le_8n(v)`: the low `n` bytes of `v`, least significant first (R10). -/
def le : Nat → Nat → List Byte
  | 0, _ => []
  | n + 1, v => byteAt 0 v :: le n (v >>> 8)

/-- `K_W`, the escape tier's index: `K_32 = 4`, `K_64 = 8` (R57). -/
def escTier : Width → Nat
  | .w32 => 4
  | .w64 => 8

/-- `tag_esc_W`: `0xF0` at W=32, `0xFF` at W=64 (R57). -/
def escTag : Width → Byte
  | .w32 => 0xF0
  | .w64 => 0xFF

/-- `tag_k = (0xFF << (8 - k)) & 0xFF` (R57). -/
def tierTag (k : Nat) : Byte := BitVec.ofNat 8 (0xFF <<< (8 - k))

/-- `mask_k = (0xFF << (7 - k)) & 0xFF` (R57). -/
def tierMask (k : Nat) : Byte := BitVec.ofNat 8 (0xFF <<< (7 - k))

/-- The exclusive bounds of the non-escape tiers, in order (R55, R56, R69). -/
def tierBounds : Width → List Nat
  | .w32 => [0x80, 0x4000, 0x200000, 0x10000000]
  | .w64 => [0x80, 0x4000, 0x200000, 0x10000000,
      0x0800000000, 0x040000000000, 0x02000000000000, 0x0100000000000000]

/-- `tier_W(v)`: the least non-escape `k` with `v < bound_k`, else the escape tier (R63, R69). -/
def tierOf (w : Width) (v : Nat) : Nat := (tierBounds w).findIdx (fun bound => decide (v < bound))

/-- `extra_W(k)`: `k` for a non-escape tier, `W/8` for the escape tier (R80). -/
def extraBytes (w : Width) (k : Nat) : Nat := if k < escTier w then k else widthBits w / 8

/-- The untagged bytes `P` of the payload marshaller (R70). -/
def marshal (w : Width) (k v : Nat) : List Byte :=
  if k < escTier w then be (k + 1) v else 0x00 :: le (widthBits w / 8) v

/-- The prefix-tagger (R71). -/
def prefixTag (w : Width) (k : Nat) : List Byte → List Byte
  | [] => []
  | b :: rest => (if k < escTier w then b ||| tierTag k else escTag w) :: rest

/-- The form of `v` at tier `k`: the marshaller, then the tagger (R60, R61). -/
def formAt (w : Width) (k v : Nat) : List Byte := prefixTag w k (marshal w k v)

/-- `enc_W(v)` (R72). -/
def enc (w : Width) (v : Nat) : List Byte := formAt w (tierOf w v) v

/-- `classify_32` (R58). -/
def classify32 (b0 : Byte) : Option Nat :=
  if b0 &&& 0x80 = 0x00 then some 0
  else if b0 &&& 0xC0 = 0x80 then some 1
  else if b0 &&& 0xE0 = 0xC0 then some 2
  else if b0 &&& 0xF0 = 0xE0 then some 3
  else if b0 = 0xF0 then some 4
  else none

/-- `classify_64` (R58). -/
def classify64 (b0 : Byte) : Option Nat :=
  if b0 &&& 0x80 = 0x00 then some 0
  else if b0 &&& 0xC0 = 0x80 then some 1
  else if b0 &&& 0xE0 = 0xC0 then some 2
  else if b0 &&& 0xF0 = 0xE0 then some 3
  else if b0 &&& 0xF8 = 0xF0 then some 4
  else if b0 &&& 0xFC = 0xF8 then some 5
  else if b0 &&& 0xFE = 0xFC then some 6
  else if b0 = 0xFE then some 7
  else if b0 = 0xFF then some 8
  else none

/-- `classify_W` (R58, the prefix detector of R80). -/
def classify (w : Width) (b0 : Byte) : Option Nat :=
  match w with
  | .w32 => classify32 b0
  | .w64 => classify64 b0

/-- One step of the payload extractor: `v <- (v << 8) | b` (R81). -/
def shiftIn (v : Nat) (b : Byte) : Nat := (v <<< 8) ||| b.toNat

/-- The payload extractor of a non-escape tier (R81). -/
def extractPayload (k : Nat) : List Byte → Nat
  | [] => 0
  | b0 :: rest => rest.foldl shiftIn (b0 &&& ~~~ tierMask k).toNat

/-- The byte-order normalizer, `sum b_i << 8(i-1)` over the payload bytes (R82). -/
def normalizeBytes : List Byte → Nat
  | [] => 0
  | b :: rest => b.toNat + (normalizeBytes rest) <<< 8

/-- The value of the form bytes `bs` of tier `k` (R62, R81, R82). -/
def formValue (w : Width) (k : Nat) (bs : List Byte) : Nat :=
  if k < escTier w then extractPayload k bs else normalizeBytes bs.tail

/-- The three outcomes of `dec_W` (R83). -/
inductive DecResult where
  /-- The stream ended after this many bytes of a form that needs more. -/
  | short (m : Nat)
  /-- The first byte matches no tag. -/
  | unrecognized (b0 : Byte)
  /-- The value and the number of bytes consumed. -/
  | ok (v n : Nat)
  deriving DecidableEq, Repr

/-- `dec_W(s)` (R83). -/
def dec (w : Width) : List Byte → DecResult
  | [] => .short 0
  | b0 :: rest =>
    match classify w b0 with
    | none => .unrecognized b0
    | some k =>
      let n := 1 + extraBytes w k
      let s := b0 :: rest
      if s.length < n then .short s.length else .ok (formValue w k (s.take n)) n

end Sys2Proof.Machine
end

