-- ==== Sys2Proof/Machine/Ops.lean ====
section
/-! DEFINITION. The shared operations over the state: selecting an instance, the end of a command by `finish`
and by `raise` (the block's one way of taking an error, spec/60_exceptions.md R93) and the way out of an error
(R101), the command start (spec/10_state.md R30), the encoder start (spec/40_encode.md R73), the tag step
(spec/41_decode.md R85), the stream primitives (spec/20_memory.md R34 to R36) and the register accesses
(spec/10_state.md R27, R28). -/

namespace Sys2Proof.Machine

open Sys2Proof

/-- What a meaning answers. -/
abbrev Result := Host.Outcome State Fault Refusal

/-! ### Selecting an instance, writing its parts -/

/-- All instances, instance 0 first. -/
def State.instances (s : State) : List Inst := s.before ++ s.cur :: s.after

/-- The number of the instance that acts. -/
def State.curNum (s : State) : Nat := s.before.length

/-- Make instance `n` the one that acts. -/
def focus (n : Nat) (s : State) : Option State :=
  match s.instances.drop n with
  | [] => none
  | i :: rest => some { s with before := s.instances.take n, cur := i, after := rest }

/-- Let instance `n` act by `f`; a number that no instance has is refused (log 22). -/
def onInst (n : Nat) (f : State → Result) (s : State) : Result :=
  match focus n s with
  | none => .refused .noSuchInstance
  | some s' => f s'

/-- Write the acting instance. -/
def State.setCur (s : State) (i : Inst) : State := { s with cur := i }

/-- Write the acting instance's block. -/
def State.setBlock (s : State) (b : Block) : State := s.setCur { s.cur with block := b }

/-- Hold a host write at the acting instance, after those already held (R29). -/
def State.hold (s : State) (w : HostWrite) : State := s.setCur { s.cur with held := s.cur.held ++ [w] }

/-- An instance is BUSY. -/
def Inst.busy (i : Inst) : Bool := i.block.busy

/-- The same stream stands at a port of both. -/
def samePort (a b : Option Nat) : Bool := a.isSome && a == b

/-- Two instances have a stream attached in common. -/
def Inst.sharesStream (a b : Inst) : Bool := samePort a.inPort b.inPort || samePort a.outPort b.outPort

/-- A busy instance other than the acting one has a stream in common with `i` (R46, R98 (d), R120; log 11). -/
def State.conflicts (s : State) (i : Inst) : Bool :=
  (s.before ++ s.after).any (fun other => other.busy && i.sharesStream other)

/-! ### The ends of a command -/

/-- `finish` (R22): `STATE <- DONE; PHASE <- NONE`. -/
def Block.finish (b : Block) : Block := { b with status := withState .done b.status, phase := .none }

/-- `ERR_BYTE` as `raise` leaves it (R93): the offending byte for `UNRECOGNIZED_TAG`, else unchanged. -/
def HwError.recordByte (e : HwError) (st : BitVec 16) : BitVec 16 :=
  match e with
  | .unrecognizedTag b0 => withErrByte b0 st
  | _ => st

/-- `FAULT_INFO` as `raise` leaves it (R93): the stream's report for a stream fault, else unchanged. -/
def HwError.recordInfo (e : HwError) (old : Option StreamFaultInfo) : Option StreamFaultInfo :=
  match e with
  | .inFault info => some info
  | .outFault info => some info
  | _ => old

/-- `raise E(x)`, the error end of a command (R93): the one way this hardware takes an error. There is no vector
and no handler (R101). -/
def Block.raise (b : Block) (e : HwError) : Block :=
  { b with
    status := e.recordByte (withErr e.errCode (withState .error b.status))
    faultInfo := e.recordInfo b.faultInfo
    phase := .none }

/-- What every command start clears (R30), which is also the only way out of ERROR but reset (R101):
`STATUS.ERR <- NONE; STATUS.ERR_BYTE <- 0x00; LEN <- 0`. -/
def Block.clearResult (b : Block) : Block :=
  { b with status := withErrByte 0x00 (withErr .noError b.status), len := 0x00 }

/-! ### Command start (R30) -/

/-- `for j in 0 .. NB-1: SCRATCH[j] <- F[j]` (R73), from index `j` on. -/
def fillScratch (sc : Vector Byte Config.scratchBytes) : Nat → List Byte → Vector Byte Config.scratchBytes
  | _, [] => sc
  | j, b :: rest => fillScratch (sc.setIfInBounds j b) (j + 1) rest

/-- `ARG[W-1:0]` (R73). -/
def argValue (w : Width) (arg : Word64) : Nat := arg.toNat % 2 ^ widthBits w

/-- Encoder start (R73), with the value of `ARG`. -/
def Block.encoderStart (b : Block) (w : Width) (arg : Word64) : Block :=
  let v := argValue w arg
  { b with
    tier := tierOf w v
    nb := (enc w v).length
    scratch := fillScratch b.scratch 0 (enc w v)
    j := 0
    phase := .emit }

/-- The block once a legal command is latched: `OP <- decode_cmd(c); STATUS.STATE <- BUSY; J <- 0` (R30). -/
def Block.latch (b : Block) (op : Op) : Block :=
  { b.clearResult with op := op, status := withState .busy b.clearResult.status, j := 0 }

/-- A write of the legal command byte `c`, which selects `op` (R30). While BUSY it is held (R29). A launch that
would have one stream attached to two busy instances is refused (R46, R120; log 24 for its place before the
check of `ARG`). "If `ARG` holds no value: model fault UnwrittenArg" is R30's own line (also R16, R98 (a)). -/
def startCommand (c : Byte) (op : Op) (s : State) : Result :=
  if s.cur.busy then .next (s.hold ⟨0, c.toNat⟩)
  else if s.conflicts s.cur then .refused .sharedStream
  else
    let b := s.cur.block.latch op
    match op.dir with
    | .enc =>
      match s.cur.block.arg with
      | none => .fault .unwrittenArg
      | some a => .next (s.setBlock (b.encoderStart op.width a))
    | .dec => .next (s.setBlock { b with phase := .tag })

/-- A write of the reserved command byte `c` (R30, R52, R97). While BUSY it is held (R29). -/
def illegalCommand (c : Byte) (s : State) : Result :=
  if s.cur.busy then .next (s.hold ⟨0, c.toNat⟩)
  else .next (s.setBlock (s.cur.block.clearResult.raise .illegalCommand))

/-! ### The tag step (R85) -/

/-- `SCRATCH[0] <- b; J <- 1; LEN <- 1` (R85). -/
def Block.takeTag (b : Block) (b0 : Byte) : Block :=
  { b with scratch := b.scratch.setIfInBounds 0 b0, j := 1, len := 0x01 }

/-- A tag step of width `w` is enabled (R85: "enabled while `PHASE = TAG`", "W = OP.W"). -/
def tagEnabled (w : Width) (s : State) : Bool := s.cur.block.phase == .tag && s.cur.block.op.width == w

/-- The tag step once `InRead` answered `ok(b0)` and `b0` is of tier `k` (R85). -/
def acceptTag (w : Width) (k : Nat) (b0 : Byte) (s : State) : Result :=
  if tagEnabled w s then
    let b := { s.cur.block.takeTag b0 with tier := k, nb := 1 + extraBytes w k }
    if b.nb = 1 then
      .next (s.setBlock { b with res := some (BitVec.ofNat 64 (b0 &&& 0x7F).toNat) }.finish)
    else .next (s.setBlock { b with phase := .body })
  else .refused .tagStepNotEnabled

/-- The tag step once `InRead` answered `ok(b0)` and `b0` matches no tag of width `w` (R85, R94). -/
def rejectTag (w : Width) (b0 : Byte) (s : State) : Result :=
  if tagEnabled w s then .next (s.setBlock ((s.cur.block.takeTag b0).raise (.unrecognizedTag b0)))
  else .refused .tagStepNotEnabled

/-! ### The stream primitives (R11, R34 to R36) -/

/-- The input stream attached to `IN`, with its number. -/
def State.attachedIn (s : State) : Option (Nat × InStream) :=
  match s.cur.inPort with
  | none => none
  | some id => (s.inStreams[id]?).map (fun st => (id, st))

/-- The output stream attached to `OUT`, with its number. -/
def State.attachedOut (s : State) : Option (Nat × OutStream) :=
  match s.cur.outPort with
  | none => none
  | some id => (s.outStreams[id]?).map (fun st => (id, st))

/-- What `InRead()` gives: no stream is attached and nothing answers (log 13), or a byte, or a fault. -/
inductive ReadOutcome where
  | silent
  | ok (b : Byte) (s : State)
  | fault (info : StreamFaultInfo) (s : State)

/-- `data[i]` of an input stream (R34); `none` at and behind the end of a finite one. -/
def InStream.get (st : InStream) (i : Nat) : Option Byte :=
  match st.data[i]? with
  | some b => some b
  | none => st.endless.map (fun l => Config.endlessByte l i)

/-- The read position after an answer: one further after `ok`, and any value from here on after `fault`
(R35). -/
def InStream.moved (st : InStream) (n : Nat) : InStream := { st with pos := st.pos + n }

/-- `InRead()` (R35) with the stream agent's answer `a`. At the end of a finite stream the answer is always
a fault (R34). -/
def inRead (a : Answer) (s : State) : ReadOutcome :=
  match s.attachedIn with
  | none => .silent
  | some (id, st) =>
    match if a.fails then none else st.get st.pos with
    | some b => .ok b { s with inStreams := s.inStreams.set id (st.moved 1) }
    | none => .fault a.info { s with inStreams := s.inStreams.set id (st.moved a.advance) }

/-- What `OutWrite(b)` gives. -/
inductive WriteOutcome where
  | silent
  | ok (s : State)
  | fault (info : StreamFaultInfo) (s : State)

/-- The stream with `b` appended. -/
def OutStream.push (st : OutStream) (b : Byte) : OutStream := { st with written := st.written ++ [b] }

/-- `OutWrite(b)` (R36) with the stream agent's answer `a`: a faulting write may have landed or not. -/
def outWrite (a : Answer) (b : Byte) (s : State) : WriteOutcome :=
  match s.attachedOut with
  | none => .silent
  | some (id, st) =>
    if a.fails then
      .fault a.info (if a.landed then { s with outStreams := s.outStreams.set id (st.push b) } else s)
    else .ok { s with outStreams := s.outStreams.set id (st.push b) }

/-! ### Register reads (R27) -/

/-- The content of a register for a host read (R14, R15, R27): `CMD` reads `0x00`; on a register that holds no
value "a model faults there and does not return a number" (R27; also R17, R21, R98 (b)); the numbers 6 to 15 are
refused (R28). -/
def Block.readReg (b : Block) (r : RegNum) : Host.Outcome RegValue Fault Refusal :=
  match r.toNat with
  | 0 => .next (.byte 0x00)
  | 1 => match b.arg with
    | some v => .next (.word v)
    | none => .fault (.unwrittenRead r)
  | 2 => match b.res with
    | some v => .next (.word v)
    | none => .fault (.unwrittenRead r)
  | 3 => .next (.byte b.len)
  | 4 => .next (.half b.status)
  | 5 => match b.faultInfo with
    | some i => .next (.info i)
    | none => .fault (.unwrittenRead r)
  | _ => .refused (.reservedRegister r)

/-- Record a value read (R66). -/
def State.record (s : State) (r : RegNum) (v : RegValue) : State :=
  { s with reads := s.reads ++ [⟨s.curNum, r, v⟩] }

/-- `HostRead(r)`: the value is recorded and nothing else changes (R27). -/
def hostRead (r : RegNum) (s : State) : Result :=
  match s.cur.block.readReg r with
  | .next v => .next (s.record r v)
  | .fault f => .fault f
  | .refused f => .refused f

end Sys2Proof.Machine
end

