-- ==== Sys2Proof/Machine/DecodeCommands.lean ====
section
/-! DEFINITION. The decode commands (spec/41_decode.md R87 to R90) and their body micro-step (R86). Their tag
micro-step (R85) executes the TAG32 and TAG64 rows of Machine/Tiers.lean. -/

namespace Sys2Proof.Machine

open Sys2Proof

/-- `DEC.U32` (R87). -/
def execDecU32 (s : State) : Result := startCommand 0x01 ⟨.dec, .w32, false⟩ s

/-- `DEC.U64` (R88). -/
def execDecU64 (s : State) : Result := startCommand 0x03 ⟨.dec, .w64, false⟩ s

/-- `DEC.I32` (R89): exactly `DEC.U32`, without sign extension. -/
def execDecI32 (s : State) : Result := startCommand 0x05 ⟨.dec, .w32, true⟩ s

/-- `DEC.I64` (R90): exactly `DEC.U64`. -/
def execDecI64 (s : State) : Result := startCommand 0x07 ⟨.dec, .w64, true⟩ s

/-- The value in `SCRATCH[0 .. NB-1]` (R86). -/
def Block.formValue (b : Block) : Nat := Machine.formValue b.op.width b.tier (b.scratch.toList.take b.nb)

/-- The block after a body byte (R86): the byte stored and counted, and at `J = NB` the value in `RES` and
`finish`. -/
def Block.takeBody (b : Block) (byte : Byte) : Block :=
  let b' := { b with scratch := b.scratch.setIfInBounds b.j byte, j := b.j + 1, len := b.len + 1 }
  if b'.j = b'.nb then { b' with res := some (BitVec.ofNat 64 b'.formValue) }.finish else b'

/-- Body step (R86), with the stream agent's answer. -/
def bodyStep (a : Answer) (s : State) : Result :=
  if s.cur.block.j < Config.scratchBytes then
    match inRead a s with
    | .silent => .next s
    | .fault info s' => .next (s'.setBlock (s'.cur.block.raise (.inFault info)))
    | .ok byte s' => .next (s'.setBlock (s'.cur.block.takeBody byte))
  else .fault .scratchIndex

end Sys2Proof.Machine
end

