-- ==== Sys2Proof/Machine/EncodeCommands.lean ====
section
/-! DEFINITION. The encode commands (spec/40_encode.md R75 to R78) and their emit micro-step (R74). -/

namespace Sys2Proof.Machine

open Sys2Proof

/-- `ENC.U32` (R75). -/
def execEncU32 (s : State) : Result := startCommand 0x00 ⟨.enc, .w32, false⟩ s

/-- `ENC.U64` (R76). -/
def execEncU64 (s : State) : Result := startCommand 0x02 ⟨.enc, .w64, false⟩ s

/-- `ENC.I32` (R77): the bit pattern of `ENC.U32`. -/
def execEncI32 (s : State) : Result := startCommand 0x04 ⟨.enc, .w32, true⟩ s

/-- `ENC.I64` (R78): the bit pattern of `ENC.U64`. -/
def execEncI64 (s : State) : Result := startCommand 0x06 ⟨.enc, .w64, true⟩ s

/-- The block after an emitted byte (R74): `J <- J + 1; LEN <- LEN + 1`, and `finish` at `J = NB`. -/
def Block.emitted (b : Block) : Block :=
  let b' := { b with j := b.j + 1, len := b.len + 1 }
  if b'.j = b'.nb then b'.finish else b'

/-- Emit step (R74), with the stream agent's answer. -/
def emitStep (a : Answer) (s : State) : Result :=
  match s.cur.block.scratch[s.cur.block.j]? with
  | none => .fault .scratchIndex
  | some byte =>
    match outWrite a byte s with
    | .silent => .next s
    | .fault info s' => .next (s'.setBlock (s'.cur.block.raise (.outFault info)))
    | .ok s' => .next (s'.setBlock s'.cur.block.emitted)

end Sys2Proof.Machine
end

