-- ==== Sys2Proof/Machine/ReservedCommands.lean ====
section
/-! DEFINITION. The reserved command bytes (spec/30_encoding.md R52; spec/60_exceptions.md R97): the command ends
at once in ERROR with `ERR = ILLEGAL_COMMAND`. -/

namespace Sys2Proof.Machine

open Sys2Proof

/-- `RESERVED_CMD`, row 0x08/0x08 (R52). -/
def execReservedCmd08 (c : Byte) (s : State) : Result := illegalCommand c s

/-- `RESERVED_CMD`, row 0x10/0x18 (R52). -/
def execReservedCmd10 (c : Byte) (s : State) : Result := illegalCommand c s

/-- `RESERVED_CMD`, row 0x20/0x38 (R52). -/
def execReservedCmd20 (c : Byte) (s : State) : Result := illegalCommand c s

/-- `RESERVED_CMD`, row 0x40/0x78 (R52). -/
def execReservedCmd40 (c : Byte) (s : State) : Result := illegalCommand c s

/-- `RESERVED_CMD`, row 0x80/0xF8 (R52). -/
def execReservedCmd80 (c : Byte) (s : State) : Result := illegalCommand c s

end Sys2Proof.Machine
end

