-- ==== Sys2Proof/Machine/Tiers.lean ====
section
/-! DEFINITION. The first bytes of a form, as the tag step executes them (spec/41_decode.md R85) once the input
stream supplied the byte: the tiers of spec/30_encoding.md R55 and R56, and the illegal first bytes of R59. -/

namespace Sys2Proof.Machine

open Sys2Proof

/-- `TIER0_32`: `0ppppppp`, the value is `p` (R55, R81). -/
def execTier0W32 (p : BitVec 7) (s : State) : Result := acceptTag .w32 0 (0b0#1 ++ p) s

/-- `TIER1_32`: `10pppppp` (R55). -/
def execTier1W32 (p : BitVec 6) (s : State) : Result := acceptTag .w32 1 (0b10#2 ++ p) s

/-- `TIER2_32`: `110ppppp` (R55). -/
def execTier2W32 (p : BitVec 5) (s : State) : Result := acceptTag .w32 2 (0b110#3 ++ p) s

/-- `TIER3_32`: `1110pppp` (R55). -/
def execTier3W32 (p : BitVec 4) (s : State) : Result := acceptTag .w32 3 (0b1110#4 ++ p) s

/-- `TIER4_ESC32`: `11110000` exactly (R55, R61). -/
def execTier4Esc32 (s : State) : Result := acceptTag .w32 4 0xF0 s

/-- `ILLEGAL_TAG32`, row 0xF1/0xFF (R59, R94). -/
def execIllegalTagF1 (b0 : Byte) (s : State) : Result := rejectTag .w32 b0 s

/-- `ILLEGAL_TAG32`, row 0xF2/0xFE (R59, R94). -/
def execIllegalTagF2 (b0 : Byte) (s : State) : Result := rejectTag .w32 b0 s

/-- `ILLEGAL_TAG32`, row 0xF4/0xFC (R59, R94). -/
def execIllegalTagF4 (b0 : Byte) (s : State) : Result := rejectTag .w32 b0 s

/-- `ILLEGAL_TAG32`, row 0xF8/0xF8 (R59, R94). -/
def execIllegalTagF8 (b0 : Byte) (s : State) : Result := rejectTag .w32 b0 s

/-- `TIER0_64`: `0ppppppp`, the value is `p` (R56, R81). -/
def execTier0W64 (p : BitVec 7) (s : State) : Result := acceptTag .w64 0 (0b0#1 ++ p) s

/-- `TIER1_64`: `10pppppp` (R56). -/
def execTier1W64 (p : BitVec 6) (s : State) : Result := acceptTag .w64 1 (0b10#2 ++ p) s

/-- `TIER2_64`: `110ppppp` (R56). -/
def execTier2W64 (p : BitVec 5) (s : State) : Result := acceptTag .w64 2 (0b110#3 ++ p) s

/-- `TIER3_64`: `1110pppp` (R56). -/
def execTier3W64 (p : BitVec 4) (s : State) : Result := acceptTag .w64 3 (0b1110#4 ++ p) s

/-- `TIER4_64`: `11110ppp` (R56). -/
def execTier4W64 (p : BitVec 3) (s : State) : Result := acceptTag .w64 4 (0b11110#5 ++ p) s

/-- `TIER5_64`: `111110pp` (R56). -/
def execTier5W64 (p : BitVec 2) (s : State) : Result := acceptTag .w64 5 (0b111110#6 ++ p) s

/-- `TIER6_64`: `1111110p` (R56). -/
def execTier6W64 (p : BitVec 1) (s : State) : Result := acceptTag .w64 6 (0b1111110#7 ++ p) s

/-- `TIER7_64`: `11111110`, no payload bit in the first byte (R56). -/
def execTier7W64 (s : State) : Result := acceptTag .w64 7 0xFE s

/-- `TIER8_ESC64`: `11111111` (R56, R61). -/
def execTier8Esc64 (s : State) : Result := acceptTag .w64 8 0xFF s

end Sys2Proof.Machine
end

