-- ==== Sys2Proof/Machine/Dispatch.lean ====
section
/-! DEFINITION. One arm per constructor of Instr: the byte's meaning at the instance that acts. -/

namespace Sys2Proof.Machine

open Sys2Proof

def exec (i : Instr) (s : State) : Host.Outcome State Fault Refusal :=
  match i with
  | .encU32 => Sys2Proof.Machine.execEncU32 s
  | .decU32 => Sys2Proof.Machine.execDecU32 s
  | .encU64 => Sys2Proof.Machine.execEncU64 s
  | .decU64 => Sys2Proof.Machine.execDecU64 s
  | .encI32 => Sys2Proof.Machine.execEncI32 s
  | .decI32 => Sys2Proof.Machine.execDecI32 s
  | .encI64 => Sys2Proof.Machine.execEncI64 s
  | .decI64 => Sys2Proof.Machine.execDecI64 s
  | .reservedCmd08 c => Sys2Proof.Machine.execReservedCmd08 c s
  | .reservedCmd10 c => Sys2Proof.Machine.execReservedCmd10 c s
  | .reservedCmd20 c => Sys2Proof.Machine.execReservedCmd20 c s
  | .reservedCmd40 c => Sys2Proof.Machine.execReservedCmd40 c s
  | .reservedCmd80 c => Sys2Proof.Machine.execReservedCmd80 c s
  | .tier0W32 p => Sys2Proof.Machine.execTier0W32 p s
  | .tier1W32 p => Sys2Proof.Machine.execTier1W32 p s
  | .tier2W32 p => Sys2Proof.Machine.execTier2W32 p s
  | .tier3W32 p => Sys2Proof.Machine.execTier3W32 p s
  | .tier4Esc32 => Sys2Proof.Machine.execTier4Esc32 s
  | .illegalTagF1 b0 => Sys2Proof.Machine.execIllegalTagF1 b0 s
  | .illegalTagF2 b0 => Sys2Proof.Machine.execIllegalTagF2 b0 s
  | .illegalTagF4 b0 => Sys2Proof.Machine.execIllegalTagF4 b0 s
  | .illegalTagF8 b0 => Sys2Proof.Machine.execIllegalTagF8 b0 s
  | .tier0W64 p => Sys2Proof.Machine.execTier0W64 p s
  | .tier1W64 p => Sys2Proof.Machine.execTier1W64 p s
  | .tier2W64 p => Sys2Proof.Machine.execTier2W64 p s
  | .tier3W64 p => Sys2Proof.Machine.execTier3W64 p s
  | .tier4W64 p => Sys2Proof.Machine.execTier4W64 p s
  | .tier5W64 p => Sys2Proof.Machine.execTier5W64 p s
  | .tier6W64 p => Sys2Proof.Machine.execTier6W64 p s
  | .tier7W64 => Sys2Proof.Machine.execTier7W64 s
  | .tier8Esc64 => Sys2Proof.Machine.execTier8Esc64 s

end Sys2Proof.Machine
end

