-- ==== Sys2Proof/Machine/HostPort.lean ====
section
/-! DEFINITION. What the outside does to an instance: register writes (spec/10_state.md R28, R29), the lines of a
host program and the pseudo-instructions (spec/30_encoding.md R66, R67), the stream agent's answers
(spec/40_encode.md R74; spec/41_decode.md R85, R86) and reset (spec/70_reset_and_hazards.md R110). -/

namespace Sys2Proof.Machine

open Sys2Proof

/-- `HostWrite(r, v)` (R28). A write of `CMD` runs the instruction of its low byte (R30; log 9), which holds it
while BUSY; every other write is held here while BUSY (R29), before anything else is asked of it (log 10). -/
def hostWrite (r : RegNum) (v : Nat) (s : State) : Result :=
  if r = 0 then exec (decodeCmd (BitVec.ofNat 8 v)) s
  else if s.cur.busy then .next (s.hold ⟨r, v⟩)
  else if r = 1 then .next (s.setBlock { s.cur.block with arg := some (BitVec.ofNat 64 v) })
  else if r.toNat ≤ 5 then .next s
  else .refused (.reservedRegister r)

/-- A register access (R27, R28). -/
def hostAccess (a : Access) (s : State) : Result :=
  match a with
  | .read r => hostRead r s
  | .write r v => hostWrite r v s

/-- The oldest held write completes (R29), and the program's own, if one is held, is one place nearer. -/
def completeHeld (s : State) : Result :=
  match s.cur.held with
  | [] => .next s
  | w :: rest => hostWrite w.reg w.val (s.setCur { s.cur with held := rest, pending := s.cur.pending - 1 })

/-- An instance whose oldest held write completes now (R29: "at the first point where `STATE != BUSY`"). -/
def Inst.heldReady (i : Inst) : Bool := !i.held.isEmpty && !i.busy

/-- The number of the first such instance (log 8). -/
def State.readyInst (s : State) : Option Nat := s.instances.findIdx? Inst.heldReady

/-! ### The lines of a host program (R66) -/

/-- Attach input stream `id` to `IN`. Refused on the port of a decode in progress (log 12) and where a busy
instance would then share a stream with another (R120; log 11). -/
def attachInput (id : Nat) (s : State) : Result :=
  let i := { s.cur with inPort := some id }
  if s.cur.block.phase = .tag ∨ s.cur.block.phase = .body then .refused .portInUse
  else if s.cur.busy && s.conflicts i then .refused .sharedStream
  else .next (s.setCur i)

/-- Attach output stream `id` to `OUT`, with the same two refusals, for an encode in progress. -/
def attachOutput (id : Nat) (s : State) : Result :=
  let i := { s.cur with outPort := some id }
  if s.cur.block.phase = .emit then .refused .portInUse
  else if s.cur.busy && s.conflicts i then .refused .sharedStream
  else .next (s.setCur i)

/-- `wait`: one `rd STATUS`, and the line stays to be run again while BUSY (R66). -/
def waitLine (s : State) : Result :=
  let s' := s.record 4 (.half s.cur.block.status)
  if s.cur.busy then .next (s'.setCur { s'.cur with program := .wait :: s'.cur.program }) else .next s'

/-- One line of the program of the acting instance (R66); the line is already off the program. -/
def runLine (l : Line) (s : State) : Result :=
  match l with
  | .access a => hostAccess a s
  | .wait => waitLine s
  | .attachIn data => attachInput s.inStreams.length { s with inStreams := s.inStreams ++ [⟨data, none, 0⟩] }
  | .attachOut => attachOutput s.outStreams.length { s with outStreams := s.outStreams ++ [⟨[]⟩] }
  | .attachInStream id => if id < s.inStreams.length then attachInput id s else .refused .noSuchStream
  | .attachOutStream id => if id < s.outStreams.length then attachOutput id s else .refused .noSuchStream

/-- A line that writes a register. -/
def Line.isWrite : Line → Bool
  | .access (.write _ _) => true
  | _ => false

/-- The line `l` off the program, `rest` being what follows: a write presented while BUSY is held behind the held
ones, and the program waits for it (R29; log 7). -/
def Inst.present (i : Inst) (l : Line) (rest : List Line) : Inst :=
  { i with program := rest, pending := if l.isWrite && i.busy then i.held.length + 1 else 0 }

/-- The host's turn: its next line, or, while its last write is still held, nothing (R29; log 7). A host whose
program is over does nothing. -/
def hostTurn (s : State) : Result :=
  if s.cur.pending ≠ 0 then .next s
  else
    match s.cur.program with
    | [] => .next s
    | l :: rest => runLine l (s.setCur (s.cur.present l rest))

/-! ### The pseudo-instructions (R67) -/

/-- The pseudo-instructions, with the signed immediate of the encodes. -/
inductive Pseudo where
  | encU32 (v : Int) | encU64 (v : Int) | encI32 (v : Int) | encI64 (v : Int)
  | decU32 | decU64 | decI32 | decI64
  deriving DecidableEq, Repr

/-- `wr ARG, v ; wr CMD, c ; wait`. -/
def encodeLines (v : Nat) (c : Byte) : List Line :=
  [.access (.write 1 v), .access (.write 0 c.toNat), .wait]

/-- `wr CMD, c ; wait`. -/
def decodeLines (c : Byte) : List Line := [.access (.write 0 c.toNat), .wait]

/-- An unsigned immediate in range, `0 <= v < 2^W`. -/
def unsignedImm (w : Width) (v : Int) : Option Nat :=
  if 0 ≤ v ∧ v < 2 ^ widthBits w then some v.toNat else none

/-- A signed immediate in range, `-2^(W-1) <= s < 2^(W-1)`, as `as_unsigned_W(s)`. -/
def signedImm (w : Width) (v : Int) : Option Nat :=
  if -(2 ^ (widthBits w - 1)) ≤ v ∧ v < 2 ^ (widthBits w - 1) then some (asUnsigned w v) else none

/-- The expansion of a pseudo-instruction; the assembler "rejects an immediate out of the stated range". -/
def Pseudo.expand : Pseudo → Option (List Line)
  | .encU32 v => (unsignedImm .w32 v).map (encodeLines · 0x00)
  | .encU64 v => (unsignedImm .w64 v).map (encodeLines · 0x02)
  | .encI32 v => (signedImm .w32 v).map (encodeLines · 0x04)
  | .encI64 v => (signedImm .w64 v).map (encodeLines · 0x06)
  | .decU32 => some (decodeLines 0x01)
  | .decU64 => some (decodeLines 0x03)
  | .decI32 => some (decodeLines 0x05)
  | .decI64 => some (decodeLines 0x07)

/-! ### Stream answers and reset -/

/-- Tag step (R85), with the stream agent's answer: the byte that `InRead` supplies is fetched as an instruction
of the format of `OP.W` and executed. -/
def tagStep (a : Answer) (s : State) : Result :=
  match inRead a s with
  | .silent => .next s
  | .fault info s' => .next (s'.setBlock (s'.cur.block.raise (.inFault info)))
  | .ok b s' => exec (decodeByte s.cur.block.op.width.tagFormat b) s'

/-- One micro-step (R5), enabled by `PHASE`. With `PHASE = NONE` the block asks nothing, and an answer has no
effect (log 21). -/
def microStep (a : Answer) (s : State) : Result :=
  match s.cur.block.phase with
  | .none => .next s
  | .emit => emitStep a s
  | .tag => tagStep a s
  | .body => bodyStep a s

/-- Reset of the acting instance (R110, R111): its block alone. Held writes stay held and the streams keep what
was transferred; the attachments stay (log 14). -/
def resetTurn (s : State) : Result := .next (s.setBlock Block.reset)

/-- One turn of an agent. -/
def runTurn (t : Turn) (s : State) : Result :=
  match t with
  | .host n => onInst n hostTurn s
  | .access n a => onInst n (hostAccess a) s
  | .answer n a => onInst n (microStep a) s
  | .reset n => onInst n resetTurn s

/-- The machine's next move: a held write that can complete (R29), else the next turn of the schedule. With no
turn to come nothing moves: an idle block keeps its state (R109), and a BUSY block that no stream answers stays
BUSY (R122). -/
def nextMove (s : State) : Result :=
  match s.readyInst with
  | some n => onInst n completeHeld s
  | none =>
    match s.schedule with
    | [] => .next s
    | t :: rest => runTurn t { s with schedule := rest }

/-! ### Loading a command from outside (log 17) -/

/-- Let go of the held writes of an instance. -/
def Inst.dropHeld (i : Inst) : Inst := { i with held := [], pending := 0 }

/-- The block ready to take command byte `c`: a command in progress is abandoned as by reset (R111), and an
encode finds a value in `ARG` (R112 (2)), 0 where it holds none. -/
def Block.readyFor (b : Block) (c : Byte) : Block :=
  let b' := if b.busy then { b with status := 0x0000, len := 0x00, phase := .none } else b
  if c.toNat < 8 ∧ (opOfCmd c).dir = .enc ∧ b'.arg = none then { b' with arg := some 0 } else b'

end Sys2Proof.Machine
end

