-- ==== Sys2Proof/Machine/Step.lean ====
section
/-! DEFINITION. One step of the machine, and where its next instruction is stored. -/

namespace Sys2Proof.Machine

open Sys2Proof

/-- One step: the machine's next move (spec/00_scope.md R5, R12). -/
def step (s : State) : Host.Outcome State Fault Refusal := nextMove s

/-- `s` with the command byte `w` as the very next thing that happens: a write of `CMD` at the acting instance,
first in the schedule, with no held write before it and the instance ready for it as by R112's boot steps
(log 17). -/
def State.withFetchWord (s : State) (_nbits w : Nat) : State :=
  { s with
    before := s.before.map Inst.dropHeld
    cur := { s.cur.dropHeld with block := s.cur.block.readyFor (BitVec.ofNat 8 w) }
    after := s.after.map Inst.dropHeld
    schedule := .access s.before.length (.write 0 w) :: s.schedule }

end Sys2Proof.Machine
end

