-- ==== Sys2Proof/Safety.lean ====
section
/-! DEFINITION. What a sound state of the machine is, when a run is over, and when two states cannot be told apart
by the host, in the terms the claims use (spec/10_state.md R18 to R23, R29, R32; spec/70_reset_and_hazards.md
R120, R124). -/

namespace Sys2Proof.Machine

open Sys2Proof

/-- What `PHASE` says of the rest of the block (R18, R20, R23): `NB` is the length of the form in progress,
`J = LEN < NB`, and `SCRATCH` holds the canonical form of some W-bit value (encode) or the bytes read so far, of
the tier in `TIER` (decode). -/
def Block.phaseInv (b : Block) : Prop :=
  match b.phase with
  | .none => True
  | .emit =>
    b.op.dir = .enc ∧ b.j < b.nb ∧ b.len.toNat = b.j ∧
      ∃ v, v < 2 ^ widthBits b.op.width ∧ b.tier = tierOf b.op.width v ∧ b.nb = (enc b.op.width v).length ∧
        b.scratch.toList.take b.nb = enc b.op.width v
  | .tag => b.op.dir = .dec ∧ b.j = 0 ∧ b.len.toNat = 0
  | .body =>
    b.op.dir = .dec ∧ 1 ≤ b.j ∧ b.j < b.nb ∧ b.len.toNat = b.j ∧ b.nb = 1 + extraBytes b.op.width b.tier ∧
      ∃ b0, b.scratch[0]? = some b0 ∧ classify b.op.width b0 = some b.tier

/-- A sound block (R18, R19, R22, R23). -/
structure Block.Sound (b : Block) : Prop where
  /-- `STATUS[7:5]` reads as 0. -/
  reserved : statusReserved b.status = 0
  /-- The codes 5, 6 and 7 of `ERR` are never produced. -/
  errKnown : ∃ e : ErrCode, statusErr b.status = e.code
  /-- "`ERR != NONE` holds exactly when `STATE = ERROR`." -/
  errState : statusErr b.status ≠ ErrCode.noError.code ↔ statusState b.status = RunState.error.code
  /-- `ERR_BYTE` is an illegal first byte (R94) when `ERR = UNRECOGNIZED_TAG`, else `0x00`. -/
  errByte : if statusErr b.status = ErrCode.unrecognizedTag.code then 0xF1 ≤ (statusErrByte b.status).toNat
    else statusErrByte b.status = 0x00
  /-- "`STATE = BUSY` holds exactly when `PHASE != NONE`." -/
  busyPhase : b.busy = true ↔ b.phase ≠ .none
  /-- "`LEN` never exceeds 9." -/
  lenLe : b.len.toNat ≤ 9
  phaseOk : b.phaseInv

/-- A sound machine: every block is sound, every attached stream exists, no stream is attached to two busy
instances (R46, R120), and a program that waits for its held write has one among the held writes (R29). -/
structure State.Sound (s : State) : Prop where
  blocks : ∀ i ∈ s.instances, i.block.Sound
  inPorts : ∀ i ∈ s.instances, ∀ id, i.inPort = some id → id < s.inStreams.length
  outPorts : ∀ i ∈ s.instances, ∀ id, i.outPort = some id → id < s.outStreams.length
  unshared : s.instances.Pairwise (fun a b => a.busy = true → b.busy = true → a.sharesStream b = false)
  waits : ∀ i ∈ s.instances, i.pending ≤ i.held.length

/-- The program of an instance has completed its last line, and the instance is not BUSY (R124). -/
def Inst.ended (i : Inst) : Bool := i.program.isEmpty && i.pending == 0 && !i.busy

/-- The run of a host program on the instances `used` has ended (R124: "its last line has completed and
`STATE != BUSY` on every instance it used"). Its lines are those of the lists at these instances (log 28). -/
def State.runEnded (s : State) (used : List Nat) : Bool := used.all (fun n => s.instances[n]?.any Inst.ended)

/-- The instance whose turn a step is, if any: the one whose held write completes, else the one that the next
turn names. -/
def actor (s : State) : Option Nat :=
  match s.readyInst, s.schedule with
  | some n, _ => some n
  | none, [] => none
  | none, .host n :: _ => some n
  | none, .access n _ :: _ => some n
  | none, .answer n _ :: _ => some n
  | none, .reset n :: _ => some n

/-- What moves the block of an instance from outside: a host write that arrives (R28, R29), a stream's answer
(R34), reset (R110). -/
inductive Cause where
  | write (r : RegNum) (v : Nat)
  | answer (a : Answer)
  | reset
  deriving DecidableEq, Repr

/-- The next step brings `c` to instance `n`. A write arrives as the oldest held write of that instance, as
another master's access, or as the next line of the instance's program (the model's readings, logs 7 and 8). -/
def State.delivers (s : State) (n : Nat) (c : Cause) : Prop :=
  match c with
  | .write r v =>
    (s.readyInst = some n ∧ ∃ i ws, s.instances[n]? = some i ∧ i.held = ⟨r, v⟩ :: ws) ∨
    (s.readyInst = none ∧ ∃ rest, s.schedule = .access n (.write r v) :: rest) ∨
    (s.readyInst = none ∧ (∃ rest, s.schedule = .host n :: rest) ∧
      ∃ i ls, s.instances[n]? = some i ∧ i.pending = 0 ∧ i.program = .access (.write r v) :: ls)
  | .answer a => s.readyInst = none ∧ ∃ rest, s.schedule = .answer n a :: rest
  | .reset => s.readyInst = none ∧ ∃ rest, s.schedule = .reset n :: rest

/-- What a command makes observable of the registers (R32). -/
structure Observables where
  len : Byte
  status : BitVec 16
  res : Option Word64
  faultInfo : Option StreamFaultInfo
  deriving DecidableEq, Repr

/-- The observables of a block (R32). -/
def Block.observables (b : Block) : Observables := ⟨b.len, b.status, b.res, b.faultInfo⟩

/-- Two blocks agree on every register and on what the command in progress may read, and may differ in the rest:
`OP`, `TIER`, `NB`, `J` with `PHASE = NONE`, and bytes of `SCRATCH` that the command has not written (R20, R23,
R110). -/
structure Block.Alike (a b : Block) : Prop where
  arg : a.arg = b.arg
  observables : a.observables = b.observables
  phase : a.phase = b.phase
  op : a.phase ≠ .none → a.op = b.op
  counters : a.phase = .emit ∨ a.phase = .body → a.tier = b.tier ∧ a.nb = b.nb ∧ a.j = b.j
  emitted : a.phase = .emit → ∀ i, i < a.nb → a.scratch[i]? = b.scratch[i]?
  taken : a.phase = .body → ∀ i, i < a.j → a.scratch[i]? = b.scratch[i]?

/-- Two instances with alike blocks and the same ports, held writes and program lines. -/
structure Inst.Alike (a b : Inst) : Prop where
  block : a.block.Alike b.block
  held : a.held = b.held
  inPort : a.inPort = b.inPort
  outPort : a.outPort = b.outPort
  program : a.program = b.program
  pending : a.pending = b.pending

/-- Two machines that differ at most in what no rule reads. -/
structure State.Alike (a b : State) : Prop where
  before : List.Forall₂ Inst.Alike a.before b.before
  cur : a.cur.Alike b.cur
  after : List.Forall₂ Inst.Alike a.after b.after
  inStreams : a.inStreams = b.inStreams
  outStreams : a.outStreams = b.outStreams
  reads : a.reads = b.reads
  schedule : a.schedule = b.schedule

/-- Two results that the host cannot tell apart. -/
def resultsAlike (x y : Result) : Prop :=
  match x, y with
  | .next a, .next b => a.Alike b
  | .fault f, .fault g => f = g
  | .refused f, .refused g => f = g
  | _, _ => False

end Sys2Proof.Machine
end

