-- ==== Sys2Proof/Certificates/Slice0/Obligations.lean ====
section
/-! DEFINITION. The statements about the model, for the provers. Each docstring names the rule of spec/ it
formalises. -/

namespace Sys2Proof.Claims

open Sys2Proof Sys2Proof.Machine

/-- Nothing but the acting instance's block differs: the other instances, the held writes, ports and program of
the acting one, every stream, every recorded read and the schedule are as before. -/
def OnlyBlock (s t : State) : Prop := t = s.setBlock t.cur.block

/-- The encode commands with their width and signedness (R75 to R78). -/
def encodeCommands : List (Instr × Width × Bool) :=
  [(.encU32, .w32, false), (.encU64, .w64, false), (.encI32, .w32, true), (.encI64, .w64, true)]

/-- The decode commands with their width and signedness (R87 to R90). -/
def decodeCommands : List (Instr × Width × Bool) :=
  [(.decU32, .w32, false), (.decU64, .w64, false), (.decI32, .w32, true), (.decI64, .w64, true)]

/-- The five reserved rows at a byte `c` (R52). -/
def reservedRows (c : Byte) : List Instr :=
  [.reservedCmd08 c, .reservedCmd10 c, .reservedCmd20 c, .reservedCmd40 c, .reservedCmd80 c]

/-- The four illegal first-byte rows at a byte `b0` (R59). -/
def illegalRows (b0 : Byte) : List Instr :=
  [.illegalTagF1 b0, .illegalTagF2 b0, .illegalTagF4 b0, .illegalTagF8 b0]

/-- `i` executed where a tag step of width `w` is enabled goes on to the body (R85): `b` stored and counted,
`TIER` and `NB` written, `PHASE = BODY`, nothing else. -/
def TagGoesOn (i : Instr) (w : Width) (k nb : Nat) (b : Byte) : Prop :=
  ∀ s : State, tagEnabled w s = true → ∃ t, exec i s = .next t ∧ OnlyBlock s t ∧
    t.cur.block.scratch.toList = b :: s.cur.block.scratch.toList.tail ∧
    t.cur.block.j = 1 ∧ t.cur.block.len = 1 ∧ t.cur.block.tier = k ∧ t.cur.block.nb = nb ∧
    t.cur.block.phase = .body ∧ t.cur.block.op = s.cur.block.op ∧
    t.cur.block.status = s.cur.block.status ∧ t.cur.block.arg = s.cur.block.arg ∧
    t.cur.block.res = s.cur.block.res ∧ t.cur.block.faultInfo = s.cur.block.faultInfo

/-- `i` executed where a tag step of width `w` is enabled ends the command DONE with the value `p` (R85). -/
def TagFinishes (i : Instr) (w : Width) (p : Nat) : Prop :=
  ∀ s : State, tagEnabled w s = true → ∃ t, exec i s = .next t ∧ OnlyBlock s t ∧
    t.cur.block.res = some (BitVec.ofNat 64 p) ∧ t.cur.block.len = 1 ∧ t.cur.block.phase = .none ∧
    statusState t.cur.block.status = RunState.done.code ∧
    statusErr t.cur.block.status = statusErr s.cur.block.status ∧
    statusReserved t.cur.block.status = statusReserved s.cur.block.status ∧
    statusErrByte t.cur.block.status = statusErrByte s.cur.block.status ∧
    t.cur.block.scratch.toList = BitVec.ofNat 8 p :: s.cur.block.scratch.toList.tail ∧
    t.cur.block.j = 1 ∧ t.cur.block.tier = 0 ∧ t.cur.block.nb = 1 ∧ t.cur.block.op = s.cur.block.op ∧
    t.cur.block.arg = s.cur.block.arg ∧ t.cur.block.faultInfo = s.cur.block.faultInfo

/-- A list of `ok` answers. -/
def AllOk (as : List Answer) : Prop := ∀ a ∈ as, a.fails = false

/-- The turns in which the stream of instance `n` gives these answers. -/
def answerTurns (n : Nat) (as : List Answer) : List Turn := as.map (.answer n)

/-- Everything outside the acting instance's block and output stream `id`, and its schedule, is as before. -/
def OnlyBlockAndOut (s t : State) (id : Nat) (st : OutStream) (rest : List Turn) : Prop :=
  t = { s.setBlock t.cur.block with outStreams := s.outStreams.set id st, schedule := rest }

/-- Everything outside the acting instance's block and input stream `id`, and its schedule, is as before. -/
def OnlyBlockAndIn (s t : State) (id : Nat) (st : InStream) (rest : List Turn) : Prop :=
  t = { s.setBlock t.cur.block with inStreams := s.inStreams.set id st, schedule := rest }

end Sys2Proof.Claims

open Sys2Proof Sys2Proof.Machine Sys2Proof.Claims

/-! ### Encoding -/

/-- R51, R52, R58, R59, R68: decoding the byte of a well-formed instruction gives it back. -/
def Obligations.DecodeOfEncode : Prop :=
  ∀ i : Instr, i.wf = true → ∀ rest : List Byte, decode i.format (encode i ++ rest) = .ok (i, rest)

/-- R68: every byte of every format is the byte of exactly the well-formed instruction it decodes to. -/
def Obligations.EncodeOfDecode : Prop :=
  ∀ (f : Format) (b : Byte), (decodeByte f b).wf = true ∧ (decodeByte f b).format = f ∧
    encode (decodeByte f b) = [b] ∧ ∀ i : Instr, i.wf = true → i.format = f → encode i = [b] → i = decodeByte f b

/-- R68: 31 rows; in each format every byte matches exactly one row, and it is the decoded instruction's. -/
def Obligations.TableRowsPartitionEachFormat : Prop :=
  tableRows.length = 31 ∧
    ∀ (f : Format) (b : Byte), tableRows.filter (fun r => r.format == f && r.fits b) = [(decodeByte f b).row]

/-- R51, R52, R55, R56, R59: words written out from the spec's tables decode to their instructions. -/
def Obligations.SpecWordsDecode : Prop :=
  decodeCmd 0b00000000 = .encU32 ∧ decodeCmd 0b00000111 = .decI64 ∧
    decodeCmd 0b00001011 = .reservedCmd08 0b00001011 ∧
    decodeTag32 0b11000000 = .tier2W32 0b00000 ∧ decodeTag32 0b11110000 = .tier4Esc32 ∧
    decodeTag32 0b11110101 = .illegalTagF4 0b11110101 ∧
    decodeTag64 0b11110101 = .tier4W64 0b101 ∧ decodeTag64 0b11111111 = .tier8Esc64

/-! ### The codec -/

/-- R69: the tier selector and its bounds; at each bound `B`, `B - 1` takes the lower tier and `B` the next. -/
def Obligations.TierSelectorPicksLeast : Prop :=
  tierBounds .w32 = [0x80, 0x4000, 0x200000, 0x10000000] ∧
    tierBounds .w64 = [0x80, 0x4000, 0x200000, 0x10000000,
      0x0800000000, 0x040000000000, 0x02000000000000, 0x0100000000000000] ∧
    ∀ w : Width,
      (∀ v k, tierOf w v = k ↔ (k < escTier w ∧ (∃ B, (tierBounds w)[k]? = some B ∧ v < B) ∨ k = escTier w) ∧
        ∀ j B, j < k → (tierBounds w)[j]? = some B → B ≤ v) ∧
      ∀ k B, (tierBounds w)[k]? = some B → tierOf w (B - 1) = k ∧ tierOf w B = k + 1

/-- R57: tag, mask, capacity and extra bytes of the tiers, and the escape tier's. -/
def Obligations.TierArithmetic : Prop :=
  (∀ w k, k < escTier w → tierTag k = BitVec.ofNat 8 (0xFF <<< (8 - k) &&& 0xFF) ∧
      tierMask k = BitVec.ofNat 8 (0xFF <<< (7 - k) &&& 0xFF) ∧ extraBytes w k = k ∧
      (tierBounds w)[k]? = some (2 ^ (7 * (k + 1)))) ∧
    escTier .w32 = 4 ∧ escTier .w64 = 8 ∧ escTag .w32 = 0xF0 ∧ escTag .w64 = 0xFF ∧
    extraBytes .w32 4 = 4 ∧ extraBytes .w64 8 = 8

/-- R60: the layout of a non-escape form, byte by byte and as one big-endian number. -/
def Obligations.NonEscapeLayout : Prop :=
  ∀ (w : Width) (k v : Nat), k < escTier w → v < 2 ^ (7 * (k + 1)) →
    formAt w k v = be (k + 1) ((tierTag k).toNat <<< (8 * k) ||| v) ∧
    (formAt w k v).length = k + 1 ∧
    (formAt w k v)[0]? = some (tierTag k ||| BitVec.ofNat 8 (v >>> (8 * k))) ∧
    (∀ i, 1 ≤ i → i ≤ k → (formAt w k v)[i]? = some (BitVec.ofNat 8 (v >>> (8 * (k - i))))) ∧
    (∀ b0, (formAt w k v)[0]? = some b0 → b0 &&& tierMask k = tierTag k)

/-- R61: the layout of an escape form at each width, and its bytes as fields of the value. -/
def Obligations.EscapeLayout : Prop :=
  (∀ v : Nat, v < 2 ^ 32 → formAt .w32 4 v = 0xF0 :: le 4 v ∧
    ∀ i, 1 ≤ i → i ≤ 4 → (formAt .w32 4 v)[i]? = some ((BitVec.ofNat 32 v).extractLsb' (8 * i - 8) 8)) ∧
  (∀ v : Nat, v < 2 ^ 64 → formAt .w64 8 v = 0xFF :: le 8 v ∧
    ∀ i, 1 ≤ i → i ≤ 8 → (formAt .w64 8 v)[i]? = some ((BitVec.ofNat 64 v).extractLsb' (8 * i - 8) 8))

/-- R58, R59, R80: a first byte has no tier exactly at W=32 for `0xF1` to `0xFF`. -/
def Obligations.FirstByteClassification : Prop :=
  ∀ (w : Width) (b0 : Byte),
    (classify w b0 = none ↔ w = .w32 ∧ 0xF1 ≤ b0.toNat) ∧
    (∀ k, k < escTier w → (classify w b0 = some k ↔ b0 &&& tierMask k = tierTag k)) ∧
    (classify w b0 = some (escTier w) ↔ b0 = escTag w)

/-- R91 (a): decoding an encoded value gives it back with its length, whatever follows. -/
def Obligations.RoundTrip : Prop :=
  ∀ (w : Width) (v : Nat) (t : List Byte), v < 2 ^ widthBits w →
    dec w (enc w v ++ t) = .ok v (enc w v).length

/-- R63: the canonical tier is the least non-escape tier whose bound exceeds the value, else the escape tier; by bit
length; and the canonical form, the form of that tier, is the unique form of minimal length. -/
def Obligations.CanonicalFormIsMinimal : Prop :=
  ∀ (w : Width) (v : Nat), v < 2 ^ widthBits w →
    tierOf w v ≤ escTier w ∧
    (∀ k B, (tierBounds w)[k]? = some B → (k < tierOf w v ↔ B ≤ v)) ∧
    tierOf w v = min (escTier w) ((Nat.size v + 6) / 7 - 1) ∧
    enc w v = formAt w (tierOf w v) v ∧
    ∀ (s : List Byte) (n : Nat), dec w s = .ok v n →
      (enc w v).length ≤ n ∧ (n = (enc w v).length → s.take n = enc w v)

/-- R79 (a) to (c): length grows with the value and steps at the bounds; `enc_W` is injective; no canonical form
is a proper beginning of another form of its width. -/
def Obligations.EncoderLaws : Prop :=
  ∀ (w : Width) (u v : Nat), u < 2 ^ widthBits w → v < 2 ^ widthBits w →
    (u ≤ v → (enc w u).length ≤ (enc w v).length) ∧
    ((enc w u).length < (enc w v).length ↔ ∃ B ∈ tierBounds w, u < B ∧ B ≤ v) ∧
    (enc w u = enc w v → u = v) ∧
    (∀ s, dec w s = .ok v s.length → enc w u <+: s → enc w u = s)

/-- R84, R62: every first byte with a tier, followed by that tier's extra bytes, is accepted, and its value fits
the width. -/
def Obligations.EveryWellFormedFormAccepted : Prop :=
  ∀ (w : Width) (b0 : Byte) (k : Nat) (xs t : List Byte), classify w b0 = some k → xs.length = extraBytes w k →
    ∃ v, v < 2 ^ widthBits w ∧ dec w (b0 :: xs ++ t) = .ok v (1 + xs.length) ∧
      (k < escTier w → v = ((b0 &&& ~~~ tierMask k).toNat <<< (8 * k)) +
        ((List.range k).map (fun i => (xs.getD i 0).toNat <<< (8 * (k - 1 - i)))).sum) ∧
      (k = escTier w → v = ((List.range xs.length).map (fun i => (xs.getD i 0).toNat <<< (8 * i))).sum)

/-- R65: below `2^28` the two widths agree; from there to `2^32` they agree exactly when the four bytes of the
value read the same in both orders. -/
def Obligations.CrossWidthForms : Prop :=
  ∀ v : Nat,
    (v < 2 ^ 28 → enc .w32 v = enc .w64 v) ∧
    (2 ^ 28 ≤ v → v < 2 ^ 32 → enc .w32 v = 0xF0 :: le 4 v ∧ enc .w64 v = 0xF0 :: be 4 v ∧
      (enc .w32 v = enc .w64 v ↔ byteAt 0 v = byteAt 3 v ∧ byteAt 1 v = byteAt 2 v))

/-- R9: the two reinterpretations, and that they are inverse to each other. -/
def Obligations.SignedReinterpretation : Prop :=
  ∀ w : Width,
    (∀ s : Int, -(2 ^ (widthBits w - 1)) ≤ s → s < 2 ^ (widthBits w - 1) →
      (0 ≤ s → (asUnsigned w s : Int) = s) ∧ (s < 0 → (asUnsigned w s : Int) = s + 2 ^ widthBits w) ∧
      asUnsigned w s < 2 ^ widthBits w ∧ asSigned w (asUnsigned w s) = s) ∧
    (∀ u : Nat, u < 2 ^ widthBits w →
      (u < 2 ^ (widthBits w - 1) → asSigned w u = u) ∧
      (2 ^ (widthBits w - 1) ≤ u → asSigned w u = (u : Int) - 2 ^ widthBits w) ∧
      -(2 ^ (widthBits w - 1)) ≤ asSigned w u ∧ asSigned w u < 2 ^ (widthBits w - 1) ∧
      asUnsigned w (asSigned w u) = u)

/-! ### Commands -/

/-- R73 (with R30, R75 to R78): an encode command of an idle instance whose `ARG` holds a value starts: the whole
canonical form of `ARG[W-1:0]` is in `SCRATCH`, no byte is transferred, and `ARG`, `RES` and `FAULT_INFO` are
unchanged. The signed and unsigned commands of a width differ in `OP.signed` alone. -/
def Obligations.EncodeCommandsStart : Prop :=
  ∀ (i : Instr) (w : Width) (sg : Bool), (i, w, sg) ∈ encodeCommands →
    ∀ (s : State) (a : Word64), s.cur.busy = false → s.conflicts s.cur = false → s.cur.block.arg = some a →
      ∃ t v F, exec i s = .next t ∧ OnlyBlock s t ∧ v = a.toNat % 2 ^ widthBits w ∧ F = enc w v ∧
        statusState t.cur.block.status = RunState.busy.code ∧
        statusErr t.cur.block.status = ErrCode.noError.code ∧ statusErrByte t.cur.block.status = 0 ∧
        statusReserved t.cur.block.status = statusReserved s.cur.block.status ∧
        t.cur.block.len = 0 ∧ t.cur.block.op = ⟨.enc, w, sg⟩ ∧ t.cur.block.phase = .emit ∧
        t.cur.block.tier = tierOf w v ∧ t.cur.block.nb = F.length ∧ t.cur.block.j = 0 ∧
        t.cur.block.scratch.toList = F ++ s.cur.block.scratch.toList.drop F.length ∧
        t.cur.block.arg = s.cur.block.arg ∧ t.cur.block.res = s.cur.block.res ∧
        t.cur.block.faultInfo = s.cur.block.faultInfo

/-- R30 (with R87 to R90): a decode command of an idle instance starts and waits for its first byte; nothing is
read. -/
def Obligations.DecodeCommandsStart : Prop :=
  ∀ (i : Instr) (w : Width) (sg : Bool), (i, w, sg) ∈ decodeCommands →
    ∀ s : State, s.cur.busy = false → s.conflicts s.cur = false →
      ∃ t, exec i s = .next t ∧ OnlyBlock s t ∧
        statusState t.cur.block.status = RunState.busy.code ∧
        statusErr t.cur.block.status = ErrCode.noError.code ∧ statusErrByte t.cur.block.status = 0 ∧
        statusReserved t.cur.block.status = statusReserved s.cur.block.status ∧
        t.cur.block.len = 0 ∧ t.cur.block.op = ⟨.dec, w, sg⟩ ∧ t.cur.block.phase = .tag ∧ t.cur.block.j = 0 ∧
        t.cur.block.tier = s.cur.block.tier ∧ t.cur.block.nb = s.cur.block.nb ∧
        t.cur.block.scratch = s.cur.block.scratch ∧ t.cur.block.arg = s.cur.block.arg ∧
        t.cur.block.res = s.cur.block.res ∧ t.cur.block.faultInfo = s.cur.block.faultInfo

/-- R97 (with R30, R52, R93): the bytes with `c[7:3] != 0` are the reserved ones, and a reserved command byte ends at
once in ERROR with `ILLEGAL_COMMAND`, `LEN = 0`, and touches nothing else. -/
def Obligations.ReservedCommandsEndInError : Prop :=
  (∀ c : Byte, decodeCmd c ∈ reservedRows c ↔ c.extractLsb' 3 5 ≠ 0) ∧
  ∀ (c : Byte) (i : Instr), i ∈ reservedRows c → ∀ s : State, s.cur.busy = false →
    ∃ t, exec i s = .next t ∧ OnlyBlock s t ∧
      statusState t.cur.block.status = RunState.error.code ∧
      statusErr t.cur.block.status = ErrCode.illegalCommand.code ∧ statusErrByte t.cur.block.status = 0 ∧
      statusReserved t.cur.block.status = statusReserved s.cur.block.status ∧
      t.cur.block.len = 0 ∧ t.cur.block.phase = .none ∧ t.cur.block.arg = s.cur.block.arg ∧
      t.cur.block.res = s.cur.block.res ∧ t.cur.block.faultInfo = s.cur.block.faultInfo ∧
      t.cur.block.scratch = s.cur.block.scratch ∧ t.cur.block.op = s.cur.block.op ∧
      t.cur.block.tier = s.cur.block.tier ∧ t.cur.block.nb = s.cur.block.nb ∧ t.cur.block.j = s.cur.block.j

/-- R29: a command byte written while BUSY is held, after the writes held already, and changes nothing else. -/
def Obligations.CommandsAreHeldWhileBusy : Prop :=
  ∀ (i : Instr) (s : State), i.format = .cmd8 → s.cur.busy = true →
    exec i s = .next (s.setCur { s.cur with held := s.cur.held ++ [⟨0, (encodeByte i).toNat⟩] })

/-- R16, R30, R98 (a): an encode started while `ARG` holds no value is the model fault UnwrittenArg. -/
def Obligations.EncodeWithoutArgFaults : Prop :=
  ∀ (i : Instr) (w : Width) (sg : Bool), (i, w, sg) ∈ encodeCommands →
    ∀ s : State, s.cur.busy = false → s.conflicts s.cur = false → s.cur.block.arg = none →
      exec i s = .fault .unwrittenArg

/-- R98 (d), R120: a launch that would leave one stream attached to two busy instances is refused. That a stream
at a port which neither command uses counts too is the model's choice (log 11), and so is that the check comes
before that of `ARG` (log 24). -/
def Obligations.SharedStreamLaunchRefused : Prop :=
  ∀ (i : Instr) (w : Width) (sg : Bool), (i, w, sg) ∈ encodeCommands ++ decodeCommands →
    ∀ (s : State) (o : Inst), s.cur.busy = false → o ∈ s.before ++ s.after → o.busy = true →
      (∃ id, s.cur.inPort = some id ∧ o.inPort = some id) ∨ (∃ id, s.cur.outPort = some id ∧ o.outPort = some id) →
      exec i s = .refused .sharedStream

/-- R85, R81: a tier 0 first byte ends the decode DONE with the byte's seven payload bits in `RES`. -/
def Obligations.TierZeroFinishes : Prop :=
  ∀ p : BitVec 7, TagFinishes (.tier0W32 p) .w32 p.toNat ∧ TagFinishes (.tier0W64 p) .w64 p.toNat

/-- R85 with the rows of R55: a first byte of tiers 1 to 4 at W=32 goes on to the body. -/
def Obligations.LongerTiers32GoOn : Prop :=
  (∀ p : BitVec 6, TagGoesOn (.tier1W32 p) .w32 1 2 (0b10#2 ++ p)) ∧
  (∀ p : BitVec 5, TagGoesOn (.tier2W32 p) .w32 2 3 (0b110#3 ++ p)) ∧
  (∀ p : BitVec 4, TagGoesOn (.tier3W32 p) .w32 3 4 (0b1110#4 ++ p)) ∧
  TagGoesOn .tier4Esc32 .w32 4 5 0xF0

/-- R85 with the rows of R56: a first byte of tiers 1 to 8 at W=64 goes on to the body. -/
def Obligations.LongerTiers64GoOn : Prop :=
  (∀ p : BitVec 6, TagGoesOn (.tier1W64 p) .w64 1 2 (0b10#2 ++ p)) ∧
  (∀ p : BitVec 5, TagGoesOn (.tier2W64 p) .w64 2 3 (0b110#3 ++ p)) ∧
  (∀ p : BitVec 4, TagGoesOn (.tier3W64 p) .w64 3 4 (0b1110#4 ++ p)) ∧
  (∀ p : BitVec 3, TagGoesOn (.tier4W64 p) .w64 4 5 (0b11110#5 ++ p)) ∧
  (∀ p : BitVec 2, TagGoesOn (.tier5W64 p) .w64 5 6 (0b111110#6 ++ p)) ∧
  (∀ p : BitVec 1, TagGoesOn (.tier6W64 p) .w64 6 7 (0b1111110#7 ++ p)) ∧
  TagGoesOn .tier7W64 .w64 7 8 0xFE ∧ TagGoesOn .tier8Esc64 .w64 8 9 0xFF

/-- R85, R94: an illegal first byte ends the decode in ERROR with `UNRECOGNIZED_TAG`, the byte in `ERR_BYTE` and
`LEN = 1`; `RES`, `ARG` and `FAULT_INFO` are unchanged. -/
def Obligations.IllegalTagsEndInError : Prop :=
  ∀ (b0 : Byte) (i : Instr), i ∈ illegalRows b0 → ∀ s : State, tagEnabled .w32 s = true →
    ∃ t, exec i s = .next t ∧ OnlyBlock s t ∧
      statusState t.cur.block.status = RunState.error.code ∧
      statusErr t.cur.block.status = ErrCode.unrecognizedTag.code ∧ statusErrByte t.cur.block.status = b0 ∧
      statusReserved t.cur.block.status = statusReserved s.cur.block.status ∧
      t.cur.block.len = 1 ∧ t.cur.block.phase = .none ∧ t.cur.block.res = s.cur.block.res ∧
      t.cur.block.arg = s.cur.block.arg ∧ t.cur.block.faultInfo = s.cur.block.faultInfo ∧
      t.cur.block.scratch.toList = b0 :: s.cur.block.scratch.toList.tail ∧ t.cur.block.j = 1 ∧
      t.cur.block.op = s.cur.block.op ∧ t.cur.block.tier = s.cur.block.tier ∧ t.cur.block.nb = s.cur.block.nb

/-- Log 15: outside a tag step of its width, a TAG32 or TAG64 row is refused; `step` never executes one there. -/
def Obligations.TagRowsOutsideTagStepRefused : Prop :=
  ∀ (i : Instr) (w : Width) (s : State), i.format = w.tagFormat → tagEnabled w s = false →
    exec i s = .refused .tagStepNotEnabled

/-! ### Micro-steps, errors, accesses -/

/-- R93: what `raise` writes and what it leaves. -/
def Obligations.RaiseWritesExactly : Prop :=
  ∀ (b : Block) (e : HwError),
    statusState (b.raise e).status = 3 ∧
    statusErr (b.raise e).status =
      (match e with | .unrecognizedTag _ => 1 | .inFault _ => 2 | .outFault _ => 3 | .illegalCommand => 4) ∧
    statusErrByte (b.raise e).status =
      (match e with | .unrecognizedTag x => x | _ => statusErrByte b.status) ∧
    (b.raise e).faultInfo =
      (match e with | .inFault x => some x | .outFault x => some x | _ => b.faultInfo) ∧
    (b.raise e).phase = .none ∧
    b.raise e = { b with status := (b.raise e).status, faultInfo := (b.raise e).faultInfo, phase := .none } ∧
    statusReserved (b.raise e).status = statusReserved b.status

/-- R74: the emit step with its two answers, at an instance with an output stream attached. -/
def Obligations.EmitStepEffect : Prop :=
  ∀ (s : State) (a : Answer) (id : Nat) (st : OutStream) (byte : Byte), s.cur.block.phase = .emit →
    s.attachedOut = some (id, st) → s.cur.block.scratch[s.cur.block.j]? = some byte →
    ∃ t, microStep a s = .next t ∧
      (a.fails = false →
        OnlyBlockAndOut s t id ⟨st.written ++ [byte]⟩ s.schedule ∧
        t.cur.block.j = s.cur.block.j + 1 ∧ t.cur.block.len = s.cur.block.len + 1 ∧
        (s.cur.block.j + 1 = s.cur.block.nb →
          t.cur.block = { s.cur.block with j := s.cur.block.j + 1, len := s.cur.block.len + 1 }.finish) ∧
        (s.cur.block.j + 1 ≠ s.cur.block.nb →
          t.cur.block = { s.cur.block with j := s.cur.block.j + 1, len := s.cur.block.len + 1 })) ∧
      (a.fails = true →
        t.cur.block = s.cur.block.raise (.outFault a.info) ∧
        (OnlyBlockAndOut s t id st s.schedule ∨ OnlyBlockAndOut s t id ⟨st.written ++ [byte]⟩ s.schedule))

/-- R86: the body step with its two answers, at an instance with an input stream attached. -/
def Obligations.BodyStepEffect : Prop :=
  ∀ (s : State) (a : Answer) (id : Nat) (st : InStream), s.cur.block.phase = .body →
    s.attachedIn = some (id, st) → s.cur.block.j < 9 →
    ∃ t, microStep a s = .next t ∧
      (∀ byte, a.fails = false → st.get st.pos = some byte →
        OnlyBlockAndIn s t id { st with pos := st.pos + 1 } s.schedule ∧
        t.cur.block.scratch = s.cur.block.scratch.setIfInBounds s.cur.block.j byte ∧
        t.cur.block.j = s.cur.block.j + 1 ∧ t.cur.block.len = s.cur.block.len + 1 ∧
        t.cur.block.arg = s.cur.block.arg ∧ t.cur.block.faultInfo = s.cur.block.faultInfo ∧
        t.cur.block.op = s.cur.block.op ∧ t.cur.block.tier = s.cur.block.tier ∧ t.cur.block.nb = s.cur.block.nb ∧
        (s.cur.block.j + 1 ≠ s.cur.block.nb → t.cur.block.res = s.cur.block.res ∧ t.cur.block.phase = .body ∧
          t.cur.block.status = s.cur.block.status) ∧
        (s.cur.block.j + 1 = s.cur.block.nb → t.cur.block.phase = .none ∧
          t.cur.block.status = withState .done s.cur.block.status ∧
          (s.cur.block.tier < escTier s.cur.block.op.width → t.cur.block.res = some (BitVec.ofNat 64
            (extractPayload s.cur.block.tier (t.cur.block.scratch.toList.take s.cur.block.nb)))) ∧
          (¬ s.cur.block.tier < escTier s.cur.block.op.width → t.cur.block.res = some (BitVec.ofNat 64
            (normalizeBytes (t.cur.block.scratch.toList.take s.cur.block.nb).tail))))) ∧
      (a.fails = true ∨ st.get st.pos = none →
        OnlyBlockAndIn s t id { st with pos := st.pos + a.advance } s.schedule ∧
        t.cur.block = s.cur.block.raise (.inFault a.info))

/-- R85, R95: a fault at the tag read ends the command with `IN_FAULT` and nothing stored or counted. -/
def Obligations.TagReadFaultEndsInError : Prop :=
  ∀ (s : State) (a : Answer) (id : Nat) (st : InStream), s.cur.block.phase = .tag →
    s.attachedIn = some (id, st) → a.fails = true ∨ st.get st.pos = none →
    ∃ t, microStep a s = .next t ∧ OnlyBlockAndIn s t id { st with pos := st.pos + a.advance } s.schedule ∧
      t.cur.block = s.cur.block.raise (.inFault a.info)

/-- While the port in use has no stream, no answer moves the block. This is the model's reading (log 13): R34 and
R122 speak of an attached stream, and an empty port is taken for one that never answers. -/
def Obligations.UnattachedPortNeverMoves : Prop :=
  ∀ (s : State) (a : Answer),
    (s.cur.block.phase = .emit ∧ s.attachedOut = none ∧ s.cur.block.j < 9) ∨
    (s.cur.block.phase = .tag ∧ s.attachedIn = none) ∨
    (s.cur.block.phase = .body ∧ s.attachedIn = none ∧ s.cur.block.j < 9) → microStep a s = .next s

/-- R27, R14, R15: what each host read returns; it is recorded, and no other state changes. -/
def Obligations.HostReadReturnsContent : Prop :=
  ∀ s : State,
    hostRead 0 s = .next { s with reads := s.reads ++ [⟨s.curNum, 0, .byte 0x00⟩] } ∧
    (∀ v, s.cur.block.arg = some v → hostRead 1 s = .next { s with reads := s.reads ++ [⟨s.curNum, 1, .word v⟩] }) ∧
    (∀ v, s.cur.block.res = some v → hostRead 2 s = .next { s with reads := s.reads ++ [⟨s.curNum, 2, .word v⟩] }) ∧
    hostRead 3 s = .next { s with reads := s.reads ++ [⟨s.curNum, 3, .byte s.cur.block.len⟩] } ∧
    hostRead 4 s = .next { s with reads := s.reads ++ [⟨s.curNum, 4, .half s.cur.block.status⟩] } ∧
    (∀ x, s.cur.block.faultInfo = some x →
      hostRead 5 s = .next { s with reads := s.reads ++ [⟨s.curNum, 5, .info x⟩] }) ∧
    (s.cur.block.arg = none → hostRead 1 s = .fault (.unwrittenRead 1)) ∧
    (s.cur.block.res = none → hostRead 2 s = .fault (.unwrittenRead 2)) ∧
    (s.cur.block.faultInfo = none → hostRead 5 s = .fault (.unwrittenRead 5))

/-- R28 (with R29, R30): what each host write does, and that one made while BUSY is held. -/
def Obligations.HostWriteEffect : Prop :=
  ∀ (s : State) (v : Nat),
    (v < 256 → hostWrite 0 v s = exec (decodeCmd (BitVec.ofNat 8 v)) s) ∧
    (s.cur.busy = false →
      hostWrite 1 v s = .next (s.setBlock { s.cur.block with arg := some (BitVec.ofNat 64 (v % 2 ^ 64)) }) ∧
      (∀ r : RegNum, 2 ≤ r.toNat → r.toNat ≤ 5 → hostWrite r v s = .next s) ∧
      (∀ r : RegNum, 6 ≤ r.toNat → hostWrite r v s = .refused (.reservedRegister r))) ∧
    (s.cur.busy = true → v < 256 → ∀ r : RegNum,
      hostWrite r v s = .next (s.setCur { s.cur with held := s.cur.held ++ [⟨r, v⟩] })) ∧
    (s.cur.busy = true → ∀ r : RegNum, r ≠ 0 →
      hostWrite r v s = .next (s.setCur { s.cur with held := s.cur.held ++ [⟨r, v⟩] }))

/-- R28, R98 (c): a read of a register number 6 to 15 is refused. -/
def Obligations.ReservedRegisterReadRefused : Prop :=
  ∀ (s : State) (r : RegNum), 6 ≤ r.toNat → hostRead r s = .refused (.reservedRegister r)

/-- R67: the pseudo-instructions and the immediates they reject. -/
def Obligations.PseudoInstructionsExpand : Prop :=
  (∀ v : Int, (0 ≤ v ∧ v < 2 ^ 32 →
      (Pseudo.encU32 v).expand = some [.access (.write 1 v.toNat), .access (.write 0 0x00), .wait]) ∧
    (¬ (0 ≤ v ∧ v < 2 ^ 32) → (Pseudo.encU32 v).expand = none) ∧
    (0 ≤ v ∧ v < 2 ^ 64 →
      (Pseudo.encU64 v).expand = some [.access (.write 1 v.toNat), .access (.write 0 0x02), .wait]) ∧
    (¬ (0 ≤ v ∧ v < 2 ^ 64) → (Pseudo.encU64 v).expand = none) ∧
    (-(2 ^ 31) ≤ v ∧ v < 2 ^ 31 →
      (Pseudo.encI32 v).expand = some [.access (.write 1 (asUnsigned .w32 v)), .access (.write 0 0x04), .wait]) ∧
    (¬ (-(2 ^ 31) ≤ v ∧ v < 2 ^ 31) → (Pseudo.encI32 v).expand = none) ∧
    (-(2 ^ 63) ≤ v ∧ v < 2 ^ 63 →
      (Pseudo.encI64 v).expand = some [.access (.write 1 (asUnsigned .w64 v)), .access (.write 0 0x06), .wait]) ∧
    (¬ (-(2 ^ 63) ≤ v ∧ v < 2 ^ 63) → (Pseudo.encI64 v).expand = none)) ∧
  Pseudo.decU32.expand = some [.access (.write 0 0x01), .wait] ∧
  Pseudo.decU64.expand = some [.access (.write 0 0x03), .wait] ∧
  Pseudo.decI32.expand = some [.access (.write 0 0x05), .wait] ∧
  Pseudo.decI64.expand = some [.access (.write 0 0x07), .wait]

/-! ### Steps -/

/-- R30: the step that a `CMD` write arrives in runs the instruction that its byte decodes to, with the named
instance acting and the turn, the line or the held write taken off its list, whichever brought it: another
master's access, a line of the host program, or a held write that completes (logs 7 and 8 for the last two). -/
def Obligations.StepRunsWrittenCommand : Prop :=
  ∀ (s s' : State) (n v : Nat) (i : Instr), v < 256 → decode .cmd8 [BitVec.ofNat 8 v] = .ok (i, []) →
    i.wf = true ∧
    (∀ rest, s.readyInst = none → s.schedule = .access n (.write 0 v) :: rest →
      focus n { s with schedule := rest } = some s' → step s = exec i s') ∧
    (∀ rest ls, s.readyInst = none → s.schedule = .host n :: rest → focus n { s with schedule := rest } = some s' →
      s'.cur.pending = 0 → s'.cur.program = .access (.write 0 v) :: ls →
      step s = exec i (s'.setCur
        { s'.cur with program := ls, pending := if s'.cur.busy then s'.cur.held.length + 1 else 0 })) ∧
    (∀ ws, s.readyInst = some n → focus n s = some s' → s'.cur.held = ⟨0, v⟩ :: ws →
      step s = exec i (s'.setCur { s'.cur with held := ws, pending := s'.cur.pending - 1 }))

/-- R66 with R27 and R28: a host turn runs the next line of the program, a `wr` or `rd` line as the host access it
stands for, with the line off the program. A write presented while BUSY takes the place behind the held ones; that
the program then waits until it has completed is the model's reading of R29 (log 7). -/
def Obligations.StepRunsHostLine : Prop :=
  ∀ (s s' : State) (n : Nat) (rest : List Turn), s.readyInst = none → s.schedule = .host n :: rest →
    focus n { s with schedule := rest } = some s' →
    (s'.cur.pending ≠ 0 ∨ s'.cur.program = [] → step s = .next s') ∧
    (s'.cur.pending = 0 →
      (∀ r ls, s'.cur.program = .access (.read r) :: ls →
        step s = hostRead r (s'.setCur { s'.cur with program := ls })) ∧
      (∀ r v ls, s'.cur.program = .access (.write r v) :: ls →
        step s = hostWrite r v (s'.setCur
          { s'.cur with program := ls, pending := if s'.cur.busy then s'.cur.held.length + 1 else 0 })) ∧
      (∀ l ls, l.isWrite = false → s'.cur.program = l :: ls →
        step s = runLine l (s'.setCur { s'.cur with program := ls })))

/-- R85: the step in which a tag read answers `ok` runs the instruction that the byte decodes to at the width of
`OP`, with the byte taken from the stream. -/
def Obligations.StepRunsTagByte : Prop :=
  ∀ (s s' : State) (n id : Nat) (a : Answer) (st : InStream) (b : Byte) (i : Instr) (rest : List Turn),
    s.readyInst = none → s.schedule = .answer n a :: rest → focus n { s with schedule := rest } = some s' →
    s'.cur.block.phase = .tag → s'.attachedIn = some (id, st) → a.fails = false → st.get st.pos = some b →
    decode s'.cur.block.op.width.tagFormat [b] = .ok (i, []) →
    i.wf = true ∧ step s = exec i { s' with inStreams := s'.inStreams.set id { st with pos := st.pos + 1 } }

/-- Log 17: the step after `withFetchWord` runs exactly the instruction of that table word. -/
def Obligations.StepRunsFetchWord : Prop :=
  ∀ (s : State) (w : Nat) (i : Instr), decodeTableWord 8 w = some i →
    ∃ s', step (s.withFetchWord 8 w) = exec i s' ∧ s'.cur.busy = false ∧ s'.schedule = s.schedule ∧
      s'.cur.block.res = s.cur.block.res ∧ s'.cur.block.faultInfo = s.cur.block.faultInfo

/-- R29 as the model reads it: a held write completes with the effect of R28 once its instance is not BUSY. That
this is the very next step, before any turn, and that the instance of lowest number goes first is the model's
inference (log 8); that the oldest write goes first is too (log 7). -/
def Obligations.HeldWriteCompletesFirst : Prop :=
  ∀ (s s' : State) (n : Nat) (w : HostWrite) (ws : List HostWrite), s.readyInst = some n → focus n s = some s' →
    s'.cur.held = w :: ws →
    s'.cur.busy = false ∧
      step s = hostWrite w.reg w.val (s'.setCur { s'.cur with held := ws, pending := s'.cur.pending - 1 })

/-- R110, R111: a reset turn puts the block of its instance at its reset values in any state and leaves the held
writes, the streams, the attachments and every other instance alone. That the attachments stay is the model's
reading (log 14); the values of `SCRATCH`, `OP`, `TIER`, `NB` and `J` are its choice (log 3) and are not stated. -/
def Obligations.ResetTurnEffect : Prop :=
  ∀ (s s' : State) (n : Nat) (rest : List Turn), s.readyInst = none → s.schedule = .reset n :: rest →
    focus n { s with schedule := rest } = some s' →
    ∃ t, step s = .next t ∧ OnlyBlock s' t ∧ t.cur.block.status = 0x0000 ∧ t.cur.block.len = 0x00 ∧
      t.cur.block.phase = .none ∧ t.cur.block.arg = none ∧ t.cur.block.res = none ∧
      t.cur.block.faultInfo = none

/-- The model's choice (log 5): with no held write that can complete and no turn to come, nothing changes, BUSY or
not. It stands for the idle block of R109 and for the stream that never answers of R122. -/
def Obligations.NothingMovesWithoutTurns : Prop :=
  ∀ s : State, s.readyInst = none → s.schedule = [] → step s = .next s

/-- R66: `wait` reads `STATUS` once a turn, and stays the next line exactly while BUSY. -/
def Obligations.WaitPollsStatus : Prop :=
  ∀ (s : State) (rest : List Line), s.cur.pending = 0 → s.cur.program = .wait :: rest →
    ∃ t, hostTurn s = .next t ∧
      t.reads = s.reads ++ [⟨s.curNum, 4, .half s.cur.block.status⟩] ∧
      t.cur = { s.cur with program := if s.cur.busy then .wait :: rest else rest } ∧
      t.before = s.before ∧ t.after = s.after ∧ t.inStreams = s.inStreams ∧ t.outStreams = s.outStreams ∧
      t.schedule = s.schedule

/-- R66, R34: `attach` of a new stream to an idle instance: the stream is there with its bytes, and nothing else
changes. -/
def Obligations.AttachNewStream : Prop :=
  ∀ (s : State) (data : List Byte), s.cur.busy = false → s.cur.block.phase = .none →
    (∃ t, runLine (.attachIn data) s = .next t ∧ t.attachedIn = some (s.inStreams.length, ⟨data, none, 0⟩) ∧
      (∀ k, (InStream.mk data none 0).get k = data[k]?) ∧
      t.inStreams = s.inStreams ++ [⟨data, none, 0⟩] ∧ t.outStreams = s.outStreams ∧
      t.cur = { s.cur with inPort := some s.inStreams.length } ∧ t.before = s.before ∧ t.after = s.after ∧
      t.reads = s.reads ∧ t.schedule = s.schedule) ∧
    (∃ t, runLine .attachOut s = .next t ∧ t.attachedOut = some (s.outStreams.length, ⟨[]⟩) ∧
      t.outStreams = s.outStreams ++ [⟨[]⟩] ∧ t.inStreams = s.inStreams ∧
      t.cur = { s.cur with outPort := some s.outStreams.length } ∧ t.before = s.before ∧ t.after = s.after ∧
      t.reads = s.reads ∧ t.schedule = s.schedule)

/-! ### The whole machine -/

/-- R14, R19, R23, R110: the reset state is sound. -/
def Obligations.ResetIsSound : Prop := State.reset.Sound

/-- R110: what reset leaves in every block, of the values the spec gives. -/
def Obligations.ResetValues : Prop :=
  State.reset.instances ≠ [] ∧ ∀ i ∈ State.reset.instances,
    i.block.status = 0x0000 ∧ i.block.len = 0x00 ∧ i.block.phase = .none ∧ i.block.arg = none ∧
      i.block.res = none ∧ i.block.faultInfo = none

/-- R18, R19, R20, R22, R23, R29, R46: every step of a sound machine leaves a sound machine. -/
def Obligations.StepKeepsSound : Prop := ∀ s t : State, s.Sound → step s = .next t → t.Sound

/-- R20: no step of a sound machine reads or writes a byte of `SCRATCH` beyond index 8. -/
def Obligations.SoundNeverLeavesScratch : Prop := ∀ s : State, s.Sound → step s ≠ .fault .scratchIndex

/-- R20, R23: what the reset leaves unspecified, and what a command has not written, cannot be observed: two sound
machines that differ at most there give results that differ at most there. -/
def Obligations.HiddenValuesUnobservable : Prop :=
  ∀ s t : State, s.Sound → t.Sound → s.Alike t → resultsAlike (step s) (step t)

/-- R31: a step changes no instance but the one whose turn it is, and keeps the number of instances. -/
def Obligations.StepTouchesOnlyItsInstance : Prop :=
  ∀ s t : State, step s = .next t → t.instances.length = s.instances.length ∧
    ∀ m, actor s ≠ some m → t.instances[m]? = s.instances[m]?

/-- R22: the transitions of `STATUS.STATE`, each with what the step delivered to the instance. The model's own in
it: `Block.reset` fixes `SCRATCH`, `OP`, `TIER`, `NB` and `J`, which R110 leaves unspecified (log 3); a `CMD` write
above `0xFF` counts by its low eight bits (log 9); how a write arrives is its reading (logs 7 and 8). -/
def Obligations.StateTransitions : Prop :=
  ∀ (s t : State) (n : Nat) (i i' : Inst), s.Sound → step s = .next t → s.instances[n]? = some i →
    t.instances[n]? = some i' → statusState i'.block.status ≠ statusState i.block.status →
    (statusState i'.block.status = RunState.busy.code ∧ i.busy = false ∧
      ∃ v, s.delivers n (.write 0 v) ∧ (BitVec.ofNat 8 v).extractLsb' 3 5 = 0 ∧
        i'.block.op = opOfCmd (BitVec.ofNat 8 v)) ∨
    (statusState i'.block.status = RunState.error.code ∧ i.busy = false ∧
      statusErr i'.block.status = ErrCode.illegalCommand.code ∧
      ∃ v, s.delivers n (.write 0 v) ∧ (BitVec.ofNat 8 v).extractLsb' 3 5 ≠ 0) ∨
    (i.busy = true ∧ statusState i'.block.status = RunState.done.code ∧ statusErr i'.block.status = 0 ∧
      i'.block.phase = .none ∧ ∃ a, s.delivers n (.answer a) ∧ a.fails = false) ∨
    (i.busy = true ∧ statusState i'.block.status = RunState.error.code ∧ i'.block.phase = .none ∧
      ∃ a, s.delivers n (.answer a)) ∨
    (statusState i'.block.status = RunState.idle.code ∧ i'.block = Block.reset ∧ s.delivers n .reset)

/-- R17: `RES` is written only by a decode that ends DONE, else only by reset. In the reset case the values of
`SCRATCH`, `OP`, `TIER`, `NB` and `J` in `Block.reset` are the model's choice (log 3), not R17's or R110's. -/
def Obligations.ResWrittenOnlyByDecodeDone : Prop :=
  ∀ (s t : State) (n : Nat) (i i' : Inst), step s = .next t → s.instances[n]? = some i →
    t.instances[n]? = some i' → i'.block.res ≠ i.block.res →
    (i'.block = Block.reset ∧ s.delivers n .reset) ∨
      ((i.block.phase = .tag ∨ i.block.phase = .body) ∧ i'.block.res.isSome = true ∧ i'.block.phase = .none ∧
        statusState i'.block.status = RunState.done.code ∧ ∃ a, s.delivers n (.answer a) ∧ a.fails = false)

/-- R21: `FAULT_INFO` is written only by a stream fault that ends the command, else only by reset. In the reset
case the values of `SCRATCH`, `OP`, `TIER`, `NB` and `J` in `Block.reset` are the model's choice (log 3), not R21's
or R110's. -/
def Obligations.FaultInfoWrittenOnlyByStreamFault : Prop :=
  ∀ (s t : State) (n : Nat) (i i' : Inst), step s = .next t → s.instances[n]? = some i →
    t.instances[n]? = some i' → i'.block.faultInfo ≠ i.block.faultInfo →
    (i'.block = Block.reset ∧ s.delivers n .reset) ∨
      (i.block.phase ≠ .none ∧ statusState i'.block.status = RunState.error.code ∧
        (statusErr i'.block.status = ErrCode.inFault.code ∨ statusErr i'.block.status = ErrCode.outFault.code) ∧
        ∃ a, s.delivers n (.answer a) ∧ i'.block.faultInfo = some a.info)

/-- R16, R29, R121: `ARG` changes only by a host write of `ARG` that completes while the instance is not BUSY, to
the value written, or by reset. In the reset case the values of `SCRATCH`, `OP`, `TIER`, `NB` and `J` in
`Block.reset` are the model's choice (log 3), not R16's or R110's; how a write arrives is its reading (logs 7 and
8). -/
def Obligations.ArgWrittenOnlyByHost : Prop :=
  ∀ (s t : State) (n : Nat) (i i' : Inst), step s = .next t → s.instances[n]? = some i →
    t.instances[n]? = some i' → i'.block.arg ≠ i.block.arg →
    (i'.block = Block.reset ∧ s.delivers n .reset) ∨
      (i.busy = false ∧ ∃ v, s.delivers n (.write 1 v) ∧
        i'.block = { i.block with arg := some (BitVec.ofNat 64 v) })

/-- R18: `LEN` changes only by one more transfer of a BUSY instance, or to 0 at a command start or reset.
In the reset case the values of `SCRATCH`, `OP`, `TIER`, `NB` and `J` in `Block.reset` are the model's choice
(log 3), not R18's or R110's; how a write arrives is its reading (logs 7 and 8), also for a `CMD` write above `0xFF`
(log 9). -/
def Obligations.LenCountsTransfers : Prop :=
  ∀ (s t : State) (n : Nat) (i i' : Inst), s.Sound → step s = .next t → s.instances[n]? = some i →
    t.instances[n]? = some i' → i'.block.len ≠ i.block.len →
    (i.busy = true ∧ i'.block.len.toNat = i.block.len.toNat + 1 ∧ i'.block.len.toNat ≤ 9 ∧
      ∃ a, s.delivers n (.answer a) ∧ a.fails = false) ∨
    (i'.block.len = 0 ∧ i.busy = false ∧ (∃ v, s.delivers n (.write 0 v)) ∧
      (i'.busy = true ∨ (statusState i'.block.status = RunState.error.code ∧
        statusErr i'.block.status = ErrCode.illegalCommand.code))) ∨
    (i'.block.len = 0 ∧ i'.block = Block.reset ∧ s.delivers n .reset)

/-- R124: a run that has ended on the instances it used stays ended, whatever other instances do, until a write of
a legal command byte completes at one of those it used. When a line is completed and how a write arrives are the
model's readings (logs 7 and 8); that a program on several instances is one list of lines at each is its choice
(log 28); a `CMD` write above `0xFF` counts by its low eight bits (log 9). -/
def Obligations.EndedRunStaysEnded : Prop :=
  ∀ (s t : State) (used : List Nat), s.runEnded used = true → step s = .next t →
    (∀ n ∈ used, ∀ v, (BitVec.ofNat 8 v).extractLsb' 3 5 = 0 → ¬ s.delivers n (.write 0 v)) → t.runEnded used = true

/-- R22, R123: a BUSY instance whose port in use has a stream that answers leaves BUSY within nine answers. -/
def Obligations.BusyEndsWithinNineAnswers : Prop :=
  ∀ (s : State) (as : List Answer) (rest : List Turn), s.Sound → s.cur.busy = true → s.readyInst = none →
    (s.cur.block.phase = .emit → s.attachedOut.isSome = true) →
    (s.cur.block.phase ≠ .emit → s.attachedIn.isSome = true) →
    s.schedule = answerTurns s.curNum as ++ rest → as.length = 9 →
    ∃ k t, k ≤ 9 ∧ core.run k s = .next t ∧ t.cur.busy = false ∧ t.curNum = s.curNum

/-- R74, R75 to R78, R44: an encode command whose writes all answer `ok` appends exactly the canonical form of
`ARG[W-1:0]` to its output stream, byte by byte, and ends DONE with its length in `LEN`. -/
def Obligations.EncodeRunWritesCanonicalForm : Prop :=
  ∀ (i : Instr) (w : Width) (sg : Bool), (i, w, sg) ∈ encodeCommands →
    ∀ (s : State) (arg : Word64) (id : Nat) (st : OutStream) (as : List Answer) (rest : List Turn) (F : List Byte),
      s.readyInst = none → s.cur.busy = false → s.conflicts s.cur = false → s.cur.block.arg = some arg →
      s.attachedOut = some (id, st) → F = enc w (arg.toNat % 2 ^ widthBits w) → AllOk as → as.length = F.length →
      s.schedule = .access s.curNum (.write 0 (encodeByte i).toNat) :: answerTurns s.curNum as ++ rest →
      ∃ t, core.run (1 + F.length) s = .next t ∧ OnlyBlockAndOut s t id ⟨st.written ++ F⟩ rest ∧
        statusState t.cur.block.status = RunState.done.code ∧
        statusErr t.cur.block.status = ErrCode.noError.code ∧ statusErrByte t.cur.block.status = 0 ∧
        t.cur.block.len.toNat = F.length ∧ t.cur.block.phase = .none ∧ t.cur.block.arg = s.cur.block.arg ∧
        t.cur.block.res = s.cur.block.res ∧ t.cur.block.faultInfo = s.cur.block.faultInfo

/-- R74, R96, R100, R36: an encode command whose write of byte `j` faults ends in ERROR with `OUT_FAULT`, the
stream's report in `FAULT_INFO` and `LEN = j`; the stream holds the first `j` bytes of the form, and byte `j` where
the answer says it landed. -/
def Obligations.EncodeRunFaultLeavesBeginning : Prop :=
  ∀ (i : Instr) (w : Width) (sg : Bool), (i, w, sg) ∈ encodeCommands →
    ∀ (s : State) (arg : Word64) (id : Nat) (st : OutStream) (as : List Answer) (bad : Answer) (rest : List Turn)
      (F : List Byte) (byte : Byte),
      s.readyInst = none → s.cur.busy = false → s.conflicts s.cur = false → s.cur.block.arg = some arg →
      s.attachedOut = some (id, st) → F = enc w (arg.toNat % 2 ^ widthBits w) → AllOk as → bad.fails = true →
      F[as.length]? = some byte →
      s.schedule = .access s.curNum (.write 0 (encodeByte i).toNat) :: answerTurns s.curNum (as ++ [bad]) ++ rest →
      ∃ t, core.run (2 + as.length) s = .next t ∧
        OnlyBlockAndOut s t id ⟨st.written ++ F.take as.length ++ if bad.landed then [byte] else []⟩ rest ∧
        statusState t.cur.block.status = RunState.error.code ∧
        statusErr t.cur.block.status = ErrCode.outFault.code ∧ statusErrByte t.cur.block.status = 0 ∧
        t.cur.block.len.toNat = as.length ∧ t.cur.block.phase = .none ∧
        t.cur.block.faultInfo = some bad.info ∧ t.cur.block.arg = s.cur.block.arg ∧
        t.cur.block.res = s.cur.block.res

/-- R91 (b), R87 to R90, R95, R99: a decode command whose stream supplies the bytes `bs` and then faults or ends
does what `dec_W(bs)` says. -/
def Obligations.DecodeRunAgreesWithFunction : Prop :=
  ∀ (i : Instr) (w : Width) (sg : Bool), (i, w, sg) ∈ decodeCommands →
    ∀ (s : State) (id : Nat) (st : InStream) (as : List Answer) (last : Answer) (rest : List Turn) (bs : List Byte),
      s.readyInst = none → s.cur.busy = false → s.conflicts s.cur = false → s.attachedIn = some (id, st) →
      AllOk as → bs.length = as.length → (∀ k, k < as.length → st.get (st.pos + k) = bs[k]?) →
      last.fails = true ∨ st.get (st.pos + as.length) = none →
      s.schedule = .access s.curNum (.write 0 (encodeByte i).toNat) :: answerTurns s.curNum (as ++ [last]) ++ rest →
      (∀ v n, dec w bs = .ok v n → ∃ t, core.run (1 + n) s = .next t ∧
        OnlyBlockAndIn s t id { st with pos := st.pos + n } (answerTurns s.curNum ((as ++ [last]).drop n) ++ rest) ∧
        statusState t.cur.block.status = RunState.done.code ∧
        statusErr t.cur.block.status = ErrCode.noError.code ∧ statusErrByte t.cur.block.status = 0 ∧
        t.cur.block.res = some (BitVec.ofNat 64 v) ∧ v < 2 ^ widthBits w ∧ t.cur.block.len.toNat = n ∧
        t.cur.block.phase = .none ∧ t.cur.block.arg = s.cur.block.arg ∧
        t.cur.block.faultInfo = s.cur.block.faultInfo) ∧
      (∀ b0, dec w bs = .unrecognized b0 → ∃ t, core.run 2 s = .next t ∧
        OnlyBlockAndIn s t id { st with pos := st.pos + 1 } (answerTurns s.curNum ((as ++ [last]).drop 1) ++ rest) ∧
        statusState t.cur.block.status = RunState.error.code ∧
        statusErr t.cur.block.status = ErrCode.unrecognizedTag.code ∧ statusErrByte t.cur.block.status = b0 ∧
        t.cur.block.len.toNat = 1 ∧ t.cur.block.phase = .none ∧ t.cur.block.res = s.cur.block.res ∧
        t.cur.block.arg = s.cur.block.arg ∧ t.cur.block.faultInfo = s.cur.block.faultInfo) ∧
      (∀ m, dec w bs = .short m → ∃ t, core.run (2 + m) s = .next t ∧
        OnlyBlockAndIn s t id { st with pos := st.pos + m + last.advance } rest ∧
        statusState t.cur.block.status = RunState.error.code ∧
        statusErr t.cur.block.status = ErrCode.inFault.code ∧ statusErrByte t.cur.block.status = 0 ∧
        t.cur.block.len.toNat = m ∧ m = as.length ∧ t.cur.block.phase = .none ∧
        t.cur.block.faultInfo = some last.info ∧ t.cur.block.res = s.cur.block.res ∧
        t.cur.block.arg = s.cur.block.arg)
end

