-- ==== Sys2Proof/Laws/State.lean ====
section
/-! SUPPORT. One lemma per field and update of the state, true by rfl, so that no proof unfolds a record update. -/

namespace Sys2Proof.Machine

open Sys2Proof

@[simp] theorem setCur_before (s : State) (i : Inst) : (s.setCur i).before = s.before := rfl
@[simp] theorem setCur_cur (s : State) (i : Inst) : (s.setCur i).cur = i := rfl
@[simp] theorem setCur_after (s : State) (i : Inst) : (s.setCur i).after = s.after := rfl
@[simp] theorem setCur_inStreams (s : State) (i : Inst) : (s.setCur i).inStreams = s.inStreams := rfl
@[simp] theorem setCur_outStreams (s : State) (i : Inst) : (s.setCur i).outStreams = s.outStreams := rfl
@[simp] theorem setCur_reads (s : State) (i : Inst) : (s.setCur i).reads = s.reads := rfl
@[simp] theorem setCur_schedule (s : State) (i : Inst) : (s.setCur i).schedule = s.schedule := rfl

@[simp] theorem setBlock_before (s : State) (b : Block) : (s.setBlock b).before = s.before := rfl
@[simp] theorem setBlock_after (s : State) (b : Block) : (s.setBlock b).after = s.after := rfl
@[simp] theorem setBlock_inStreams (s : State) (b : Block) : (s.setBlock b).inStreams = s.inStreams := rfl
@[simp] theorem setBlock_outStreams (s : State) (b : Block) : (s.setBlock b).outStreams = s.outStreams := rfl
@[simp] theorem setBlock_reads (s : State) (b : Block) : (s.setBlock b).reads = s.reads := rfl
@[simp] theorem setBlock_schedule (s : State) (b : Block) : (s.setBlock b).schedule = s.schedule := rfl
@[simp] theorem setBlock_cur_block (s : State) (b : Block) : (s.setBlock b).cur.block = b := rfl
@[simp] theorem setBlock_cur_held (s : State) (b : Block) : (s.setBlock b).cur.held = s.cur.held := rfl
@[simp] theorem setBlock_cur_inPort (s : State) (b : Block) : (s.setBlock b).cur.inPort = s.cur.inPort := rfl
@[simp] theorem setBlock_cur_outPort (s : State) (b : Block) : (s.setBlock b).cur.outPort = s.cur.outPort := rfl
@[simp] theorem setBlock_cur_program (s : State) (b : Block) : (s.setBlock b).cur.program = s.cur.program := rfl
@[simp] theorem setBlock_cur_pending (s : State) (b : Block) : (s.setBlock b).cur.pending = s.cur.pending := rfl

@[simp] theorem hold_before (s : State) (w : HostWrite) : (s.hold w).before = s.before := rfl
@[simp] theorem hold_after (s : State) (w : HostWrite) : (s.hold w).after = s.after := rfl
@[simp] theorem hold_inStreams (s : State) (w : HostWrite) : (s.hold w).inStreams = s.inStreams := rfl
@[simp] theorem hold_outStreams (s : State) (w : HostWrite) : (s.hold w).outStreams = s.outStreams := rfl
@[simp] theorem hold_reads (s : State) (w : HostWrite) : (s.hold w).reads = s.reads := rfl
@[simp] theorem hold_schedule (s : State) (w : HostWrite) : (s.hold w).schedule = s.schedule := rfl
@[simp] theorem hold_cur_block (s : State) (w : HostWrite) : (s.hold w).cur.block = s.cur.block := rfl
@[simp] theorem hold_cur_held (s : State) (w : HostWrite) : (s.hold w).cur.held = s.cur.held ++ [w] := rfl
@[simp] theorem hold_cur_inPort (s : State) (w : HostWrite) : (s.hold w).cur.inPort = s.cur.inPort := rfl
@[simp] theorem hold_cur_outPort (s : State) (w : HostWrite) : (s.hold w).cur.outPort = s.cur.outPort := rfl
@[simp] theorem hold_cur_program (s : State) (w : HostWrite) : (s.hold w).cur.program = s.cur.program := rfl
@[simp] theorem hold_cur_pending (s : State) (w : HostWrite) : (s.hold w).cur.pending = s.cur.pending := rfl

@[simp] theorem record_before (s : State) (r : RegNum) (v : RegValue) : (s.record r v).before = s.before := rfl
@[simp] theorem record_cur (s : State) (r : RegNum) (v : RegValue) : (s.record r v).cur = s.cur := rfl
@[simp] theorem record_after (s : State) (r : RegNum) (v : RegValue) : (s.record r v).after = s.after := rfl
@[simp] theorem record_inStreams (s : State) (r : RegNum) (v : RegValue) : (s.record r v).inStreams = s.inStreams := rfl
@[simp] theorem record_outStreams (s : State) (r : RegNum) (v : RegValue) : (s.record r v).outStreams = s.outStreams := rfl
@[simp] theorem record_reads (s : State) (r : RegNum) (v : RegValue) : (s.record r v).reads = s.reads ++ [⟨s.curNum, r, v⟩] := rfl
@[simp] theorem record_schedule (s : State) (r : RegNum) (v : RegValue) : (s.record r v).schedule = s.schedule := rfl

@[simp] theorem present_block (i : Inst) (l : Line) (ls : List Line) : (i.present l ls).block = i.block := rfl
@[simp] theorem present_held (i : Inst) (l : Line) (ls : List Line) : (i.present l ls).held = i.held := rfl
@[simp] theorem present_inPort (i : Inst) (l : Line) (ls : List Line) : (i.present l ls).inPort = i.inPort := rfl
@[simp] theorem present_outPort (i : Inst) (l : Line) (ls : List Line) : (i.present l ls).outPort = i.outPort := rfl
@[simp] theorem present_program (i : Inst) (l : Line) (ls : List Line) : (i.present l ls).program = ls := rfl

@[simp] theorem moved_data (st : InStream) (n : Nat) : (st.moved n).data = st.data := rfl
@[simp] theorem moved_endless (st : InStream) (n : Nat) : (st.moved n).endless = st.endless := rfl
@[simp] theorem moved_pos (st : InStream) (n : Nat) : (st.moved n).pos = st.pos + n := rfl
@[simp] theorem moved_get (st : InStream) (n i : Nat) : (st.moved n).get i = st.get i := rfl

/-- A finite stream holds its data (R34). -/
@[simp] theorem get_finite (data : List Byte) (p i : Nat) : (InStream.mk data none p).get i = data[i]? := by
  simp only [InStream.get]
  cases data[i]? <;> rfl

/-- An endless stream goes on behind its data (R34). -/
theorem get_endless (data : List Byte) (l p i : Nat) (h : data.length ≤ i) :
    (InStream.mk data (some l) p).get i = some (Config.endlessByte l i) := by
  simp [InStream.get, List.getElem?_eq_none h]

/-- A stream has a byte at `i` unless it is finite and over (R34). -/
theorem get_eq_none {st : InStream} {i : Nat} : st.get i = none ↔ st.endless = none ∧ st.data.length ≤ i := by
  rcases st with ⟨data, _ | l, p⟩
  · simp
  · simp only [InStream.get]
    cases data[i]? <;> simp

@[simp] theorem finish_arg (b : Block) : b.finish.arg = b.arg := rfl
@[simp] theorem finish_res (b : Block) : b.finish.res = b.res := rfl
@[simp] theorem finish_len (b : Block) : b.finish.len = b.len := rfl
@[simp] theorem finish_status (b : Block) : b.finish.status = withState .done b.status := rfl
@[simp] theorem finish_faultInfo (b : Block) : b.finish.faultInfo = b.faultInfo := rfl
@[simp] theorem finish_scratch (b : Block) : b.finish.scratch = b.scratch := rfl
@[simp] theorem finish_phase (b : Block) : b.finish.phase = .none := rfl
@[simp] theorem finish_op (b : Block) : b.finish.op = b.op := rfl
@[simp] theorem finish_tier (b : Block) : b.finish.tier = b.tier := rfl
@[simp] theorem finish_nb (b : Block) : b.finish.nb = b.nb := rfl
@[simp] theorem finish_j (b : Block) : b.finish.j = b.j := rfl

@[simp] theorem raise_arg (b : Block) (e : HwError) : (b.raise e).arg = b.arg := rfl
@[simp] theorem raise_res (b : Block) (e : HwError) : (b.raise e).res = b.res := rfl
@[simp] theorem raise_len (b : Block) (e : HwError) : (b.raise e).len = b.len := rfl
@[simp] theorem raise_status (b : Block) (e : HwError) : (b.raise e).status = e.recordByte (withErr e.errCode (withState .error b.status)) := rfl
@[simp] theorem raise_faultInfo (b : Block) (e : HwError) : (b.raise e).faultInfo = e.recordInfo b.faultInfo := rfl
@[simp] theorem raise_scratch (b : Block) (e : HwError) : (b.raise e).scratch = b.scratch := rfl
@[simp] theorem raise_phase (b : Block) (e : HwError) : (b.raise e).phase = .none := rfl
@[simp] theorem raise_op (b : Block) (e : HwError) : (b.raise e).op = b.op := rfl
@[simp] theorem raise_tier (b : Block) (e : HwError) : (b.raise e).tier = b.tier := rfl
@[simp] theorem raise_nb (b : Block) (e : HwError) : (b.raise e).nb = b.nb := rfl
@[simp] theorem raise_j (b : Block) (e : HwError) : (b.raise e).j = b.j := rfl

@[simp] theorem clearResult_arg (b : Block) : b.clearResult.arg = b.arg := rfl
@[simp] theorem clearResult_res (b : Block) : b.clearResult.res = b.res := rfl
@[simp] theorem clearResult_len (b : Block) : b.clearResult.len = 0x00 := rfl
@[simp] theorem clearResult_status (b : Block) : b.clearResult.status = withErrByte 0x00 (withErr .noError b.status) := rfl
@[simp] theorem clearResult_faultInfo (b : Block) : b.clearResult.faultInfo = b.faultInfo := rfl
@[simp] theorem clearResult_scratch (b : Block) : b.clearResult.scratch = b.scratch := rfl
@[simp] theorem clearResult_phase (b : Block) : b.clearResult.phase = b.phase := rfl
@[simp] theorem clearResult_op (b : Block) : b.clearResult.op = b.op := rfl
@[simp] theorem clearResult_tier (b : Block) : b.clearResult.tier = b.tier := rfl
@[simp] theorem clearResult_nb (b : Block) : b.clearResult.nb = b.nb := rfl
@[simp] theorem clearResult_j (b : Block) : b.clearResult.j = b.j := rfl

@[simp] theorem latch_arg (b : Block) (op : Op) : (b.latch op).arg = b.arg := rfl
@[simp] theorem latch_res (b : Block) (op : Op) : (b.latch op).res = b.res := rfl
@[simp] theorem latch_len (b : Block) (op : Op) : (b.latch op).len = 0x00 := rfl
@[simp] theorem latch_status (b : Block) (op : Op) : (b.latch op).status = withState .busy (withErrByte 0x00 (withErr .noError b.status)) := rfl
@[simp] theorem latch_faultInfo (b : Block) (op : Op) : (b.latch op).faultInfo = b.faultInfo := rfl
@[simp] theorem latch_scratch (b : Block) (op : Op) : (b.latch op).scratch = b.scratch := rfl
@[simp] theorem latch_phase (b : Block) (op : Op) : (b.latch op).phase = b.phase := rfl
@[simp] theorem latch_op (b : Block) (op : Op) : (b.latch op).op = op := rfl
@[simp] theorem latch_tier (b : Block) (op : Op) : (b.latch op).tier = b.tier := rfl
@[simp] theorem latch_nb (b : Block) (op : Op) : (b.latch op).nb = b.nb := rfl
@[simp] theorem latch_j (b : Block) (op : Op) : (b.latch op).j = 0 := rfl

@[simp] theorem encoderStart_arg (b : Block) (w : Width) (a : Word64) : (b.encoderStart w a).arg = b.arg := rfl
@[simp] theorem encoderStart_res (b : Block) (w : Width) (a : Word64) : (b.encoderStart w a).res = b.res := rfl
@[simp] theorem encoderStart_len (b : Block) (w : Width) (a : Word64) : (b.encoderStart w a).len = b.len := rfl
@[simp] theorem encoderStart_status (b : Block) (w : Width) (a : Word64) : (b.encoderStart w a).status = b.status := rfl
@[simp] theorem encoderStart_faultInfo (b : Block) (w : Width) (a : Word64) : (b.encoderStart w a).faultInfo = b.faultInfo := rfl
@[simp] theorem encoderStart_scratch (b : Block) (w : Width) (a : Word64) : (b.encoderStart w a).scratch = fillScratch b.scratch 0 (enc w (argValue w a)) := rfl
@[simp] theorem encoderStart_phase (b : Block) (w : Width) (a : Word64) : (b.encoderStart w a).phase = .emit := rfl
@[simp] theorem encoderStart_op (b : Block) (w : Width) (a : Word64) : (b.encoderStart w a).op = b.op := rfl
@[simp] theorem encoderStart_tier (b : Block) (w : Width) (a : Word64) : (b.encoderStart w a).tier = tierOf w (argValue w a) := rfl
@[simp] theorem encoderStart_nb (b : Block) (w : Width) (a : Word64) : (b.encoderStart w a).nb = (enc w (argValue w a)).length := rfl
@[simp] theorem encoderStart_j (b : Block) (w : Width) (a : Word64) : (b.encoderStart w a).j = 0 := rfl

@[simp] theorem takeTag_arg (b : Block) (b0 : Byte) : (b.takeTag b0).arg = b.arg := rfl
@[simp] theorem takeTag_res (b : Block) (b0 : Byte) : (b.takeTag b0).res = b.res := rfl
@[simp] theorem takeTag_len (b : Block) (b0 : Byte) : (b.takeTag b0).len = 0x01 := rfl
@[simp] theorem takeTag_status (b : Block) (b0 : Byte) : (b.takeTag b0).status = b.status := rfl
@[simp] theorem takeTag_faultInfo (b : Block) (b0 : Byte) : (b.takeTag b0).faultInfo = b.faultInfo := rfl
@[simp] theorem takeTag_scratch (b : Block) (b0 : Byte) : (b.takeTag b0).scratch = b.scratch.setIfInBounds 0 b0 := rfl
@[simp] theorem takeTag_phase (b : Block) (b0 : Byte) : (b.takeTag b0).phase = b.phase := rfl
@[simp] theorem takeTag_op (b : Block) (b0 : Byte) : (b.takeTag b0).op = b.op := rfl
@[simp] theorem takeTag_tier (b : Block) (b0 : Byte) : (b.takeTag b0).tier = b.tier := rfl
@[simp] theorem takeTag_nb (b : Block) (b0 : Byte) : (b.takeTag b0).nb = b.nb := rfl
@[simp] theorem takeTag_j (b : Block) (b0 : Byte) : (b.takeTag b0).j = 1 := rfl

@[simp] theorem setBlock_setBlock (s : State) (b b' : Block) : (s.setBlock b).setBlock b' = s.setBlock b' := rfl

@[simp] theorem setBlock_self (s : State) : s.setBlock s.cur.block = s := rfl

@[simp] theorem setCur_self (s : State) : s.setCur s.cur = s := rfl

@[simp] theorem setCur_curNum (s : State) (i : Inst) : (s.setCur i).curNum = s.curNum := rfl

@[simp] theorem setBlock_curNum (s : State) (b : Block) : (s.setBlock b).curNum = s.curNum := rfl

theorem instances_eq (s : State) : s.instances = s.before ++ s.cur :: s.after := rfl

@[simp] theorem setCur_instances (s : State) (i : Inst) : (s.setCur i).instances = s.before ++ i :: s.after := rfl

theorem mem_instances {s : State} {i : Inst} : i ∈ s.instances ↔ i ∈ s.before ∨ i = s.cur ∨ i ∈ s.after := by
  simp [instances_eq]

theorem cur_mem (s : State) : s.cur ∈ s.instances := mem_instances.2 (.inr (.inl rfl))

@[simp] theorem instances_curNum (s : State) : s.instances[s.curNum]? = some s.cur := by
  simp [instances_eq, State.curNum]

/-- Two states with the same instances but for the acting one agree at every other number. -/
theorem instances_other {s t : State} (hb : t.before = s.before) (ha : t.after = s.after) {m : Nat}
    (hm : m ≠ s.curNum) : t.instances[m]? = s.instances[m]? := by
  simp only [instances_eq, hb, ha, State.curNum] at *
  rcases Nat.lt_or_ge m s.before.length with h | h
  · rw [List.getElem?_append_left h, List.getElem?_append_left h]
  · rw [List.getElem?_append_right h, List.getElem?_append_right h]
    obtain ⟨k, hk⟩ : ∃ k, m - s.before.length = k + 1 := ⟨m - s.before.length - 1, by omega⟩
    rw [hk, List.getElem?_cons_succ, List.getElem?_cons_succ]

/-- Selecting an instance keeps the list of instances and everything outside it. -/
theorem focus_spec {n : Nat} {s t : State} (h : focus n s = some t) :
    t.instances = s.instances ∧ t.curNum = n ∧ s.instances[n]? = some t.cur ∧ t.inStreams = s.inStreams ∧
      t.outStreams = s.outStreams ∧ t.reads = s.reads ∧ t.schedule = s.schedule := by
  unfold focus at h
  split at h
  · cases h
  · rename_i i rest hd
    cases h
    have hn : n < s.instances.length := by
      by_contra hc
      simp [List.drop_eq_nil_of_le (Nat.le_of_not_lt hc)] at hd
    refine ⟨?_, by simp [State.curNum]; omega, ?_, rfl, rfl, rfl, rfl⟩
    · rw [instances_eq, ← hd, List.take_append_drop]
    · have := congrArg List.head? hd
      simpa using this

/-- An existing number can be selected. -/
theorem focus_isSome {n : Nat} {s : State} (h : n < s.instances.length) : ∃ t, focus n s = some t := by
  unfold focus
  split
  · rename_i hd
    simp at hd
    omega
  · exact ⟨_, rfl⟩

/-- Selecting the instance that acts changes nothing. -/
@[simp] theorem focus_curNum (s : State) : focus s.curNum s = some s := by
  simp [focus, instances_eq, State.curNum]

end Sys2Proof.Machine
end

