-- ==== Sys2Proof/Laws/Flags.lean ====
section
/-! SUPPORT. Reading and writing the fields of STATUS: each write changes its own field and no other. -/

namespace Sys2Proof.Machine

open Sys2Proof

section Pack

variable (b : Byte) (r e : BitVec 3) (v : BitVec 2)

/-- The word as an append in right-nested shape, one field at the low end. -/
theorem statusPack_eq : statusPack b r e v = (b ++ r ++ e : BitVec 14) ++ v := rfl

@[simp] theorem statusState_pack : statusState (statusPack b r e v) = v := by
  ext i hi
  simp only [statusState, statusPack, BitVec.getElem_extractLsb', BitVec.getLsbD_append]
  rw [if_pos (by omega), Nat.zero_add, BitVec.getLsbD_eq_getElem hi]

@[simp] theorem statusErr_pack : statusErr (statusPack b r e v) = e := by
  ext i hi
  simp only [statusErr, statusPack, BitVec.getElem_extractLsb', BitVec.getLsbD_append]
  rw [if_neg (by omega), if_pos (by omega), show 2 + i - 2 = i by omega, BitVec.getLsbD_eq_getElem hi]

@[simp] theorem statusReserved_pack : statusReserved (statusPack b r e v) = r := by
  ext i hi
  simp only [statusReserved, statusPack, BitVec.getElem_extractLsb', BitVec.getLsbD_append]
  rw [if_neg (by omega), if_neg (by omega), if_pos (by omega), show 5 + i - 2 - 3 = i by omega,
    BitVec.getLsbD_eq_getElem hi]

@[simp] theorem statusErrByte_pack : statusErrByte (statusPack b r e v) = b := by
  ext i hi
  simp only [statusErrByte, statusPack, BitVec.getElem_extractLsb', BitVec.getLsbD_append]
  rw [if_neg (by omega), if_neg (by omega), if_neg (by omega), show 8 + i - 2 - 3 - 3 = i by omega,
    BitVec.getLsbD_eq_getElem hi]

end Pack

section Writes

variable (v : RunState) (e : ErrCode) (b : Byte) (st : BitVec 16)

@[simp] theorem withState_state : statusState (withState v st) = v.code := statusState_pack ..
@[simp] theorem withState_err : statusErr (withState v st) = statusErr st := statusErr_pack ..
@[simp] theorem withState_reserved : statusReserved (withState v st) = statusReserved st := statusReserved_pack ..
@[simp] theorem withState_errByte : statusErrByte (withState v st) = statusErrByte st := statusErrByte_pack ..
@[simp] theorem withErr_state : statusState (withErr e st) = statusState st := statusState_pack ..
@[simp] theorem withErr_err : statusErr (withErr e st) = e.code := statusErr_pack ..
@[simp] theorem withErr_reserved : statusReserved (withErr e st) = statusReserved st := statusReserved_pack ..
@[simp] theorem withErr_errByte : statusErrByte (withErr e st) = statusErrByte st := statusErrByte_pack ..
@[simp] theorem withErrByte_state : statusState (withErrByte b st) = statusState st := statusState_pack ..
@[simp] theorem withErrByte_err : statusErr (withErrByte b st) = statusErr st := statusErr_pack ..
@[simp] theorem withErrByte_reserved : statusReserved (withErrByte b st) = statusReserved st :=
  statusReserved_pack ..
@[simp] theorem withErrByte_errByte : statusErrByte (withErrByte b st) = b := statusErrByte_pack ..

end Writes

section RecordByte

variable (e : HwError) (st : BitVec 16)

@[simp] theorem recordByte_state : statusState (e.recordByte st) = statusState st := by
  cases e <;> simp [HwError.recordByte]

@[simp] theorem recordByte_err : statusErr (e.recordByte st) = statusErr st := by
  cases e <;> simp [HwError.recordByte]

@[simp] theorem recordByte_reserved : statusReserved (e.recordByte st) = statusReserved st := by
  cases e <;> simp [HwError.recordByte]

end RecordByte

@[simp] theorem runState_code_inj {a b : RunState} : a.code = b.code ↔ a = b := by
  cases a <;> cases b <;> decide

@[simp] theorem errCode_code_inj {a b : ErrCode} : a.code = b.code ↔ a = b := by
  cases a <;> cases b <;> decide

theorem busy_iff (b : Block) : b.busy = true ↔ statusState b.status = RunState.busy.code := by
  simp [Block.busy]

/-- A block with the status of another is BUSY with it. -/
theorem busy_congr {a b : Block} (h : a.status = b.status) : a.busy = b.busy := by
  simp [Block.busy, h]

@[simp] theorem busy_finish (b : Block) : b.finish.busy = false := by
  simp [Block.busy]

@[simp] theorem busy_raise (b : Block) (e : HwError) : (b.raise e).busy = false := by
  simp [Block.busy]

@[simp] theorem busy_latch (b : Block) (op : Op) : (b.latch op).busy = true := by
  simp [Block.busy]

@[simp] theorem busy_clearResult (b : Block) : b.clearResult.busy = b.busy := by
  simp [Block.busy]

/-- The status word is its four fields. -/
theorem status_fields (st : BitVec 16) :
    statusPack (statusErrByte st) (statusReserved st) (statusErr st) (statusState st) = st := by
  apply BitVec.eq_of_getLsbD_eq
  intro i hi
  simp only [statusPack, statusErrByte, statusReserved, statusErr, statusState, BitVec.getLsbD_append,
    BitVec.getLsbD_extractLsb']
  split_ifs with h1 h2 h3
  · simp [h1]
  · simp [h2, show 2 + (i - 2) = i by omega]
  · simp [h3, show 5 + (i - 2 - 3) = i by omega]
  · simp [show i - 2 - 3 - 3 < 8 by omega, show 8 + (i - 2 - 3 - 3) = i by omega]

end Sys2Proof.Machine
end

