-- ==== Sys2Proof/Laws/Codec.lean ====
section
/-! SUPPORT. The pure codec: lengths, bytes and values of the layouts, the canonical tier, and the first byte. -/

namespace Sys2Proof.Machine

open Sys2Proof

/-! ### Byte sequences (R10) -/

@[simp] theorem be_length (n v : Nat) : (be n v).length = n := by
  induction n with
  | zero => rfl
  | succ n ih => simp [be, ih]

@[simp] theorem le_length (n v : Nat) : (le n v).length = n := by
  induction n generalizing v with
  | zero => rfl
  | succ n ih => simp [le, ih]

/-- R10: `be_N(v)[i] = (v >> (N - 8 - 8*i)) & 0xFF`. -/
theorem be_getElem? {n i : Nat} (v : Nat) (h : i < n) : (be n v)[i]? = some (byteAt (n - 1 - i) v) := by
  induction n generalizing i with
  | zero => omega
  | succ n ih =>
    cases i with
    | zero => simp [be]
    | succ i => simp [be, ih (by omega : i < n), show n - 1 - i = n - (i + 1) by omega]

theorem byteAt_shift (i v : Nat) : byteAt i (v >>> 8) = byteAt (i + 1) v := by
  simp [byteAt, ← Nat.shiftRight_add, show 8 + 8 * i = 8 * (i + 1) by omega]

/-- R10: `le_N(v)[i] = (v >> (8*i)) & 0xFF`. -/
theorem le_getElem? {n i : Nat} (v : Nat) (h : i < n) : (le n v)[i]? = some (byteAt i v) := by
  induction n generalizing i v with
  | zero => omega
  | succ n ih =>
    cases i with
    | zero => simp [le]
    | succ i => simp [le, ih _ (by omega : i < n), byteAt_shift]

theorem byteAt_toNat (i v : Nat) : (byteAt i v).toNat = v / 2 ^ (8 * i) % 256 := by
  simp [byteAt, Nat.shiftRight_eq_div_pow]

theorem shiftIn_eq (v : Nat) (b : Byte) : shiftIn v b = v * 256 + b.toNat := by
  have h := b.isLt
  rw [shiftIn, ← Nat.shiftLeft_add_eq_or_of_lt h, Nat.shiftLeft_eq]

/-- Shifting the bytes of `be_8n(v)` in gives the low `8n` bits of `v`. -/
theorem foldl_be (n v acc : Nat) : (be n v).foldl shiftIn acc = acc * 2 ^ (8 * n) + v % 2 ^ (8 * n) := by
  induction n generalizing acc with
  | zero => simp [be, Nat.mod_one]
  | succ n ih =>
    simp only [be, List.foldl_cons, ih, shiftIn_eq, byteAt_toNat]
    have h : v % 2 ^ (8 * (n + 1)) = v / 2 ^ (8 * n) % 256 * 2 ^ (8 * n) + v % 2 ^ (8 * n) := by
      rw [show 8 * (n + 1) = 8 * n + 8 by ring, pow_add, Nat.mod_mul]
      norm_num
      ring
    rw [h]
    ring

/-- The normalizer inverts `le_8n` (R82). -/
theorem normalizeBytes_le (n v : Nat) : normalizeBytes (le n v) = v % 2 ^ (8 * n) := by
  induction n generalizing v with
  | zero => simp [le, normalizeBytes, Nat.mod_one]
  | succ n ih =>
    simp only [le, normalizeBytes, ih, byteAt_toNat, Nat.shiftLeft_eq]
    rw [show 8 * (n + 1) = 8 + 8 * n by ring, pow_add, Nat.mod_mul, Nat.shiftRight_eq_div_pow]
    norm_num
    ring

/-- Bytes shifted in stay below the capacity (R81). -/
theorem foldl_shiftIn_lt (bs : List Byte) (acc m : Nat) (h : acc < m) :
    bs.foldl shiftIn acc < m * 2 ^ (8 * bs.length) := by
  induction bs generalizing acc m with
  | nil => simpa using h
  | cons b bs ih =>
    have hb := b.isLt
    have := ih (shiftIn acc b) (m * 256) (by rw [shiftIn_eq]; omega)
    simp only [List.foldl_cons, List.length_cons]
    rw [show m * 2 ^ (8 * (bs.length + 1)) = m * 256 * 2 ^ (8 * bs.length) by
      rw [show 8 * (bs.length + 1) = 8 * bs.length + 8 by ring, pow_add]; norm_num; ring]
    exact this

/-- The normalizer's value fits its bytes (R82). -/
theorem normalizeBytes_lt (bs : List Byte) : normalizeBytes bs < 2 ^ (8 * bs.length) := by
  induction bs with
  | nil => simp [normalizeBytes]
  | cons b bs ih =>
    have hb := b.isLt
    simp only [normalizeBytes, List.length_cons, Nat.shiftLeft_eq]
    rw [show 8 * (bs.length + 1) = 8 * bs.length + 8 by ring, pow_add]
    omega

/-! ### Tiers (R55 to R57, R63) -/

/-- `2^(7(k+1))`, the bound of the non-escape tier `k` (R57). -/
abbrev tierBound (k : Nat) : Nat := 2 ^ (7 * (k + 1))

theorem tierBounds_eq (w : Width) : tierBounds w = (List.range (escTier w)).map tierBound := by
  cases w <;> decide

theorem escTier_le (w : Width) : escTier w ≤ 8 := by cases w <;> decide

/-- The canonical tier is at most the escape tier. -/
theorem tierOf_le (w : Width) (v : Nat) : tierOf w v ≤ escTier w := by
  have := List.findIdx_le_length (p := fun b => decide (v < b)) (xs := tierBounds w)
  simpa [tierOf, tierBounds_eq] using this

/-- A value is below the bound of its canonical non-escape tier (R63). -/
theorem lt_bound_tierOf {w : Width} {v : Nat} (h : tierOf w v < escTier w) : v < tierBound (tierOf w v) := by
  have hl : tierOf w v < (tierBounds w).length := by simpa [tierBounds_eq] using h
  have := List.findIdx_getElem (p := fun b => decide (v < b)) (xs := tierBounds w) (w := hl)
  simpa [tierBounds_eq, tierOf] using this

/-- A value is not below the bound of any tier under its canonical one (R63). -/
theorem bound_le_of_lt_tierOf {w : Width} {v k : Nat} (h : k < tierOf w v) : tierBound k ≤ v := by
  have := List.not_of_lt_findIdx (p := fun b => decide (v < b)) (xs := tierBounds w) (i := k) h
  simpa [tierBounds_eq] using this

/-- The canonical tier from its bounds. -/
theorem tierOf_eq {w : Width} {v k : Nat} (hk : k ≤ escTier w) (hlo : ∀ j, j < k → tierBound j ≤ v)
    (hhi : k < escTier w → v < tierBound k) : tierOf w v = k := by
  rcases Nat.lt_trichotomy (tierOf w v) k with h | h | h
  · have := lt_bound_tierOf (w := w) (v := v) (by omega)
    have := hlo _ h
    omega
  · exact h
  · have := bound_le_of_lt_tierOf h
    have := hhi (by have := tierOf_le w v; omega)
    omega

theorem tierBound_mono {j k : Nat} (h : j ≤ k) : tierBound j ≤ tierBound k :=
  Nat.pow_le_pow_right (by decide) (by omega)

/-- A larger value never has a smaller canonical tier (R79 (a)). -/
theorem tierOf_mono {w : Width} {u v : Nat} (h : u ≤ v) : tierOf w u ≤ tierOf w v := by
  by_contra hc
  have h1 := bound_le_of_lt_tierOf (Nat.lt_of_not_le hc)
  have h2 := lt_bound_tierOf (w := w) (v := v) (by have := tierOf_le w u; omega)
  omega

theorem extraBytes_of_lt {w : Width} {k : Nat} (h : k < escTier w) : extraBytes w k = k := if_pos h

@[simp] theorem extraBytes_escTier (w : Width) : extraBytes w (escTier w) = widthBits w / 8 :=
  if_neg (Nat.lt_irrefl _)

/-- A form has at most nine bytes (R54). -/
theorem extraBytes_le {w : Width} {k : Nat} : extraBytes w k ≤ 8 := by
  unfold extraBytes
  split
  · have := escTier_le w
    omega
  · cases w <;> decide

/-- Only tier 0 has no extra byte (R55, R56). -/
theorem extraBytes_eq_zero {w : Width} {k : Nat} : extraBytes w k = 0 ↔ k = 0 := by
  unfold extraBytes
  split
  · rfl
  · cases w <;> simp_all [escTier, widthBits] <;> omega

@[simp] theorem marshal_length {w : Width} {k v : Nat} : (marshal w k v).length = 1 + extraBytes w k := by
  unfold marshal extraBytes
  split <;> simp <;> omega

@[simp] theorem prefixTag_length {w : Width} {k : Nat} {bs : List Byte} :
    (prefixTag w k bs).length = bs.length := by
  cases bs <;> rfl

@[simp] theorem formAt_length {w : Width} {k v : Nat} : (formAt w k v).length = 1 + extraBytes w k := by
  simp [formAt]

@[simp] theorem enc_length {w : Width} {v : Nat} : (enc w v).length = 1 + extraBytes w (tierOf w v) := by
  simp [enc]

/-! ### The first byte (R58, R60) -/

/-- The payload of a tier's first byte, tagged, is of that tier, and the tag comes off again. -/
theorem tagged_spec : ∀ k : Fin 8, ∀ x : Fin 256, x.val < 2 ^ (7 - k.val) →
    (k.val < 4 → classify32 (BitVec.ofFin x ||| tierTag k) = some k.val) ∧
      classify64 (BitVec.ofFin x ||| tierTag k) = some k.val ∧
      (BitVec.ofFin x ||| tierTag k) &&& ~~~ tierMask k = (BitVec.ofFin x : Byte) ∧
      (BitVec.ofFin x ||| tierTag k) &&& tierMask k = tierTag k := by
  decide +kernel

theorem classify_tagged {w : Width} {k : Nat} {x : Byte} (hk : k < escTier w) (hx : x.toNat < 2 ^ (7 - k)) :
    classify w (x ||| tierTag k) = some k := by
  have h8 : k < 8 := by have := escTier_le w; omega
  have := tagged_spec ⟨k, h8⟩ x.toFin hx
  cases w
  · exact this.1 hk
  · exact this.2.1

theorem untag {k : Nat} {x : Byte} (hk : k < 8) (hx : x.toNat < 2 ^ (7 - k)) :
    (x ||| tierTag k) &&& ~~~ tierMask k = x := (tagged_spec ⟨k, hk⟩ x.toFin hx).2.2.1

theorem tagged_mask {k : Nat} {x : Byte} (hk : k < 8) (hx : x.toNat < 2 ^ (7 - k)) :
    (x ||| tierTag k) &&& tierMask k = tierTag k := (tagged_spec ⟨k, hk⟩ x.toFin hx).2.2.2

@[simp] theorem classify_escTag (w : Width) : classify w (escTag w) = some (escTier w) := by cases w <;> decide

/-- What every first byte is at W=32 (R58, R59): a tier whose payload it holds, or one of `0xF1` to `0xFF`. -/
theorem classify32_spec : ∀ b : Fin 256, (classify32 (BitVec.ofFin b)).elim (0xF1 ≤ b.val) (fun k =>
    k ≤ 4 ∧ (k = 4 → (BitVec.ofFin b : Byte) = 0xF0) ∧
      ((BitVec.ofFin b : Byte) &&& ~~~ tierMask k).toNat < 2 ^ (7 - k) ∧ b.val < 0xF1) := by
  have h : ∀ b : Fin 256, ∀ k : Fin 5, classify32 (BitVec.ofFin b) = some k.val →
      (k.val = 4 → (BitVec.ofFin b : Byte) = 0xF0) ∧
        ((BitVec.ofFin b : Byte) &&& ~~~ tierMask k).toNat < 2 ^ (7 - k.val) ∧ b.val < 0xF1 := by decide +kernel
  have g : ∀ b : Fin 256, (classify32 (BitVec.ofFin b)).all (· ≤ 4) = true ∧
      (classify32 (BitVec.ofFin b) = none → 0xF1 ≤ b.val) := by decide +kernel
  intro b
  rcases hc : classify32 (BitVec.ofFin b) with _ | k
  · exact (g b).2 hc
  · have hk : k ≤ 4 := by simpa [hc] using (g b).1
    exact ⟨hk, h b ⟨k, by omega⟩ hc⟩

/-- What every first byte is at W=64 (R58): a tier whose payload it holds. -/
theorem classify64_spec : ∀ b : Fin 256, (classify64 (BitVec.ofFin b)).elim False (fun k =>
    k ≤ 8 ∧ (k = 8 → (BitVec.ofFin b : Byte) = 0xFF) ∧
      ((BitVec.ofFin b : Byte) &&& ~~~ tierMask k).toNat < 2 ^ (7 - k)) := by
  have h : ∀ b : Fin 256, ∀ k : Fin 9, classify64 (BitVec.ofFin b) = some k.val →
      (k.val = 8 → (BitVec.ofFin b : Byte) = 0xFF) ∧
        ((BitVec.ofFin b : Byte) &&& ~~~ tierMask k).toNat < 2 ^ (7 - k.val) := by decide +kernel
  have g : ∀ b : Fin 256, (classify64 (BitVec.ofFin b)).all (· ≤ 8) = true ∧
      (classify64 (BitVec.ofFin b)).isSome = true := by decide +kernel
  intro b
  rcases hc : classify64 (BitVec.ofFin b) with _ | k
  · simpa [hc] using (g b).2
  · have hk : k ≤ 8 := by simpa [hc] using (g b).1
    exact ⟨hk, h b ⟨k, by omega⟩ hc⟩

/-- What a first byte with a tier is: the tier is in range, only the escape tag has the escape tier, and the payload
fits (R57, R58). -/
theorem classify_spec {w : Width} {b : Byte} {k : Nat} (h : classify w b = some k) :
    k ≤ escTier w ∧ (k = escTier w → b = escTag w) ∧ (b &&& ~~~ tierMask k).toNat < 2 ^ (7 - k) := by
  cases w
  · have := classify32_spec b.toFin
    rw [show classify32 (BitVec.ofFin b.toFin) = some k from h] at this
    exact ⟨this.1, this.2.1, this.2.2.1⟩
  · have := classify64_spec b.toFin
    rw [show classify64 (BitVec.ofFin b.toFin) = some k from h] at this
    exact this

/-- The tier of a first byte is at most the escape tier. -/
theorem classify_le {w : Width} {b : Byte} {k : Nat} (h : classify w b = some k) : k ≤ escTier w :=
  (classify_spec h).1

/-- Only the escape tag has the escape tier (R57). -/
theorem classify_escape {w : Width} {b : Byte} (h : classify w b = some (escTier w)) : b = escTag w :=
  (classify_spec h).2.1 rfl

/-- The payload of a first byte fits its tier (R57). -/
theorem classify_payload {w : Width} {b : Byte} {k : Nat} (h : classify w b = some k) :
    (b &&& ~~~ tierMask k).toNat < 2 ^ (7 - k) := (classify_spec h).2.2

/-- No tier at W=32 for `0xF1` to `0xFF` exactly, and always a tier at W=64 (R58). -/
theorem classify_none {w : Width} {b : Byte} : classify w b = none ↔ w = .w32 ∧ 0xF1 ≤ b.toNat := by
  cases w
  · have := classify32_spec b.toFin
    rcases hc : classify32 (BitVec.ofFin b.toFin) with _ | k
    · rw [hc] at this
      exact ⟨fun _ => ⟨rfl, this⟩, fun _ => hc⟩
    · rw [hc] at this
      refine ⟨fun h => ?_, fun h => ?_⟩
      · rw [show classify32 (BitVec.ofFin b.toFin) = none from h] at hc
        cases hc
      · have h1 : b.toNat < 0xF1 := this.2.2.2
        omega
  · have := classify64_spec b.toFin
    rcases hc : classify64 (BitVec.ofFin b.toFin) with _ | k
    · rw [hc] at this
      exact this.elim
    · refine ⟨fun h => ?_, fun h => by simp at h⟩
      rw [show classify64 (BitVec.ofFin b.toFin) = none from h] at hc
      cases hc

/-! ### Forms and their values (R60 to R62) -/

/-- A non-escape form is its tagged first byte, then the lower bytes (R60). -/
theorem formAt_of_lt {w : Width} {k : Nat} (h : k < escTier w) (v : Nat) :
    formAt w k v = (byteAt k v ||| tierTag k) :: be k v := by
  simp [formAt, marshal, h, prefixTag, be]

/-- An escape form is its tag, then the value least significant byte first (R61). -/
theorem formAt_escTier (w : Width) (v : Nat) :
    formAt w (escTier w) v = escTag w :: le (widthBits w / 8) v := by
  simp [formAt, marshal, prefixTag]

/-- The payload bits of the first byte of a non-escape form (R60). -/
theorem byteAt_top {k v : Nat} (h8 : k < 8) (hv : v < tierBound k) :
    (byteAt k v).toNat = v / 2 ^ (8 * k) ∧ v / 2 ^ (8 * k) < 2 ^ (7 - k) := by
  have hx : v / 2 ^ (8 * k) < 2 ^ (7 - k) := by
    rw [Nat.div_lt_iff_lt_mul (by positivity), ← pow_add]
    rwa [show 7 - k + 8 * k = 7 * (k + 1) by omega]
  refine ⟨?_, hx⟩
  rw [byteAt_toNat, Nat.mod_eq_of_lt]
  exact lt_of_lt_of_le hx (Nat.pow_le_pow_right (by decide) (by omega) : 2 ^ (7 - k) ≤ 2 ^ 8)

/-- The first byte of a form is of the form's tier. -/
theorem classify_formAt {w : Width} {k v : Nat} (hk : k ≤ escTier w) (hv : k < escTier w → v < tierBound k) :
    ∃ b0 rest, formAt w k v = b0 :: rest ∧ classify w b0 = some k := by
  rcases Nat.lt_or_eq_of_le hk with h | rfl
  · have h8 : k < 8 := by have := escTier_le w; omega
    obtain ⟨h1, h2⟩ := byteAt_top h8 (hv h)
    exact ⟨_, _, formAt_of_lt h v, classify_tagged h (by rw [h1]; exact h2)⟩
  · exact ⟨_, _, formAt_escTier w v, classify_escTag w⟩

/-- The value of a form is the value it was made of (R62). -/
theorem formValue_formAt {w : Width} {k v : Nat} (hk : k ≤ escTier w) (hv : k < escTier w → v < tierBound k)
    (hw : v < 2 ^ widthBits w) : formValue w k (formAt w k v) = v := by
  rcases Nat.lt_or_eq_of_le hk with h | rfl
  · have h8 : k < 8 := by have := escTier_le w; omega
    obtain ⟨h1, h2⟩ := byteAt_top h8 (hv h)
    rw [formValue, if_pos h, formAt_of_lt h, extractPayload, untag h8 (by rw [h1]; exact h2), foldl_be, h1]
    exact Nat.div_add_mod' v _
  · rw [formValue, if_neg (Nat.lt_irrefl _), formAt_escTier, List.tail_cons, normalizeBytes_le]
    apply Nat.mod_eq_of_lt
    rwa [show 8 * (widthBits w / 8) = widthBits w by cases w <;> rfl]

/-- The value of a well-formed form fits its tier and the width (R62). -/
theorem formValue_lt {w : Width} {k : Nat} {b0 : Byte} {xs : List Byte} (hc : classify w b0 = some k)
    (hl : xs.length = extraBytes w k) :
    formValue w k (b0 :: xs) < 2 ^ widthBits w ∧ (k < escTier w → formValue w k (b0 :: xs) < tierBound k) := by
  have hb : k < escTier w → formValue w k (b0 :: xs) < tierBound k := by
    intro h
    rw [formValue, if_pos h, extractPayload]
    have h8 : k < 8 := by have := escTier_le w; omega
    have := foldl_shiftIn_lt xs _ _ (classify_payload hc)
    rw [hl, extraBytes_of_lt h, ← pow_add] at this
    rwa [show 7 - k + 8 * k = 7 * (k + 1) by omega] at this
  refine ⟨?_, hb⟩
  by_cases h : k < escTier w
  · refine lt_of_lt_of_le (hb h) (Nat.pow_le_pow_right (by decide) ?_)
    cases w <;> simp_all [escTier, widthBits] <;> omega
  · have hk : k = escTier w := by have := classify_le hc; omega
    subst hk
    rw [formValue, if_neg h, List.tail_cons]
    have := normalizeBytes_lt xs
    rwa [hl, extraBytes_escTier, show 8 * (widthBits w / 8) = widthBits w by cases w <;> rfl] at this

/-! ### The pure decoder (R83) -/

/-- A form that is all there (R83). -/
theorem dec_of_length {w : Width} {b0 : Byte} {k : Nat} {rest : List Byte} (hc : classify w b0 = some k)
    (hl : extraBytes w k ≤ rest.length) :
    dec w (b0 :: rest) = .ok (formValue w k (b0 :: rest.take (extraBytes w k))) (1 + extraBytes w k) := by
  simp only [dec, hc, List.length_cons]
  rw [if_neg (by omega), show 1 + extraBytes w k = extraBytes w k + 1 by omega, List.take_succ_cons]

/-- A form cut short (R83). -/
theorem dec_of_short {w : Width} {b0 : Byte} {k : Nat} {rest : List Byte} (hc : classify w b0 = some k)
    (hl : rest.length < extraBytes w k) : dec w (b0 :: rest) = .short (rest.length + 1) := by
  simp only [dec, hc, List.length_cons]
  rw [if_pos (by omega)]

/-- A first byte without a tier (R83). -/
theorem dec_of_none {w : Width} {b0 : Byte} {rest : List Byte} (hc : classify w b0 = none) :
    dec w (b0 :: rest) = .unrecognized b0 := by
  simp [dec, hc]

/-- Everything a decode that succeeds says of its input. -/
theorem dec_ok {w : Width} {s : List Byte} {v n : Nat} (h : dec w s = .ok v n) :
    ∃ b0 rest k, s = b0 :: rest ∧ classify w b0 = some k ∧ extraBytes w k ≤ rest.length ∧
      n = 1 + extraBytes w k ∧ v = formValue w k (b0 :: rest.take (extraBytes w k)) := by
  cases s with
  | nil => simp [dec] at h
  | cons b0 rest =>
    rcases hc : classify w b0 with _ | k
    · rw [dec_of_none hc] at h
      cases h
    · rcases Nat.lt_or_ge rest.length (extraBytes w k) with hl | hl
      · rw [dec_of_short hc hl] at h
        cases h
      · rw [dec_of_length hc hl] at h
        cases h
        exact ⟨b0, rest, k, rfl, hc, hl, rfl, rfl⟩

/-- A higher tier has more extra bytes (R57). -/
theorem extra_mono {w : Width} {j k : Nat} (h : j < k) (hk : k ≤ escTier w) : extraBytes w j < extraBytes w k := by
  rw [extraBytes_of_lt (by omega)]
  rcases Nat.lt_or_eq_of_le hk with h2 | rfl
  · rwa [extraBytes_of_lt h2]
  · rw [extraBytes_escTier]; cases w <;> simp_all [escTier, widthBits]

/-- The number of extra bytes tells the tier (R57). -/
theorem extra_inj {w : Width} {j k : Nat} (hj : j ≤ escTier w) (hk : k ≤ escTier w)
    (h : extraBytes w j = extraBytes w k) : j = k := by
  rcases Nat.lt_trichotomy j k with h' | h' | h'
  · have := extra_mono h' hk; omega
  · exact h'
  · have := extra_mono h' hj; omega

/-- `be_8n` of the bytes shifted in gives them back (R10, R81). -/
theorem be_foldl (bs : List Byte) (acc : Nat) : be bs.length (bs.foldl shiftIn acc) = bs := by
  induction bs using List.reverseRecOn with
  | nil => rfl
  | append_singleton bs b ih =>
    apply List.ext_getElem?
    intro i
    have hb := b.isLt
    by_cases hi : i < (bs ++ [b]).length
    · rw [be_getElem? _ hi]
      simp only [List.foldl_append, List.foldl_cons, List.foldl_nil, shiftIn_eq]
      simp only [List.length_append, List.length_singleton] at hi ⊢
      rcases Nat.lt_or_eq_of_le (Nat.le_of_lt_succ hi) with h | h
      · rw [List.getElem?_append_left h]
        have := congrArg (·[i]?) ih
        conv_rhs => rw [← this]
        rw [be_getElem? _ h]
        congr 1
        apply BitVec.eq_of_toNat_eq
        rw [byteAt_toNat, byteAt_toNat]
        rw [show bs.length + 1 - 1 - i = (bs.length - 1 - i) + 1 by omega,
          show 8 * ((bs.length - 1 - i) + 1) = 8 + 8 * (bs.length - 1 - i) by ring, pow_add, ← Nat.div_div_eq_div_mul]
        congr 2
        norm_num
        omega
      · subst h
        simp
        apply BitVec.eq_of_toNat_eq
        rw [byteAt_toNat]
        simp; omega
    · rw [List.getElem?_eq_none (by simpa using hi), List.getElem?_eq_none (by simpa using hi)]

/-- `le_8n` of the normalized bytes gives them back (R10, R82). -/
theorem le_normalize (bs : List Byte) : le bs.length (normalizeBytes bs) = bs := by
  induction bs with
  | nil => rfl
  | cons b bs ih =>
    have hb := b.isLt
    simp only [List.length_cons, le, normalizeBytes]
    congr 1
    · apply BitVec.eq_of_toNat_eq
      rw [byteAt_toNat, Nat.shiftLeft_eq]
      simp; omega
    · rw [show (b.toNat + normalizeBytes bs <<< 8) >>> 8 = normalizeBytes bs by
        rw [Nat.shiftLeft_eq, Nat.shiftRight_eq_div_pow]
        norm_num
        omega]
      exact ih

/-- Payload bits and tag make the first byte again, checked on every byte (R57). -/
theorem tag_fact : ∀ k : Fin 8, ∀ b : Fin 256,
    ((k.val < 4 → classify32 (BitVec.ofFin b) = some k.val →
      ((BitVec.ofFin b : Byte) &&& ~~~ tierMask k) ||| tierTag k = BitVec.ofFin b) ∧
    (classify64 (BitVec.ofFin b) = some k.val →
      ((BitVec.ofFin b : Byte) &&& ~~~ tierMask k) ||| tierTag k = BitVec.ofFin b)) := by decide +kernel

/-- Payload bits and tag make the first byte again (R57). -/
theorem retag {w : Width} {k : Nat} {b : Byte} (hk : k < escTier w) (hc : classify w b = some k) :
    (b &&& ~~~ tierMask k) ||| tierTag k = b := by
  have h8 : k < 8 := by have := escTier_le w; omega
  have := tag_fact ⟨k, h8⟩ b.toFin
  cases w
  · exact this.1 hk hc
  · exact this.2 hc

/-- The form of the value that a well-formed form carries, at its tier, is that form (R60, R61, R62). -/
theorem formAt_formValue {w : Width} {k : Nat} {b0 : Byte} {xs : List Byte} (hc : classify w b0 = some k)
    (hl : xs.length = extraBytes w k) : formAt w k (formValue w k (b0 :: xs)) = b0 :: xs := by
  by_cases h : k < escTier w
  · have hlk : xs.length = k := by rw [hl, extraBytes_of_lt h]
    rw [formAt_of_lt h, formValue, if_pos h, extractPayload]
    have h1 : be k (xs.foldl shiftIn (b0 &&& ~~~ tierMask k).toNat) = xs := by
      have := be_foldl xs (b0 &&& ~~~ tierMask k).toNat
      rwa [hlk] at this
    rw [h1]
    congr 1
    have h2 : byteAt k (xs.foldl shiftIn (b0 &&& ~~~ tierMask k).toNat) = (b0 &&& ~~~ tierMask k) := by
      have hall : ∀ (ys : List Byte) (acc : Nat), (ys.foldl shiftIn acc) / 2^(8*ys.length) = acc := by
        intro ys
        induction ys with
        | nil => simp
        | cons y ys ih =>
          intro acc
          have hy := y.isLt
          rw [List.foldl_cons, List.length_cons, show 8 * (ys.length + 1) = 8 * ys.length + 8 by ring, pow_add,
            ← Nat.div_div_eq_div_mul, ih, shiftIn_eq]
          norm_num; omega
      apply BitVec.eq_of_toNat_eq
      rw [byteAt_toNat]
      have := hall xs (b0 &&& ~~~ tierMask k).toNat
      rw [hlk] at this
      rw [this]
      exact Nat.mod_eq_of_lt (BitVec.isLt _)
    rw [h2, retag h hc]
  · have hk : k = escTier w := by have := classify_le hc; omega
    subst hk
    rw [formAt_escTier, formValue, if_neg h, List.tail_cons, classify_escape hc]
    congr 1
    rw [extraBytes_escTier] at hl
    rw [← hl]
    exact le_normalize xs

end Sys2Proof.Machine
end

