-- ==== Sys2Proof/Laws/Ops.lean ====
section
/-! SUPPORT. One lemma per shared operation that says everything it can do, so that callers need not unfold it. -/

namespace Sys2Proof.Machine

open Sys2Proof

/-! ### SCRATCH -/

/-- Filling writes the bytes from index `j` on and nothing else (R73). -/
theorem fillScratch_getElem? (sc : Vector Byte Config.scratchBytes) (j : Nat) (bs : List Byte) (i : Nat)
    (h : j + bs.length ≤ 9) : (fillScratch sc j bs)[i]? =
      if j ≤ i ∧ i < j + bs.length then bs[i - j]? else sc[i]? := by
  induction bs generalizing sc j with
  | nil =>
    simp only [fillScratch, List.length_nil, Nat.add_zero]
    rw [if_neg (by omega)]
  | cons b bs ih =>
    simp only [List.length_cons] at h
    simp only [fillScratch, List.length_cons]
    rw [ih _ _ (by omega), Vector.getElem?_setIfInBounds]
    rcases Nat.lt_trichotomy i j with hi | hi | hi
    · rw [if_neg (by omega), if_neg (by omega), if_neg (by omega)]
    · subst hi
      have h9 : i < Config.scratchBytes := by show i < 9; omega
      rw [if_neg (by omega), if_pos rfl, if_pos h9, if_pos ⟨Nat.le_refl _, by omega⟩]
      simp
    · obtain ⟨m, rfl⟩ : ∃ m, i = j + 1 + m := ⟨i - j - 1, by omega⟩
      rw [show j + 1 + m - (j + 1) = m by omega, show j + 1 + m - j = m + 1 by omega, List.getElem?_cons_succ]
      by_cases hm : m < bs.length
      · rw [if_pos (by omega), if_pos (by omega)]
      · rw [if_neg (by omega), if_neg (by omega), if_neg (by omega)]

/-- `SCRATCH` as a list after filling from index 0 (R73). -/
theorem fillScratch_toList (sc : Vector Byte Config.scratchBytes) (bs : List Byte) (h : bs.length ≤ 9) :
    (fillScratch sc 0 bs).toList = bs ++ sc.toList.drop bs.length := by
  apply List.ext_getElem?
  intro i
  have := fillScratch_getElem? sc 0 bs i (by omega)
  rw [← Vector.getElem?_toList] at this
  rw [this, List.getElem?_append]
  simp only [Nat.zero_le, Nat.zero_add, true_and, Nat.sub_zero]
  split
  · rfl
  · rw [List.getElem?_drop, Vector.getElem?_toList, show bs.length + (i - bs.length) = i by omega]

theorem fillScratch_take (sc : Vector Byte Config.scratchBytes) (bs : List Byte) (h : bs.length ≤ 9) :
    (fillScratch sc 0 bs).toList.take bs.length = bs := by
  rw [fillScratch_toList sc bs h, List.take_left]

/-- Storing byte `j` behind the first `j` extends them by it. -/
theorem take_setIfInBounds (sc : Vector Byte Config.scratchBytes) (j : Nat) (b : Byte) (h : j < 9) :
    (sc.setIfInBounds j b).toList.take (j + 1) = sc.toList.take j ++ [b] := by
  have hj : min j Config.scratchBytes = j := Nat.min_eq_left (Nat.le_of_lt h)
  apply List.ext_getElem?
  intro i
  simp only [List.getElem?_take, List.getElem?_append, List.length_take, Vector.length_toList,
    Vector.getElem?_toList, Vector.getElem?_setIfInBounds, hj]
  rcases Nat.lt_trichotomy i j with hi | hi | hi
  · rw [if_pos (by omega), if_neg (by omega), if_pos hi, if_pos hi]
  · subst hi
    rw [if_pos (by omega), if_pos rfl, if_pos (show i < 9 from h), if_neg (by omega)]
    simp
  · rw [if_neg (by omega), if_neg (by omega), List.getElem?_eq_none (by simp; omega)]

/-- The first byte stored, the rest as before (R85). -/
theorem setIfInBounds_zero_toList (sc : Vector Byte Config.scratchBytes) (b : Byte) :
    (sc.setIfInBounds 0 b).toList = b :: sc.toList.tail := by
  apply List.ext_getElem?
  intro i
  rw [Vector.getElem?_toList, Vector.getElem?_setIfInBounds]
  cases i with
  | zero => simp
  | succ i =>
    rw [if_neg (by omega), List.getElem?_cons_succ, List.getElem?_tail, Vector.getElem?_toList]

/-! ### Commands -/

/-- Everything a legal command's write does (R29, R30, R120). -/
theorem startCommand_cases {c : Byte} {op : Op} {s t : State} (h : startCommand c op s = .next t) :
    (s.cur.busy = true ∧ t = s.hold ⟨0, c.toNat⟩) ∨
    (s.cur.busy = false ∧ s.conflicts s.cur = false ∧
      ((op.dir = .enc ∧ ∃ a, s.cur.block.arg = some a ∧
          t = s.setBlock ((s.cur.block.latch op).encoderStart op.width a)) ∨
        (op.dir = .dec ∧ t = s.setBlock { s.cur.block.latch op with phase := .tag }))) := by
  unfold startCommand at h
  split at h
  · cases h
    exact .inl ⟨‹_›, rfl⟩
  · rename_i hb
    split at h
    · cases h
    · rename_i hc
      refine .inr ⟨by simpa using hb, by simpa using hc, ?_⟩
      split at h
      · rename_i hd
        split at h
        · cases h
        · rename_i a ha
          cases h
          exact .inl ⟨hd, a, ha, rfl⟩
      · rename_i hd
        cases h
        exact .inr ⟨hd, rfl⟩

/-- A legal command at an instance that can take it (R30). -/
theorem startCommand_enc {c : Byte} {op : Op} {s : State} {a : Word64} (hd : op.dir = .enc)
    (hb : s.cur.busy = false) (hc : s.conflicts s.cur = false) (ha : s.cur.block.arg = some a) :
    startCommand c op s = .next (s.setBlock ((s.cur.block.latch op).encoderStart op.width a)) := by
  simp [startCommand, hb, hc, hd, ha]

theorem startCommand_dec {c : Byte} {op : Op} {s : State} (hd : op.dir = .dec)
    (hb : s.cur.busy = false) (hc : s.conflicts s.cur = false) :
    startCommand c op s = .next (s.setBlock { s.cur.block.latch op with phase := .tag }) := by
  simp [startCommand, hb, hc, hd]

/-- Everything a reserved command's write does (R29, R97). -/
theorem illegalCommand_cases {c : Byte} {s t : State} (h : illegalCommand c s = .next t) :
    (s.cur.busy = true ∧ t = s.hold ⟨0, c.toNat⟩) ∨
    (s.cur.busy = false ∧ t = s.setBlock (s.cur.block.clearResult.raise .illegalCommand)) := by
  unfold illegalCommand at h
  split at h
  · cases h
    exact .inl ⟨‹_›, rfl⟩
  · rename_i hb
    cases h
    exact .inr ⟨by simpa using hb, rfl⟩

/-! ### The tag step -/

theorem tagEnabled_iff {w : Width} {s : State} :
    tagEnabled w s = true ↔ s.cur.block.phase = .tag ∧ s.cur.block.op.width = w := by
  simp [tagEnabled]

/-- The block once a tag byte of tier `k` is taken (R85), before `finish` or `PHASE <- BODY`. -/
abbrev Block.tagged (b : Block) (w : Width) (k : Nat) (b0 : Byte) : Block :=
  { b.takeTag b0 with tier := k, nb := 1 + extraBytes w k }

/-- A tag byte of tier 0 (R85). -/
theorem acceptTag_zero {w : Width} {b0 : Byte} {s : State} (h : tagEnabled w s = true) :
    acceptTag w 0 b0 s = .next (s.setBlock
      { s.cur.block.tagged w 0 b0 with res := some (BitVec.ofNat 64 (b0 &&& 0x7F).toNat) }.finish) := by
  simp [acceptTag, h, extraBytes_eq_zero]

/-- A tag byte of a tier above 0 (R85). -/
theorem acceptTag_pos {w : Width} {k : Nat} {b0 : Byte} {s : State} (h : tagEnabled w s = true) (hk : k ≠ 0) :
    acceptTag w k b0 s = .next (s.setBlock { s.cur.block.tagged w k b0 with phase := .body }) := by
  simp [acceptTag, h, extraBytes_eq_zero, hk]

theorem acceptTag_cases {w : Width} {k : Nat} {b0 : Byte} {s t : State} (h : acceptTag w k b0 s = .next t) :
    tagEnabled w s = true ∧
      ((k = 0 ∧ t = s.setBlock
          { s.cur.block.tagged w 0 b0 with res := some (BitVec.ofNat 64 (b0 &&& 0x7F).toNat) }.finish) ∨
        (k ≠ 0 ∧ t = s.setBlock { s.cur.block.tagged w k b0 with phase := .body })) := by
  have he : tagEnabled w s = true := by
    unfold acceptTag at h
    split at h
    · assumption
    · cases h
  refine ⟨he, ?_⟩
  by_cases hk : k = 0
  · subst hk
    rw [acceptTag_zero he] at h
    cases h
    exact .inl ⟨rfl, rfl⟩
  · rw [acceptTag_pos he hk] at h
    cases h
    exact .inr ⟨hk, rfl⟩

theorem rejectTag_cases {w : Width} {b0 : Byte} {s t : State} (h : rejectTag w b0 s = .next t) :
    tagEnabled w s = true ∧ t = s.setBlock ((s.cur.block.takeTag b0).raise (.unrecognizedTag b0)) := by
  unfold rejectTag at h
  split at h
  · cases h
    exact ⟨‹_›, rfl⟩
  · cases h

/-! ### The stream primitives -/

theorem attachedIn_spec {s : State} {id : Nat} {st : InStream} :
    s.attachedIn = some (id, st) ↔ s.cur.inPort = some id ∧ s.inStreams[id]? = some st := by
  unfold State.attachedIn
  split <;> rename_i h
  · simp [h]
  · rw [h]
    constructor
    · intro hm
      obtain ⟨x, hx, he⟩ := Option.map_eq_some_iff.1 hm
      cases he
      exact ⟨rfl, hx⟩
    · rintro ⟨he, hx⟩
      cases he
      simp [hx]

theorem attachedOut_spec {s : State} {id : Nat} {st : OutStream} :
    s.attachedOut = some (id, st) ↔ s.cur.outPort = some id ∧ s.outStreams[id]? = some st := by
  unfold State.attachedOut
  split <;> rename_i h
  · simp [h]
  · rw [h]
    constructor
    · intro hm
      obtain ⟨x, hx, he⟩ := Option.map_eq_some_iff.1 hm
      cases he
      exact ⟨rfl, hx⟩
    · rintro ⟨he, hx⟩
      cases he
      simp [hx]

/-- `InRead` answering `ok` (R35). -/
theorem inRead_ok {a : Answer} {s : State} {id : Nat} {st : InStream} {b : Byte} (h : s.attachedIn = some (id, st))
    (ha : a.fails = false) (hb : st.get st.pos = some b) :
    inRead a s = .ok b { s with inStreams := s.inStreams.set id (st.moved 1) } := by
  simp [inRead, h, ha, hb]

/-- `InRead` answering `fault`, always at the end of a finite stream (R34, R35). -/
theorem inRead_fault {a : Answer} {s : State} {id : Nat} {st : InStream} (h : s.attachedIn = some (id, st))
    (hf : a.fails = true ∨ st.get st.pos = none) :
    inRead a s = .fault a.info { s with inStreams := s.inStreams.set id (st.moved a.advance) } := by
  rcases hf with hf | hf
  · simp [inRead, h, hf]
  · cases ha : a.fails <;> simp [inRead, h, hf, ha]

/-- Everything `InRead` can give. -/
theorem inRead_cases (a : Answer) (s : State) :
    (s.attachedIn = none ∧ inRead a s = .silent) ∨
    ∃ id st, s.attachedIn = some (id, st) ∧
      ((∃ b, a.fails = false ∧ st.get st.pos = some b ∧
          inRead a s = .ok b { s with inStreams := s.inStreams.set id (st.moved 1) }) ∨
        ((a.fails = true ∨ st.get st.pos = none) ∧
          inRead a s = .fault a.info { s with inStreams := s.inStreams.set id (st.moved a.advance) })) := by
  rcases h : s.attachedIn with _ | ⟨id, st⟩
  · exact .inl ⟨rfl, by simp [inRead, h]⟩
  · refine .inr ⟨id, st, rfl, ?_⟩
    rcases ha : a.fails with _ | _
    · rcases hb : st.get st.pos with _ | b
      · exact .inr ⟨.inr rfl, inRead_fault h (.inr hb)⟩
      · exact .inl ⟨b, rfl, rfl, inRead_ok h ha hb⟩
    · exact .inr ⟨.inl rfl, inRead_fault h (.inl ha)⟩

/-- `OutWrite` answering `ok` (R36). -/
theorem outWrite_ok {a : Answer} {b : Byte} {s : State} {id : Nat} {st : OutStream}
    (h : s.attachedOut = some (id, st)) (ha : a.fails = false) :
    outWrite a b s = .ok { s with outStreams := s.outStreams.set id (st.push b) } := by
  simp [outWrite, h, ha]

/-- `OutWrite` answering `fault` (R36). -/
theorem outWrite_fault {a : Answer} {b : Byte} {s : State} {id : Nat} {st : OutStream}
    (h : s.attachedOut = some (id, st)) (ha : a.fails = true) :
    outWrite a b s = .fault a.info
      (if a.landed then { s with outStreams := s.outStreams.set id (st.push b) } else s) := by
  simp [outWrite, h, ha]

/-- Everything `OutWrite` can give. -/
theorem outWrite_cases (a : Answer) (b : Byte) (s : State) :
    (s.attachedOut = none ∧ outWrite a b s = .silent) ∨
    ∃ id st, s.attachedOut = some (id, st) ∧
      ((a.fails = false ∧ outWrite a b s = .ok { s with outStreams := s.outStreams.set id (st.push b) }) ∨
        (a.fails = true ∧ outWrite a b s = .fault a.info
          (if a.landed then { s with outStreams := s.outStreams.set id (st.push b) } else s))) := by
  rcases h : s.attachedOut with _ | ⟨id, st⟩
  · exact .inl ⟨rfl, by simp [outWrite, h]⟩
  · refine .inr ⟨id, st, rfl, ?_⟩
    rcases ha : a.fails with _ | _
    · exact .inl ⟨rfl, outWrite_ok h ha⟩
    · exact .inr ⟨rfl, outWrite_fault h ha⟩

/-! ### Register reads -/

/-- A host read records a value and does nothing else (R27). -/
theorem hostRead_cases {r : RegNum} {s t : State} (h : hostRead r s = .next t) :
    ∃ v, s.cur.block.readReg r = .next v ∧ t = s.record r v := by
  unfold hostRead at h
  split at h <;> cases h
  exact ⟨_, ‹_›, rfl⟩

end Sys2Proof.Machine
end

