-- ==== Sys2Proof/Laws/Exec.lean ====
section
/-! SUPPORT. What `exec` does with a decoded byte: a command byte starts or refuses a command, and a first byte is
accepted or rejected as `classify_W` says. -/

namespace Sys2Proof.Machine

open Sys2Proof

/-- A property of all bytes, checked on their numbers. -/
theorem forall_byte {P : Byte → Prop} (h : ∀ n : Fin 256, P (BitVec.ofFin n)) (b : Byte) : P b := h b.toFin

/-- The decoded command byte, by its reserved field (R51, R52). -/
theorem decodeCmd_cases (c : Byte) :
    (c.extractLsb' 3 5 = 0 ∧
      (decodeCmd c, c) ∈ [(Instr.encU32, (0 : Byte)), (.decU32, 1), (.encU64, 2), (.decU64, 3),
        (.encI32, 4), (.decI32, 5), (.encI64, 6), (.decI64, 7)]) ∨
    (c.extractLsb' 3 5 ≠ 0 ∧
      decodeCmd c ∈ [Instr.reservedCmd08 c, .reservedCmd10 c, .reservedCmd20 c, .reservedCmd40 c,
        .reservedCmd80 c]) := by
  revert c
  apply forall_byte
  decide +kernel

/-- A legal command byte starts its command, a reserved one is illegal (R30, R51, R52). -/
theorem exec_decodeCmd (c : Byte) (s : State) :
    exec (decodeCmd c) s =
      if c.extractLsb' 3 5 = 0 then startCommand c (opOfCmd c) s else illegalCommand c s := by
  rcases decodeCmd_cases c with ⟨hc, hm⟩ | ⟨hc, hm⟩
  · rw [if_pos hc]
    simp only [List.mem_cons, Prod.mk.injEq, List.not_mem_nil, or_false] at hm
    rcases hm with ⟨h, rfl⟩ | ⟨h, rfl⟩ | ⟨h, rfl⟩ | ⟨h, rfl⟩ | ⟨h, rfl⟩ | ⟨h, rfl⟩ | ⟨h, rfl⟩ | ⟨h, rfl⟩ <;>
      (rw [h]; rfl)
  · rw [if_neg hc]
    simp only [List.mem_cons, List.not_mem_nil, or_false] at hm
    rcases hm with h | h | h | h | h <;> (rw [h]; rfl)

/-- The decoded first byte at W=32 carries the byte, and is of the tier that `classify_32` gives (R58, R59). -/
theorem exec_decodeTag32 (b : Byte) (s : State) :
    exec (decodeTag32 b) s =
      match classify32 b with
      | some k => acceptTag .w32 k b s
      | none => rejectTag .w32 b s := by
  have key : ∀ b : Byte,
      ((decodeTag32 b = .tier0W32 (b.extractLsb' 0 7) ∧ 0b0#1 ++ b.extractLsb' 0 7 = b ∧ classify32 b = some 0) ∨
      (decodeTag32 b = .tier1W32 (b.extractLsb' 0 6) ∧ 0b10#2 ++ b.extractLsb' 0 6 = b ∧ classify32 b = some 1) ∨
      (decodeTag32 b = .tier2W32 (b.extractLsb' 0 5) ∧ 0b110#3 ++ b.extractLsb' 0 5 = b ∧ classify32 b = some 2)) ∨
      ((decodeTag32 b = .tier3W32 (b.extractLsb' 0 4) ∧ 0b1110#4 ++ b.extractLsb' 0 4 = b ∧ classify32 b = some 3) ∨
      (decodeTag32 b = .tier4Esc32 ∧ 0xF0 = b ∧ classify32 b = some 4) ∨
      (decodeTag32 b ∈ [Instr.illegalTagF1 b, .illegalTagF2 b, .illegalTagF4 b, .illegalTagF8 b] ∧
        classify32 b = none)) := by
    apply forall_byte
    decide +kernel
  rcases key b with (⟨h, hb, hc⟩ | ⟨h, hb, hc⟩ | ⟨h, hb, hc⟩) | ⟨h, hb, hc⟩ | ⟨h, hb, hc⟩ | ⟨h, hc⟩
  · rw [h, hc]; exact congrArg (acceptTag .w32 0 · s) hb
  · rw [h, hc]; exact congrArg (acceptTag .w32 1 · s) hb
  · rw [h, hc]; exact congrArg (acceptTag .w32 2 · s) hb
  · rw [h, hc]; exact congrArg (acceptTag .w32 3 · s) hb
  · rw [h, hc]; exact congrArg (acceptTag .w32 4 · s) hb
  · rw [hc]
    simp only [List.mem_cons, List.not_mem_nil, or_false] at h
    rcases h with h | h | h | h <;> (rw [h]; rfl)

/-- The decoded first byte at W=64 carries the byte, and is of the tier that `classify_64` gives (R58). -/
theorem exec_decodeTag64 (b : Byte) (s : State) :
    exec (decodeTag64 b) s =
      match classify64 b with
      | some k => acceptTag .w64 k b s
      | none => rejectTag .w64 b s := by
  have key : ∀ b : Byte,
      ((decodeTag64 b = .tier0W64 (b.extractLsb' 0 7) ∧ 0b0#1 ++ b.extractLsb' 0 7 = b ∧ classify64 b = some 0) ∨
      (decodeTag64 b = .tier1W64 (b.extractLsb' 0 6) ∧ 0b10#2 ++ b.extractLsb' 0 6 = b ∧ classify64 b = some 1) ∨
      (decodeTag64 b = .tier2W64 (b.extractLsb' 0 5) ∧ 0b110#3 ++ b.extractLsb' 0 5 = b ∧ classify64 b = some 2)) ∨
      ((decodeTag64 b = .tier3W64 (b.extractLsb' 0 4) ∧ 0b1110#4 ++ b.extractLsb' 0 4 = b ∧ classify64 b = some 3) ∨
      (decodeTag64 b = .tier4W64 (b.extractLsb' 0 3) ∧ 0b11110#5 ++ b.extractLsb' 0 3 = b ∧ classify64 b = some 4) ∨
      (decodeTag64 b = .tier5W64 (b.extractLsb' 0 2) ∧ 0b111110#6 ++ b.extractLsb' 0 2 = b ∧
        classify64 b = some 5)) ∨
      ((decodeTag64 b = .tier6W64 (b.extractLsb' 0 1) ∧ 0b1111110#7 ++ b.extractLsb' 0 1 = b ∧
        classify64 b = some 6) ∨
      (decodeTag64 b = .tier7W64 ∧ 0xFE = b ∧ classify64 b = some 7) ∨
      (decodeTag64 b = .tier8Esc64 ∧ 0xFF = b ∧ classify64 b = some 8)) := by
    apply forall_byte
    decide +kernel
  rcases key b with (⟨h, hb, hc⟩ | ⟨h, hb, hc⟩ | ⟨h, hb, hc⟩) | (⟨h, hb, hc⟩ | ⟨h, hb, hc⟩ | ⟨h, hb, hc⟩) |
    ⟨h, hb, hc⟩ | ⟨h, hb, hc⟩ | ⟨h, hb, hc⟩
  · rw [h, hc]; exact congrArg (acceptTag .w64 0 · s) hb
  · rw [h, hc]; exact congrArg (acceptTag .w64 1 · s) hb
  · rw [h, hc]; exact congrArg (acceptTag .w64 2 · s) hb
  · rw [h, hc]; exact congrArg (acceptTag .w64 3 · s) hb
  · rw [h, hc]; exact congrArg (acceptTag .w64 4 · s) hb
  · rw [h, hc]; exact congrArg (acceptTag .w64 5 · s) hb
  · rw [h, hc]; exact congrArg (acceptTag .w64 6 · s) hb
  · rw [h, hc]; exact congrArg (acceptTag .w64 7 · s) hb
  · rw [h, hc]; exact congrArg (acceptTag .w64 8 · s) hb

/-- A first byte is accepted at its tier or rejected, as `classify_W` says (R85). -/
theorem exec_decodeTag (w : Width) (b : Byte) (s : State) :
    exec (decodeByte w.tagFormat b) s =
      match classify w b with
      | some k => acceptTag w k b s
      | none => rejectTag w b s := by
  cases w
  · exact exec_decodeTag32 b s
  · exact exec_decodeTag64 b s

end Sys2Proof.Machine
end

