-- ==== Sys2Proof/Laws/Step.lean ====
section
/-! SUPPORT. What one step can do, said once: the acting instance's block takes one of the moves of `BlockStep`,
and `ActSpec` bounds everything else. Invariants and frames follow by cases on these two. -/

namespace Sys2Proof.Machine

open Sys2Proof

/-- The moves of a block, with what moves it from outside if anything does. -/
inductive BlockStep (b : Block) : Option Cause → Block → Prop where
  | same {o} : BlockStep b o b
  | argWrite (v : Nat) (hb : b.busy = false) :
      BlockStep b (some (.write 1 v)) { b with arg := some (BitVec.ofNat 64 v) }
  | encStart (v : Nat) (a : Word64) (hb : b.busy = false) (hl : (BitVec.ofNat 8 v).extractLsb' 3 5 = 0)
      (hd : (opOfCmd (BitVec.ofNat 8 v)).dir = .enc) (ha : b.arg = some a) :
      BlockStep b (some (.write 0 v))
        ((b.latch (opOfCmd (BitVec.ofNat 8 v))).encoderStart (opOfCmd (BitVec.ofNat 8 v)).width a)
  | decStart (v : Nat) (hb : b.busy = false) (hl : (BitVec.ofNat 8 v).extractLsb' 3 5 = 0)
      (hd : (opOfCmd (BitVec.ofNat 8 v)).dir = .dec) :
      BlockStep b (some (.write 0 v)) { b.latch (opOfCmd (BitVec.ofNat 8 v)) with phase := .tag }
  | illegal (v : Nat) (hb : b.busy = false) (hl : (BitVec.ofNat 8 v).extractLsb' 3 5 ≠ 0) :
      BlockStep b (some (.write 0 v)) (b.clearResult.raise .illegalCommand)
  | emitOk (a : Answer) (hp : b.phase = .emit) (ha : a.fails = false) : BlockStep b (some (.answer a)) b.emitted
  | emitFault (a : Answer) (hp : b.phase = .emit) : BlockStep b (some (.answer a)) (b.raise (.outFault a.info))
  | readFault (a : Answer) (hp : b.phase = .tag ∨ b.phase = .body) :
      BlockStep b (some (.answer a)) (b.raise (.inFault a.info))
  | tagFinish (a : Answer) (b0 : Byte) (hp : b.phase = .tag) (ha : a.fails = false)
      (hc : classify b.op.width b0 = some 0) :
      BlockStep b (some (.answer a))
        { b.tagged b.op.width 0 b0 with res := some (BitVec.ofNat 64 (b0 &&& 0x7F).toNat) }.finish
  | tagGoOn (a : Answer) (b0 : Byte) (k : Nat) (hp : b.phase = .tag) (ha : a.fails = false)
      (hc : classify b.op.width b0 = some k) (hk : k ≠ 0) :
      BlockStep b (some (.answer a)) { b.tagged b.op.width k b0 with phase := .body }
  | tagReject (a : Answer) (b0 : Byte) (hp : b.phase = .tag) (ha : a.fails = false)
      (hc : classify b.op.width b0 = none) :
      BlockStep b (some (.answer a)) ((b.takeTag b0).raise (.unrecognizedTag b0))
  | bodyOk (a : Answer) (byte : Byte) (hp : b.phase = .body) (ha : a.fails = false) (hj : b.j < 9) :
      BlockStep b (some (.answer a)) (b.takeBody byte)
  | reset : BlockStep b (some .reset) Block.reset

/-- What an action may do to an instance's queues: a program that waits for its held write still has one among the
held writes, and a program that is over stays over. -/
structure QueueStep (i j : Inst) : Prop where
  waits : i.pending ≤ i.held.length → j.pending ≤ j.held.length
  ended : i.program = [] → i.pending = 0 → j.program = [] ∧ j.pending = 0

theorem queueStep_same {i j : Inst} (hh : j.held = i.held) (hp : j.program = i.program) (hw : j.pending = i.pending) :
    QueueStep i j := ⟨by rw [hh, hw]; exact id, by rw [hp, hw]; exact fun h1 h2 => ⟨h1, h2⟩⟩

theorem queueStep_trans {i j k : Inst} (h : QueueStep i j) (h' : QueueStep j k) : QueueStep i k :=
  ⟨fun hi => h'.waits (h.waits hi), fun h1 h2 => h'.ended (h.ended h1 h2).1 (h.ended h1 h2).2⟩

/-- What one action of the acting instance does: a move of its block, and bounds on the rest. -/
structure ActSpec (o : Option Cause) (s t : State) : Prop where
  before : t.before = s.before
  after : t.after = s.after
  schedule : t.schedule = s.schedule
  block : BlockStep s.cur.block o t.cur.block
  queues : QueueStep s.cur t.cur
  inLen : s.inStreams.length ≤ t.inStreams.length
  outLen : s.outStreams.length ≤ t.outStreams.length
  inPort : t.cur.inPort = s.cur.inPort ∨ ∃ id, t.cur.inPort = some id ∧ id < t.inStreams.length
  outPort : t.cur.outPort = s.cur.outPort ∨ ∃ id, t.cur.outPort = some id ∧ id < t.outStreams.length
  unshared : t.cur.busy = true →
    (s.cur.busy = true ∧ t.cur.inPort = s.cur.inPort ∧ t.cur.outPort = s.cur.outPort) ∨ s.conflicts t.cur = false

theorem ActSpec.curNum {o : Option Cause} {s t : State} (h : ActSpec o s t) : t.curNum = s.curNum := by
  simp [State.curNum, h.before]

/-- The conflict check asks only the other instances, and the ports of the instance it is given. -/
theorem conflicts_congr {s s' : State} {i i' : Inst} (hb : s'.before = s.before) (ha : s'.after = s.after)
    (hi : i'.inPort = i.inPort) (ho : i'.outPort = i.outPort) : s'.conflicts i' = s.conflicts i := by
  simp [State.conflicts, Inst.sharesStream, hb, ha, hi, ho]

/-- An action that only moves the acting block, without a launch. -/
theorem actSpec_setBlock {o : Option Cause} {s : State} {b : Block} (h : BlockStep s.cur.block o b)
    (hb : b.busy = true → s.cur.block.busy = true) : ActSpec o s (s.setBlock b) where
  before := rfl
  after := rfl
  schedule := rfl
  block := h
  queues := queueStep_same rfl rfl rfl
  inLen := Nat.le_refl _
  outLen := Nat.le_refl _
  inPort := .inl rfl
  outPort := .inl rfl
  unshared := fun ht => .inl ⟨hb ht, rfl, rfl⟩

/-- An action that moves the acting block into a launch that the conflict check passed. -/
theorem actSpec_launch {o : Option Cause} {s : State} {b : Block} (h : BlockStep s.cur.block o b)
    (hc : s.conflicts s.cur = false) : ActSpec o s (s.setBlock b) where
  before := rfl
  after := rfl
  schedule := rfl
  block := h
  queues := queueStep_same rfl rfl rfl
  inLen := Nat.le_refl _
  outLen := Nat.le_refl _
  inPort := .inl rfl
  outPort := .inl rfl
  unshared := fun _ => .inr (by rw [← hc]; exact conflicts_congr rfl rfl rfl rfl)

/-- An action that leaves the acting block, the ports and the streams alone. -/
theorem actSpec_quiet {o : Option Cause} {s t : State} (hb : t.before = s.before) (ha : t.after = s.after)
    (hs : t.schedule = s.schedule) (hk : t.cur.block = s.cur.block) (hi : t.cur.inPort = s.cur.inPort)
    (ho : t.cur.outPort = s.cur.outPort) (hil : t.inStreams = s.inStreams) (hol : t.outStreams = s.outStreams)
    (hq : QueueStep s.cur t.cur) : ActSpec o s t where
  before := hb
  after := ha
  schedule := hs
  block := hk ▸ .same
  queues := hq
  inLen := Nat.le_of_eq (by rw [hil])
  outLen := Nat.le_of_eq (by rw [hol])
  inPort := .inl hi
  outPort := .inl ho
  unshared := fun ht => .inl ⟨by simpa [Inst.busy, hk] using ht, hi, ho⟩

theorem actSpec_refl {o : Option Cause} (s : State) : ActSpec o s s :=
  actSpec_quiet rfl rfl rfl rfl rfl rfl rfl rfl (queueStep_same rfl rfl rfl)

/-- An action after a change of the acting instance's queues. -/
theorem actSpec_of_queues {o : Option Cause} {s t : State} {i : Inst} (h : ActSpec o (s.setCur i) t)
    (hk : i.block = s.cur.block) (hi : i.inPort = s.cur.inPort) (ho : i.outPort = s.cur.outPort)
    (hq : QueueStep s.cur i) : ActSpec o s t where
  before := h.before
  after := h.after
  schedule := h.schedule
  block := hk ▸ h.block
  queues := queueStep_trans hq h.queues
  inLen := h.inLen
  outLen := h.outLen
  inPort := hi ▸ h.inPort
  outPort := ho ▸ h.outPort
  unshared := fun ht => by
    have := h.unshared ht
    simp only [setCur_cur, Inst.busy, hk, hi, ho] at this
    exact this

/-- A change of the streams that keeps their number, then a move of the acting block that launches nothing. -/
theorem actSpec_streams {o : Option Cause} {s s' : State} {b : Block} (hb : s'.before = s.before)
    (ha : s'.after = s.after) (hs : s'.schedule = s.schedule) (hc : s'.cur = s.cur)
    (hi : s'.inStreams.length = s.inStreams.length) (ho : s'.outStreams.length = s.outStreams.length)
    (h : BlockStep s.cur.block o b) (hbusy : b.busy = true → s.cur.block.busy = true) :
    ActSpec o s (s'.setBlock b) where
  before := hb
  after := ha
  schedule := hs
  block := h
  queues := queueStep_same (by rw [setBlock_cur_held, hc]) (by rw [setBlock_cur_program, hc])
    (by rw [setBlock_cur_pending, hc])
  inLen := Nat.le_of_eq hi.symm
  outLen := Nat.le_of_eq ho.symm
  inPort := .inl (by rw [setBlock_cur_inPort, hc])
  outPort := .inl (by rw [setBlock_cur_outPort, hc])
  unshared := fun ht => .inl ⟨hbusy ht, by rw [setBlock_cur_inPort, hc], by rw [setBlock_cur_outPort, hc]⟩

theorem busy_emitted {b : Block} (h : b.emitted.busy = true) : b.busy = true := by
  unfold Block.emitted at h
  simp only at h
  split at h
  · simp at h
  · exact h

theorem busy_takeBody {b : Block} {byte : Byte} (h : (b.takeBody byte).busy = true) : b.busy = true := by
  unfold Block.takeBody at h
  simp only at h
  split at h
  · simp at h
  · exact h

/-- A held write changes the queue alone. -/
theorem actSpec_hold {o : Option Cause} (s : State) (w : HostWrite) : ActSpec o s (s.hold w) :=
  actSpec_quiet rfl rfl rfl rfl rfl rfl rfl rfl
    ⟨fun h => by simp only [hold_cur_pending, hold_cur_held, List.length_append]; omega, fun h1 h2 => ⟨h1, h2⟩⟩

theorem exec_decodeCmd_spec {v : Nat} {s t : State} (h : exec (decodeCmd (BitVec.ofNat 8 v)) s = .next t) :
    ActSpec (some (.write 0 v)) s t := by
  rw [exec_decodeCmd] at h
  split at h
  · rename_i hl
    rcases startCommand_cases h with ⟨_, rfl⟩ | ⟨hb, hc, ⟨hd, a, ha, rfl⟩ | ⟨hd, rfl⟩⟩
    · exact actSpec_hold ..
    · exact actSpec_launch (.encStart v a hb hl hd ha) hc
    · exact actSpec_launch (.decStart v hb hl hd) hc
  · rename_i hl
    rcases illegalCommand_cases h with ⟨_, rfl⟩ | ⟨hb, rfl⟩
    · exact actSpec_hold ..
    · exact actSpec_setBlock (.illegal v hb hl) (by simp)

theorem hostWrite_spec {r : RegNum} {v : Nat} {s t : State} (h : hostWrite r v s = .next t) :
    ActSpec (some (.write r v)) s t := by
  unfold hostWrite at h
  split at h
  · rename_i hr
    subst hr
    exact exec_decodeCmd_spec h
  · split at h
    · cases h
      exact actSpec_hold ..
    · rename_i hb
      split at h
      · rename_i hr
        subst hr
        cases h
        exact actSpec_setBlock (.argWrite v (by simpa [Inst.busy] using hb)) (fun x => x)
      · split at h <;> cases h
        exact actSpec_refl s

/-- Every write presented while BUSY is held (R29). -/
theorem hostWrite_busy {r : RegNum} {v : Nat} {s : State} (hb : s.cur.busy = true) :
    ∃ w, hostWrite r v s = .next (s.hold w) := by
  unfold hostWrite
  split
  · rw [exec_decodeCmd]
    split
    · exact ⟨⟨0, (BitVec.ofNat 8 v).toNat⟩, by simp [startCommand, hb]⟩
    · exact ⟨⟨0, (BitVec.ofNat 8 v).toNat⟩, by simp [illegalCommand, hb]⟩
  · exact ⟨⟨r, v⟩, by simp⟩

theorem hostRead_spec {r : RegNum} {s t : State} (h : hostRead r s = .next t) : ActSpec none s t := by
  obtain ⟨v, _, rfl⟩ := hostRead_cases h
  exact actSpec_quiet rfl rfl rfl rfl rfl rfl rfl rfl (queueStep_same rfl rfl rfl)

/-- What an access brings to the block. -/
def Access.cause : Access → Option Cause
  | .read _ => none
  | .write r v => some (.write r v)

theorem hostAccess_spec {a : Access} {s t : State} (h : hostAccess a s = .next t) : ActSpec a.cause s t := by
  cases a
  · exact hostRead_spec h
  · exact hostWrite_spec h

/-- The oldest held write completes, or none is held. -/
theorem completeHeld_spec {s t : State} (h : completeHeld s = .next t) :
    (s.cur.held = [] ∧ ActSpec none s t) ∨
    ∃ w ws, s.cur.held = w :: ws ∧ ActSpec (some (.write w.reg w.val)) s t := by
  unfold completeHeld at h
  split at h
  · cases h
    exact .inl ⟨‹_›, actSpec_refl s⟩
  · rename_i w ws hw
    refine .inr ⟨w, ws, hw, actSpec_of_queues (hostWrite_spec h) rfl rfl rfl ⟨fun hp => ?_, fun h1 h2 => ⟨h1, ?_⟩⟩⟩
    · rw [hw] at hp
      simp only [List.length_cons] at hp ⊢
      omega
    · show s.cur.pending - 1 = 0
      omega

theorem attachInput_spec {id : Nat} {s t : State} (hid : id < s.inStreams.length)
    (h : attachInput id s = .next t) : ActSpec none s t := by
  unfold attachInput at h
  simp only at h
  split at h
  · cases h
  · split at h
    · cases h
    · rename_i hc
      cases h
      refine ⟨rfl, rfl, rfl, .same, queueStep_same rfl rfl rfl, Nat.le_refl _, Nat.le_refl _, .inr ⟨id, rfl, hid⟩,
        .inl rfl, fun ht => ?_⟩
      exact .inr (by simpa [show s.cur.busy = true from ht] using hc)

theorem attachOutput_spec {id : Nat} {s t : State} (hid : id < s.outStreams.length)
    (h : attachOutput id s = .next t) : ActSpec none s t := by
  unfold attachOutput at h
  simp only at h
  split at h
  · cases h
  · split at h
    · cases h
    · rename_i hc
      cases h
      refine ⟨rfl, rfl, rfl, .same, queueStep_same rfl rfl rfl, Nat.le_refl _, Nat.le_refl _, .inl rfl,
        .inr ⟨id, rfl, hid⟩, fun ht => ?_⟩
      exact .inr (by simpa [show s.cur.busy = true from ht] using hc)

/-- An action after new streams were put behind those there are. -/
theorem actSpec_of_streams {o : Option Cause} {s t : State} {xs : List InStream} {ys : List OutStream}
    (h : ActSpec o { s with inStreams := s.inStreams ++ xs, outStreams := s.outStreams ++ ys } t) :
    ActSpec o s t :=
  ⟨h.before, h.after, h.schedule, h.block, h.queues,
    Nat.le_trans (by simp) h.inLen, Nat.le_trans (by simp) h.outLen, h.inPort, h.outPort, h.unshared⟩

/-- What a line brings to the block. -/
def Line.cause : Line → Option Cause
  | .access a => a.cause
  | _ => none

/-- Every line but `wait`, which stays on the program. -/
theorem runLine_spec {l : Line} {s t : State} (hl : l ≠ .wait) (h : runLine l s = .next t) :
    ActSpec l.cause s t := by
  cases l with
  | access a => exact hostAccess_spec h
  | wait => exact absurd rfl hl
  | attachIn data =>
    exact actSpec_of_streams (xs := [⟨data, none, 0⟩]) (ys := [])
      (attachInput_spec (id := s.inStreams.length) (by simp) (by simpa [runLine] using h))
  | attachOut =>
    exact actSpec_of_streams (xs := []) (ys := [⟨[]⟩])
      (attachOutput_spec (id := s.outStreams.length) (by simp) (by simpa [runLine] using h))
  | attachInStream id =>
    simp only [runLine] at h
    split at h
    · exact attachInput_spec ‹_› h
    · cases h
  | attachOutStream id =>
    simp only [runLine] at h
    split at h
    · exact attachOutput_spec ‹_› h
    · cases h

/-- A line taken off the program leaves the queues sound, unless it is a write that is about to be held. -/
theorem queueStep_present {i : Inst} {l : Line} {ls : List Line} (hp : i.program = l :: ls)
    (hw : (l.isWrite && i.busy) = false) : QueueStep i (i.present l ls) :=
  ⟨fun _ => by simp [Inst.present, hw], fun h => by rw [hp] at h; cases h⟩

/-- The host's turn does nothing, or runs the next line of the program. -/
theorem hostTurn_spec {s t : State} (h : hostTurn s = .next t) :
    t = s ∨ ∃ l ls, s.cur.pending = 0 ∧ s.cur.program = l :: ls ∧ ActSpec l.cause s t := by
  unfold hostTurn at h
  split at h
  · cases h
    exact .inl rfl
  · rename_i hp
    split at h
    · cases h
      exact .inl rfl
    · rename_i l ls hl
      refine .inr ⟨l, ls, by simpa using hp, hl, ?_⟩
      by_cases hw : l.isWrite && s.cur.busy
      · obtain ⟨h1, hb⟩ := by simpa using hw
        obtain ⟨r, v, rfl⟩ : ∃ r v, l = .access (.write r v) := by
          cases l with
          | access a => cases a with
            | read r => cases h1
            | write r v => exact ⟨r, v, rfl⟩
          | _ => cases h1
        obtain ⟨w, hs⟩ := hostWrite_busy (r := r) (v := v) (s := s.setCur (s.cur.present (.access (.write r v)) ls)) hb
        have ht := hs.symm.trans h
        cases ht
        refine actSpec_quiet rfl rfl rfl rfl rfl rfl rfl rfl ⟨fun _ => ?_, fun h => by rw [hl] at h; cases h⟩
        simp [Inst.present, Line.isWrite, hb]
      · have hw' : (l.isWrite && s.cur.busy) = false := by simpa using hw
        by_cases hx : l = .wait
        · subst hx
          simp only [runLine, waitLine] at h
          have hq : ∀ j : Inst, j.held = s.cur.held → j.pending = 0 → QueueStep s.cur j := fun j hj hj' =>
            ⟨fun _ => by rw [hj']; exact Nat.zero_le _, fun h => by rw [hl] at h; cases h⟩
          split at h <;> cases h <;> exact actSpec_quiet rfl rfl rfl rfl rfl rfl rfl rfl (hq _ rfl rfl)
        · exact actSpec_of_queues (runLine_spec hx h) rfl rfl rfl (queueStep_present hl hw')

theorem emitStep_spec {a : Answer} {s t : State} (hp : s.cur.block.phase = .emit) (h : emitStep a s = .next t) :
    ActSpec (some (.answer a)) s t := by
  unfold emitStep at h
  split at h
  · cases h
  · rename_i byte _
    rcases outWrite_cases a byte s with ⟨_, hw⟩ | ⟨id, st, _, ⟨ha, hw⟩ | ⟨ha, hw⟩⟩ <;> rw [hw] at h <;> cases h
    · exact actSpec_refl s
    · exact actSpec_streams rfl rfl rfl rfl rfl (by simp) (.emitOk a hp ha) busy_emitted
    · split <;> exact actSpec_streams rfl rfl rfl rfl rfl (by simp) (.emitFault a hp) (by simp)

theorem bodyStep_spec {a : Answer} {s t : State} (hp : s.cur.block.phase = .body) (h : bodyStep a s = .next t) :
    ActSpec (some (.answer a)) s t := by
  unfold bodyStep at h
  split at h
  · rename_i hj
    rcases inRead_cases a s with ⟨_, hr⟩ | ⟨id, st, _, ⟨b, ha, _, hr⟩ | ⟨_, hr⟩⟩ <;> rw [hr] at h <;> cases h
    · exact actSpec_refl s
    · exact actSpec_streams rfl rfl rfl rfl (by simp) rfl (.bodyOk a b hp ha hj) busy_takeBody
    · exact actSpec_streams rfl rfl rfl rfl (by simp) rfl (.readFault a (.inr hp)) (by simp)
  · cases h

theorem tagStep_spec {a : Answer} {s t : State} (hp : s.cur.block.phase = .tag) (h : tagStep a s = .next t) :
    ActSpec (some (.answer a)) s t := by
  unfold tagStep at h
  rcases inRead_cases a s with ⟨_, hr⟩ | ⟨id, st, _, ⟨b, ha, _, hr⟩ | ⟨_, hr⟩⟩ <;> rw [hr] at h
  · cases h
    exact actSpec_refl s
  · simp only [exec_decodeTag] at h
    split at h
    · rename_i k hk
      rcases acceptTag_cases h with ⟨_, ⟨rfl, rfl⟩ | ⟨hk0, rfl⟩⟩
      · exact actSpec_streams rfl rfl rfl rfl (by simp) rfl (.tagFinish a b hp ha hk) (by simp)
      · exact actSpec_streams rfl rfl rfl rfl (by simp) rfl (.tagGoOn a b k hp ha hk hk0) (fun x => x)
    · rename_i hk
      obtain ⟨_, rfl⟩ := rejectTag_cases h
      exact actSpec_streams rfl rfl rfl rfl (by simp) rfl (.tagReject a b hp ha hk) (by simp)
  · cases h
    exact actSpec_streams rfl rfl rfl rfl (by simp) rfl (.readFault a (.inl hp)) (by simp)

theorem microStep_spec {a : Answer} {s t : State} (h : microStep a s = .next t) : ActSpec (some (.answer a)) s t := by
  unfold microStep at h
  split at h
  · cases h
    exact actSpec_refl s
  · exact emitStep_spec ‹_› h
  · exact tagStep_spec ‹_› h
  · exact bodyStep_spec ‹_› h

theorem resetTurn_spec {s t : State} (h : resetTurn s = .next t) : ActSpec (some .reset) s t := by
  cases h
  exact actSpec_setBlock .reset (fun hb => absurd hb (by decide))

theorem onInst_cases {n : Nat} {f : State → Result} {s t : State} (h : onInst n f s = .next t) :
    ∃ s', focus n s = some s' ∧ f s' = .next t := by
  unfold onInst at h
  split at h
  · cases h
  · exact ⟨_, ‹_›, h⟩

/-- Everything a step can do: nothing, or one action of the instance whose turn it is, moved by what the step
delivers to it. -/
theorem step_cases {s t : State} (h : step s = .next t) :
    (s.readyInst = none ∧ s.schedule = [] ∧ t = s) ∨
    ∃ n s' turns o, actor s = some n ∧ focus n { s with schedule := turns } = some s' ∧ ActSpec o s' t ∧
      ∀ c, o = some c → s.delivers n c := by
  unfold step nextMove at h
  split at h
  · rename_i n hr
    obtain ⟨s', hf, ha⟩ := onInst_cases h
    obtain ⟨_, _, hcur, _⟩ := focus_spec hf
    have hact : actor s = some n := by simp [actor, hr]
    rcases completeHeld_spec ha with ⟨_, ha⟩ | ⟨w, ws, hw, ha⟩
    · exact .inr ⟨n, s', s.schedule, none, hact, hf, ha, by simp⟩
    · refine .inr ⟨n, s', s.schedule, _, hact, hf, ha, ?_⟩
      rintro c ⟨⟩
      exact .inl ⟨hr, s'.cur, ws, hcur, hw⟩
  · rename_i hr
    split at h
    · rename_i hs
      cases h
      exact .inl ⟨hr, hs, rfl⟩
    · rename_i u rest hs
      cases u with
      | host n =>
        obtain ⟨s', hf, ha⟩ := onInst_cases h
        obtain ⟨_, _, hcur, _⟩ := focus_spec hf
        rcases hostTurn_spec ha with rfl | ⟨l, ls, hp, hl, ha⟩
        · exact .inr ⟨n, t, rest, none, by simp [actor, hr, hs], hf, actSpec_refl t, by simp⟩
        · refine .inr ⟨n, s', rest, _, by simp [actor, hr, hs], hf, ha, ?_⟩
          intro c hc
          cases l with
          | access a =>
            cases a with
            | read r => cases hc
            | write r v =>
              cases hc
              exact .inr (.inr ⟨hr, ⟨rest, hs⟩, s'.cur, ls, hcur, hp, hl⟩)
          | _ => cases hc
      | access n a =>
        obtain ⟨s', hf, ha⟩ := onInst_cases h
        refine .inr ⟨n, s', rest, _, by simp [actor, hr, hs], hf, hostAccess_spec ha, ?_⟩
        intro c hc
        cases a with
        | read r => cases hc
        | write r v =>
          cases hc
          exact .inr (.inl ⟨hr, rest, hs⟩)
      | answer n a =>
        obtain ⟨s', hf, ha⟩ := onInst_cases h
        refine .inr ⟨n, s', rest, _, by simp [actor, hr, hs], hf, microStep_spec ha, ?_⟩
        rintro c ⟨⟩
        exact ⟨hr, rest, hs⟩
      | reset n =>
        obtain ⟨s', hf, ha⟩ := onInst_cases h
        refine .inr ⟨n, s', rest, _, by simp [actor, hr, hs], hf, resetTurn_spec ha, ?_⟩
        rintro c ⟨⟩
        exact ⟨hr, rest, hs⟩

end Sys2Proof.Machine
end

