-- ==== Sys2Proof/Laws/Invariant.lean ====
section
/-! SUPPORT. Soundness of a block under its moves, and the move that a step makes of one instance. -/

namespace Sys2Proof.Machine

open Sys2Proof

/-- R110. -/
theorem reset_sound : Block.reset.Sound where
  reserved := by decide
  errKnown := ⟨.noError, by decide⟩
  errState := by decide
  errByte := by decide
  busyPhase := by decide
  lenLe := by decide
  phaseOk := trivial

theorem argValue_lt (w : Width) (a : Word64) : argValue w a < 2 ^ widthBits w := Nat.mod_lt _ (by positivity)

/-- A block is sound after `raise` (R93) where its own fields were. -/
theorem raise_sound {b : Block} (e : HwError) (hr : statusReserved b.status = 0)
    (hl : b.len.toNat ≤ 9)
    (he : match e with | .unrecognizedTag x => 0xF1 ≤ x.toNat | _ => statusErrByte b.status = 0) :
    (b.raise e).Sound where
  reserved := by simpa using hr
  errKnown := ⟨e.errCode, by simp⟩
  errState := by cases e <;> simp [HwError.errCode]
  errByte := by
    cases e <;> simp [HwError.errCode, HwError.recordByte] <;> simpa using he
  busyPhase := by simp
  lenLe := by simpa using hl
  phaseOk := trivial

/-- A sound BUSY block has no error (R19). -/
theorem busy_status {b : Block} (h : b.Sound) (hb : b.busy = true) :
    statusErr b.status = ErrCode.noError.code ∧ statusErrByte b.status = 0 := by
  have h1 : statusErr b.status = ErrCode.noError.code := by
    by_contra hc
    have := h.errState.1 hc
    rw [(busy_iff b).1 hb] at this
    exact absurd this (by decide)
  have := h.errByte
  rw [h1] at this
  exact ⟨h1, by simpa using this⟩

/-- A block is sound after `finish` (R22). -/
theorem finish_sound {b : Block} (hr : statusReserved b.status = 0) (hl : b.len.toNat ≤ 9)
    (h1 : statusErr b.status = ErrCode.noError.code) (h2 : statusErrByte b.status = 0) : b.finish.Sound where
  reserved := by simpa using hr
  errKnown := ⟨.noError, by simpa using h1⟩
  errState := by simp [h1]
  errByte := by simp [h1, h2]
  busyPhase := by simp
  lenLe := by simpa using hl
  phaseOk := trivial

/-- A BUSY block stays sound while it goes on with its `STATUS` unchanged. -/
theorem running_sound {b b' : Block} (h : b.Sound) (hb : b.busy = true) (hs : b'.status = b.status)
    (hp : b'.phase ≠ .none) (hl : b'.len.toNat ≤ 9) (hi : b'.phaseInv) : b'.Sound where
  reserved := by rw [hs]; exact h.reserved
  errKnown := by rw [hs]; exact h.errKnown
  errState := by rw [hs]; exact h.errState
  errByte := by rw [hs]; exact h.errByte
  busyPhase := by rw [busy_congr hs]; simp [hb, hp]
  lenLe := hl
  phaseOk := hi

/-- A block is sound after a command start (R30). -/
theorem latched_sound {b b' : Block} (h : b.Sound) (hs : b'.status = (b.latch b'.op).status)
    (hp : b'.phase ≠ .none) (hl : b'.len.toNat ≤ 9) (hi : b'.phaseInv) : b'.Sound where
  reserved := by rw [hs]; simpa using h.reserved
  errKnown := by rw [hs]; exact ⟨.noError, by simp⟩
  errState := by rw [hs]; simp
  errByte := by rw [hs]; simp
  busyPhase := by rw [busy_congr hs]; simp [hp]
  lenLe := hl
  phaseOk := hi

theorem len_succ {x : Byte} (h : x.toNat < 255) : (x + 1).toNat = x.toNat + 1 := by
  rw [BitVec.toNat_add]; simp; omega

/-- Every move of a block keeps it sound. -/
theorem blockStep_sound {b b' : Block} {o} (h : b.Sound) (hs : BlockStep b o b') : b'.Sound := by
  cases hs with
  | same => exact h
  | argWrite v hb =>
    have hp : b.phase = .none := by
      by_contra hc; rw [h.busyPhase.2 hc] at hb; cases hb
    exact ⟨h.reserved, h.errKnown, h.errState, h.errByte, h.busyPhase, h.lenLe, by simp [Block.phaseInv, hp]⟩
  | encStart n v hb hl hd hv =>
    generalize opOfCmd (BitVec.ofNat 8 n) = op at *
    apply latched_sound h rfl (by simp) (by simp)
    have h8 : extraBytes op.width (tierOf op.width (argValue op.width v)) ≤ 8 := extraBytes_le
    have := fillScratch_take b.scratch (enc op.width (argValue op.width v)) (by rw [enc_length]; omega)
    refine ⟨hd, ?_, rfl, argValue op.width v, argValue_lt _ _, rfl, rfl, this⟩
    simp
  | decStart n hb hl hd =>
    generalize opOfCmd (BitVec.ofNat 8 n) = op at *
    apply latched_sound h rfl (by simp) (by simp)
    exact ⟨hd, rfl, rfl⟩
  | illegal v hb hl => exact raise_sound _ (by simpa using h.reserved) (by simp) (by simp)
  | emitOk a hp ha =>
    have hb : b.busy = true := h.busyPhase.2 (by simp [hp])
    have hi := h.phaseOk; simp only [Block.phaseInv, hp] at hi
    obtain ⟨h1, h2, h3, v, hv, h4, h5, h6⟩ := hi
    have h8 : extraBytes b.op.width (tierOf b.op.width v) ≤ 8 := extraBytes_le
    have hl9 : b.nb ≤ 9 := by rw [h5, enc_length]; omega
    unfold Block.emitted; simp only
    split
    · refine finish_sound h.reserved ?_ (busy_status h hb).1 (busy_status h hb).2
      show (b.len + 1).toNat ≤ 9
      rw [len_succ (by omega)]; omega
    · rename_i hne
      refine running_sound h hb rfl (by simp [hp]) ?_ ?_
      · show (b.len + 1).toNat ≤ 9
        rw [len_succ (by omega)]; omega
      · simp only [Block.phaseInv, hp]
        refine ⟨h1, by omega, ?_, v, hv, h4, h5, h6⟩
        rw [len_succ (by omega)]; omega
  | emitFault a hp =>
    have hb : b.busy = true := h.busyPhase.2 (by simp [hp])
    exact raise_sound _ h.reserved h.lenLe (busy_status h hb).2
  | readFault a hp =>
    have hb : b.busy = true := h.busyPhase.2 (by rcases hp with hp | hp <;> simp [hp])
    exact raise_sound _ h.reserved h.lenLe (busy_status h hb).2
  | tagFinish a b0 hp ha hc =>
    have hb : b.busy = true := h.busyPhase.2 (by simp [hp])
    exact finish_sound h.reserved (by simp) (busy_status h hb).1 (busy_status h hb).2
  | tagGoOn a b0 k hp ha hc hk =>
    have hb : b.busy = true := h.busyPhase.2 (by simp [hp])
    refine running_sound h hb rfl (by simp) (by simp) ?_
    have hi := h.phaseOk; simp only [Block.phaseInv, hp] at hi
    refine ⟨hi.1, Nat.le_refl _, ?_, rfl, rfl, b0, ?_, hc⟩
    · simp; rw [Nat.pos_iff_ne_zero, Ne, extraBytes_eq_zero]; exact hk
    · simp
  | tagReject a b0 hp ha hc =>
    refine raise_sound _ h.reserved (by simp) ?_
    exact (classify_none.1 hc).2
  | bodyOk a byte hp ha hj =>
    have hb : b.busy = true := h.busyPhase.2 (by simp [hp])
    have hi := h.phaseOk; simp only [Block.phaseInv, hp] at hi
    obtain ⟨h1, h2, h3, h4, h5, b0, h6, h7⟩ := hi
    unfold Block.takeBody; simp only
    split
    · refine finish_sound h.reserved ?_ (busy_status h hb).1 (busy_status h hb).2
      show (b.len + 1).toNat ≤ 9
      rw [len_succ (by omega)]; omega
    · rename_i hne
      refine running_sound h hb rfl (by simp [hp]) ?_ ?_
      · show (b.len + 1).toNat ≤ 9
        rw [len_succ (by omega)]; omega
      · simp only [Block.phaseInv, hp]
        refine ⟨h1, by omega, by omega, ?_, h5, b0, ?_, h7⟩
        · rw [len_succ (by omega)]; omega
        · rw [Vector.getElem?_setIfInBounds]; rw [if_neg (by omega)]; exact h6
  | reset => exact reset_sound

theorem sharesStream_comm (a b : Inst) : a.sharesStream b = b.sharesStream a := by
  have : ∀ x y : Option Nat, samePort x y = samePort y x := by
    intro x y
    cases x <;> cases y <;> simp [samePort]
    rename_i p q
    by_cases h : p = q <;> simp [h, eq_comm]
  simp [Inst.sharesStream, this]

/-- What a step does to instance `n`: one move of its block by what the step delivers to it, if anything, and a
sound change of its queues. -/
theorem inst_move {s t : State} {n : Nat} {i i' : Inst} (hs : step s = .next t) (hi : s.instances[n]? = some i)
    (hi' : t.instances[n]? = some i') :
    ∃ o, BlockStep i.block o i'.block ∧ QueueStep i i' ∧ ∀ c, o = some c → s.delivers n c := by
  rcases step_cases hs with ⟨_, _, rfl⟩ | ⟨m, s', turns, o, _, hf, ha, ho⟩
  · rw [hi] at hi'
    cases hi'
    exact ⟨none, .same, queueStep_same rfl rfl rfl, by simp⟩
  · obtain ⟨h1, h2, h3, _⟩ := focus_spec hf
    rw [show State.instances { s with schedule := turns } = s.instances from rfl] at h1 h3
    by_cases hm : n = s'.curNum
    · have h4 : i = s'.cur := by
        rw [hm, h2, h3] at hi
        exact (Option.some.inj hi).symm
      have h5 : i' = t.cur := by
        rw [hm, ← ha.curNum, instances_curNum] at hi'
        exact (Option.some.inj hi').symm
      rw [h4, h5, hm, h2]
      exact ⟨o, ha.block, ha.queues, ho⟩
    · have := instances_other ha.before ha.after hm
      rw [h1, hi] at this
      rw [this] at hi'
      cases hi'
      exact ⟨none, .same, queueStep_same rfl rfl rfl, by simp⟩

end Sys2Proof.Machine
end

