-- ==== Sys2Proof/Laws/PerInstr.lean ====
section
/-! SUPPORT. Families of statements about the instructions as syntax, one lemma per constructor. -/

namespace Sys2Proof.Laws.RowFits

open Sys2Proof

/-- The byte of a well-formed instruction matches the instruction's row of the opcode table, and the row has the
instruction's format (R68). -/
def Statement (i : Instr) : Prop := i.wf = true → i.row.fits (encodeByte i) = true ∧ i.row.format = i.format

theorem encU32 : Statement .encU32 := by unfold Statement; decide

theorem decU32 : Statement .decU32 := by unfold Statement; decide

theorem encU64 : Statement .encU64 := by unfold Statement; decide

theorem decU64 : Statement .decU64 := by unfold Statement; decide

theorem encI32 : Statement .encI32 := by unfold Statement; decide

theorem decI32 : Statement .decI32 := by unfold Statement; decide

theorem encI64 : Statement .encI64 := by unfold Statement; decide

theorem decI64 : Statement .decI64 := by unfold Statement; decide

theorem reservedCmd08 (c : Byte) : Statement (.reservedCmd08 c) := by
  have h : ∀ x : Fin 256, Statement (.reservedCmd08 (BitVec.ofFin x)) := by unfold Statement; decide +kernel
  exact h c.toFin

theorem reservedCmd10 (c : Byte) : Statement (.reservedCmd10 c) := by
  have h : ∀ x : Fin 256, Statement (.reservedCmd10 (BitVec.ofFin x)) := by unfold Statement; decide +kernel
  exact h c.toFin

theorem reservedCmd20 (c : Byte) : Statement (.reservedCmd20 c) := by
  have h : ∀ x : Fin 256, Statement (.reservedCmd20 (BitVec.ofFin x)) := by unfold Statement; decide +kernel
  exact h c.toFin

theorem reservedCmd40 (c : Byte) : Statement (.reservedCmd40 c) := by
  have h : ∀ x : Fin 256, Statement (.reservedCmd40 (BitVec.ofFin x)) := by unfold Statement; decide +kernel
  exact h c.toFin

theorem reservedCmd80 (c : Byte) : Statement (.reservedCmd80 c) := by
  have h : ∀ x : Fin 256, Statement (.reservedCmd80 (BitVec.ofFin x)) := by unfold Statement; decide +kernel
  exact h c.toFin

theorem tier0W32 (p : BitVec 7) : Statement (.tier0W32 p) := by
  have h : ∀ x : Fin 128, Statement (.tier0W32 (BitVec.ofFin x)) := by unfold Statement; decide +kernel
  exact h p.toFin

theorem tier1W32 (p : BitVec 6) : Statement (.tier1W32 p) := by
  have h : ∀ x : Fin 64, Statement (.tier1W32 (BitVec.ofFin x)) := by unfold Statement; decide +kernel
  exact h p.toFin

theorem tier2W32 (p : BitVec 5) : Statement (.tier2W32 p) := by
  have h : ∀ x : Fin 32, Statement (.tier2W32 (BitVec.ofFin x)) := by unfold Statement; decide +kernel
  exact h p.toFin

theorem tier3W32 (p : BitVec 4) : Statement (.tier3W32 p) := by
  have h : ∀ x : Fin 16, Statement (.tier3W32 (BitVec.ofFin x)) := by unfold Statement; decide +kernel
  exact h p.toFin

theorem tier4Esc32 : Statement .tier4Esc32 := by unfold Statement; decide

theorem illegalTagF1 (b0 : Byte) : Statement (.illegalTagF1 b0) := by
  have h : ∀ x : Fin 256, Statement (.illegalTagF1 (BitVec.ofFin x)) := by unfold Statement; decide +kernel
  exact h b0.toFin

theorem illegalTagF2 (b0 : Byte) : Statement (.illegalTagF2 b0) := by
  have h : ∀ x : Fin 256, Statement (.illegalTagF2 (BitVec.ofFin x)) := by unfold Statement; decide +kernel
  exact h b0.toFin

theorem illegalTagF4 (b0 : Byte) : Statement (.illegalTagF4 b0) := by
  have h : ∀ x : Fin 256, Statement (.illegalTagF4 (BitVec.ofFin x)) := by unfold Statement; decide +kernel
  exact h b0.toFin

theorem illegalTagF8 (b0 : Byte) : Statement (.illegalTagF8 b0) := by
  have h : ∀ x : Fin 256, Statement (.illegalTagF8 (BitVec.ofFin x)) := by unfold Statement; decide +kernel
  exact h b0.toFin

theorem tier0W64 (p : BitVec 7) : Statement (.tier0W64 p) := by
  have h : ∀ x : Fin 128, Statement (.tier0W64 (BitVec.ofFin x)) := by unfold Statement; decide +kernel
  exact h p.toFin

theorem tier1W64 (p : BitVec 6) : Statement (.tier1W64 p) := by
  have h : ∀ x : Fin 64, Statement (.tier1W64 (BitVec.ofFin x)) := by unfold Statement; decide +kernel
  exact h p.toFin

theorem tier2W64 (p : BitVec 5) : Statement (.tier2W64 p) := by
  have h : ∀ x : Fin 32, Statement (.tier2W64 (BitVec.ofFin x)) := by unfold Statement; decide +kernel
  exact h p.toFin

theorem tier3W64 (p : BitVec 4) : Statement (.tier3W64 p) := by
  have h : ∀ x : Fin 16, Statement (.tier3W64 (BitVec.ofFin x)) := by unfold Statement; decide +kernel
  exact h p.toFin

theorem tier4W64 (p : BitVec 3) : Statement (.tier4W64 p) := by
  have h : ∀ x : Fin 8, Statement (.tier4W64 (BitVec.ofFin x)) := by unfold Statement; decide +kernel
  exact h p.toFin

theorem tier5W64 (p : BitVec 2) : Statement (.tier5W64 p) := by
  have h : ∀ x : Fin 4, Statement (.tier5W64 (BitVec.ofFin x)) := by unfold Statement; decide +kernel
  exact h p.toFin

theorem tier6W64 (p : BitVec 1) : Statement (.tier6W64 p) := by
  have h : ∀ x : Fin 2, Statement (.tier6W64 (BitVec.ofFin x)) := by unfold Statement; decide +kernel
  exact h p.toFin

theorem tier7W64 : Statement .tier7W64 := by unfold Statement; decide

theorem tier8Esc64 : Statement .tier8Esc64 := by unfold Statement; decide

end Sys2Proof.Laws.RowFits
end

