-- ==== Sys2Proof/Tests/Slice0.lean ====
section
/-! SUPPORT. Tests. Expected values come from spec/95_test_vectors.md or are worked out from the rule named;
a `witness_<Name>` theorem shows that the hypotheses of `Obligations.<Name>` can be met together. -/

namespace Sys2Proof.Tests

open Sys2Proof Sys2Proof.Machine Sys2Proof.Claims

/-! ### WellFormed: one ill-formed term for each check (R68) -/

theorem test_wf_refuses_reservedCmd08 : (Instr.reservedCmd08 0x07).wf = false := by decide
theorem test_wf_refuses_reservedCmd10 : (Instr.reservedCmd10 0x18).wf = false := by decide
theorem test_wf_refuses_reservedCmd20 : (Instr.reservedCmd20 0x30).wf = false := by decide
theorem test_wf_refuses_reservedCmd40 : (Instr.reservedCmd40 0x60).wf = false := by decide
theorem test_wf_refuses_reservedCmd80 : (Instr.reservedCmd80 0xC0).wf = false := by decide
theorem test_wf_refuses_illegalTagF1 : (Instr.illegalTagF1 0xF0).wf = false := by decide
theorem test_wf_refuses_illegalTagF2 : (Instr.illegalTagF2 0xF4).wf = false := by decide
theorem test_wf_refuses_illegalTagF4 : (Instr.illegalTagF4 0xF3).wf = false := by decide
theorem test_wf_refuses_illegalTagF8 : (Instr.illegalTagF8 0xF7).wf = false := by decide

/-! ### Decoding: for each constructor a word written out from the tables of R51, R52, R55, R56, R59 -/

theorem test_decode_encU32 : decodeCmd 0b00000000 = .encU32 := by decide
theorem test_decode_decU32 : decodeCmd 0b00000001 = .decU32 := by decide
theorem test_decode_encU64 : decodeCmd 0b00000010 = .encU64 := by decide
theorem test_decode_decU64 : decodeCmd 0b00000011 = .decU64 := by decide
theorem test_decode_encI32 : decodeCmd 0b00000100 = .encI32 := by decide
theorem test_decode_decI32 : decodeCmd 0b00000101 = .decI32 := by decide
theorem test_decode_encI64 : decodeCmd 0b00000110 = .encI64 := by decide
theorem test_decode_decI64 : decodeCmd 0b00000111 = .decI64 := by decide
theorem test_decode_reservedCmd08 : decodeCmd 0b00001011 = .reservedCmd08 0x0B := by decide
theorem test_decode_reservedCmd10 : decodeCmd 0b00110001 = .reservedCmd10 0x31 := by decide
theorem test_decode_reservedCmd20 : decodeCmd 0b01100111 = .reservedCmd20 0x67 := by decide
theorem test_decode_reservedCmd40 : decodeCmd 0b11000010 = .reservedCmd40 0xC2 := by decide
theorem test_decode_reservedCmd80 : decodeCmd 0b10000100 = .reservedCmd80 0x84 := by decide
theorem test_decode_tier0W32 : decodeTag32 0b01111110 = .tier0W32 0b1111110 := by decide
theorem test_decode_tier1W32 : decodeTag32 0b10110001 = .tier1W32 0b110001 := by decide
theorem test_decode_tier2W32 : decodeTag32 0b11010110 = .tier2W32 0b10110 := by decide
theorem test_decode_tier3W32 : decodeTag32 0b11101001 = .tier3W32 0b1001 := by decide
theorem test_decode_tier4Esc32 : decodeTag32 0b11110000 = .tier4Esc32 := by decide
theorem test_decode_illegalTagF1 : decodeTag32 0b11110001 = .illegalTagF1 0xF1 := by decide
theorem test_decode_illegalTagF2 : decodeTag32 0b11110011 = .illegalTagF2 0xF3 := by decide
theorem test_decode_illegalTagF4 : decodeTag32 0b11110110 = .illegalTagF4 0xF6 := by decide
theorem test_decode_illegalTagF8 : decodeTag32 0b11111101 = .illegalTagF8 0xFD := by decide
theorem test_decode_tier0W64 : decodeTag64 0b01000001 = .tier0W64 0b1000001 := by decide
theorem test_decode_tier1W64 : decodeTag64 0b10100000 = .tier1W64 0b100000 := by decide
theorem test_decode_tier2W64 : decodeTag64 0b11000011 = .tier2W64 0b00011 := by decide
theorem test_decode_tier3W64 : decodeTag64 0b11101110 = .tier3W64 0b1110 := by decide
theorem test_decode_tier4W64 : decodeTag64 0b11110101 = .tier4W64 0b101 := by decide
theorem test_decode_tier5W64 : decodeTag64 0b11111010 = .tier5W64 0b10 := by decide
theorem test_decode_tier6W64 : decodeTag64 0b11111101 = .tier6W64 0b1 := by decide
theorem test_decode_tier7W64 : decodeTag64 0b11111110 = .tier7W64 := by decide
theorem test_decode_tier8Esc64 : decodeTag64 0b11111111 = .tier8Esc64 := by decide

/-! ### The codec (95_test_vectors.md sections 2 and 3) -/

theorem test_enc32 : enc .w32 0x7F = [0x7F] ∧ enc .w32 0x80 = [0x80, 0x80] ∧ enc .w32 0x4000 = [0xC0, 0x40, 0x00] ∧
    enc .w32 0x0FFFFFFF = [0xEF, 0xFF, 0xFF, 0xFF] ∧ enc .w32 0x12345678 = [0xF0, 0x78, 0x56, 0x34, 0x12] := by
  decide

theorem test_enc64 : enc .w64 0x10000000 = [0xF0, 0x10, 0x00, 0x00, 0x00] ∧
    enc .w64 0x800000000 = [0xF8, 0x08, 0x00, 0x00, 0x00, 0x00] ∧
    enc .w64 0x0100000000000000 = [0xFF, 0x00, 0x00, 0x00, 0x00, 0x00, 0x00, 0x00, 0x01] := by decide

theorem test_dec32 : dec .w32 [0xC0, 0x40, 0x00] = .ok 0x4000 3 ∧
    dec .w32 [0xF0, 0x78, 0x56, 0x34, 0x12] = .ok 0x12345678 5 ∧ dec .w32 [0x05, 0xAA] = .ok 0x5 1 ∧
    dec .w32 [0xC0, 0x00, 0x7F] = .ok 0x7F 3 ∧ dec .w32 [0xF5, 0x01] = .unrecognized 0xF5 ∧
    dec .w32 [0xF0, 0x01, 0x02, 0x03] = .short 4 := by decide

theorem test_dec64 : dec .w64 [0xFD, 0xFF, 0xFF, 0xFF, 0xFF, 0xFF, 0xFF] = .ok 0x1FFFFFFFFFFFF 7 ∧
    dec .w64 [0xF5, 0x01, 0x02, 0x03, 0x04] = .ok 0x0501020304 5 ∧
    dec .w64 [0xFF, 0xEF, 0xCD, 0xAB, 0x89, 0x67, 0x45, 0x23, 0x01] = .ok 0x0123456789ABCDEF 9 := by decide

theorem test_signed : asUnsigned .w32 (-2) = 0xFFFFFFFE ∧ asSigned .w32 0xFFFFFFFF = -1 ∧
    asSigned .w64 0x8000000000000000 = -9223372036854775808 := by decide

/-! ### Small states -/

/-- The next state of a result, and the reset state where there is none. -/
def after (r : Result) : State :=
  match r with
  | .next s => s
  | _ => State.reset

/-- The result is a next state. -/
def isNext (r : Result) : Bool :=
  match r with
  | .next _ => true
  | _ => false

theorem after_eq {r : Result} (h : isNext r = true) : r = .next (after r) := by
  cases r
  · rfl
  · cases h
  · cases h

/-- An answer `ok`, and an answer `fault` that moves an input stream by two or lands an output byte. -/
def okAnswer : Answer := ⟨false, ⟨0⟩, 0, false⟩
def badAnswer : Answer := ⟨true, ⟨7⟩, 2, true⟩

/-- One instance with both ports attached, to an input stream of these bytes and an empty output stream. -/
def oneInst (arg : Option Word64) (data : List Byte) (turns : List Turn) : State :=
  { State.reset with
    cur := { Inst.reset with block := { Block.reset with arg := arg }, inPort := some 0, outPort := some 0 }
    after := []
    inStreams := [⟨data, none, 0⟩]
    outStreams := [⟨[]⟩]
    schedule := turns }

/-- Idle, `ARG = 0x4000`, `IN` at `C0 40 00`. -/
def idle : State := oneInst (some 0x4000) [0xC0, 0x40, 0x00] []

/-- `ENC.U32` of `0x4000` started; `DEC.U32` of `C0 40 00` started; its first byte read. -/
def emitting : State := after (exec .encU32 idle)
def tagging : State := after (exec .decU32 idle)
def body : State := after (microStep okAnswer tagging)

/-- A `DEC.U64` started on `FF` and eight bytes, and its first byte read. -/
def tagging64 : State :=
  after (exec .decU64 (oneInst none [0xFF, 0xEF, 0xCD, 0xAB, 0x89, 0x67, 0x45, 0x23, 0x01] []))

/-- With one turn to come. -/
def withTurn (s : State) (t : Turn) : State := { s with schedule := [t] }

/-- Two instances on the same two streams, the other one BUSY with an encode. -/
def sharing : State := { idle with after := [emitting.cur] }

/-! ### Single steps -/

/-- 95 section 5.2, command start. -/
theorem test_encU32_start : emitting.cur.block.status = 0x0001 ∧ emitting.cur.block.nb = 3 ∧
    emitting.cur.block.scratch.toList = [0xC0, 0x40, 0x00, 0, 0, 0, 0, 0, 0] := by decide

/-- 40 R75: only `ARG[31:0]` is encoded. -/
theorem test_encU32_ignores_upper : (after (exec .encU32 (oneInst (some 0x0000000100000005) [] []))).cur.block.scratch[0]?
    = some 0x05 := by decide

/-- 40 R76. -/
theorem test_encU64_start : (after (exec .encU64 (oneInst (some 0x0100000000000000) [] []))).cur.block.scratch.toList
    = [0xFF, 0x00, 0x00, 0x00, 0x00, 0x00, 0x00, 0x00, 0x01] := by decide

/-- 40 R77: `s = -1`. -/
theorem test_encI32_start : (after (exec .encI32 (oneInst (some 0xFFFFFFFF) [] []))).cur.block.scratch.toList.take 5
    = [0xF0, 0xFF, 0xFF, 0xFF, 0xFF] := by decide

/-- 40 R78: `s = -2^63`. -/
theorem test_encI64_start : (after (exec .encI64 (oneInst (some 0x8000000000000000) [] []))).cur.block.scratch.toList
    = [0xFF, 0x00, 0x00, 0x00, 0x00, 0x00, 0x00, 0x00, 0x80] := by decide

/-- 95 section 5.2, both emit steps: the second faults. -/
theorem test_emit_ok : (after (microStep okAnswer emitting)).outStreams = [⟨[0xC0]⟩] ∧
    (after (microStep okAnswer emitting)).cur.block.len = 1 := by decide

theorem test_emit_fault : (after (microStep badAnswer (after (microStep okAnswer emitting)))).cur.block.status = 0x000F ∧
    (after (microStep badAnswer (after (microStep okAnswer emitting)))).cur.block.faultInfo = some ⟨7⟩ := by decide

/-- 95 section 5.1: the tag step, and the last body step. -/
theorem test_decU32_tag : body.cur.block.phase = .body ∧ body.cur.block.tier = 2 ∧ body.cur.block.nb = 3 ∧
    body.cur.block.len = 1 := by decide

theorem test_decU32_done : (after (microStep okAnswer (after (microStep okAnswer body)))).cur.block.res = some 0x4000 ∧
    (after (microStep okAnswer (after (microStep okAnswer body)))).cur.block.status = 0x0002 := by decide

/-- 95 section 3.4: `F5` at W=32. -/
theorem test_illegal_tag : (after (microStep okAnswer (after (exec .decI32 (oneInst none [0xF5, 0x01] []))))).cur.block.status
    = 0xF507 := by decide

/-- 95 section 3.1: `F5` at W=64 goes on, as tier 4. -/
theorem test_tier4W64 : (after (microStep okAnswer (after (exec .decI64 (oneInst none [0xF5, 0x01] []))))).cur.block.tier
    = 4 := by decide

/-- 95 section 3.5: an empty stream. -/
theorem test_empty_stream : (after (microStep okAnswer (after (exec .decU64 (oneInst none [] []))))).cur.block.status
    = 0x000B := by decide

/-- 95 section 4: `0x0B` is reserved. -/
theorem test_reserved_command : (after (hostWrite 0 0x0B idle)).cur.block.status = 0x0013 := by decide

/-- 95 section 4: a read of `CMD`, and a write of `STATUS`. -/
theorem test_read_cmd : (after (hostRead 0 idle)).reads = [⟨0, 0, .byte 0x00⟩] := by decide

theorem test_write_status : isNext (hostWrite 4 0x05 idle) = true ∧
    (after (hostWrite 4 0x05 idle)).cur.block.status = 0x0000 := by decide

/-- 95 section 6, P5: `wr ARG, 5` while BUSY is held. -/
theorem test_held_write : (after (hostWrite 1 5 tagging)).cur.block.arg = some 0x4000 ∧
    (after (hostWrite 1 5 tagging)).cur.held = [⟨1, 5⟩] := by decide

/-- 95 section 6, P5, by the program's lines: the write is held, the program waits for it, and a write that another
master presents is held behind it and not waited for. -/
theorem test_program_waits_for_its_write :
    let s := after (hostTurn (tagging.setCur { tagging.cur with program := [.access (.write 1 5), .access (.read 1)] }))
    s.cur.held = [⟨1, 5⟩] ∧ s.cur.pending = 1 ∧ after (hostTurn s) = s ∧
      (after (hostWrite 1 6 s)).cur.pending = 1 ∧ (after (hostWrite 1 6 s)).cur.held = [⟨1, 5⟩, ⟨1, 6⟩] := by decide

/-- 20 R34: an endless input stream supplies its own bytes behind `data`, and never ends. -/
theorem test_endless_stream :
    let st : InStream := ⟨[0x05], some 3, 7⟩
    st.get 0 = some 0x05 ∧ st.get st.pos = some (Config.endlessByte 3 7) ∧ st.get 1 ≠ none := by
  refine ⟨rfl, rfl, ?_⟩
  simp [get_eq_none]

/-- 70 R124: a run on instance 0 is over although another host's instance 1 is BUSY; a run on both is not. -/
theorem test_runEnded_of_used : sharing.runEnded [0] = true ∧ sharing.runEnded [0, 1] = false ∧
    sharing.runEnded [2] = false := by decide

/-- Log 17: the step after `withFetchWord` from reset. -/
theorem test_fetch_word : (after (step (State.reset.withFetchWord 8 0x01))).cur.block.phase = .tag := by decide

/-! ### Witnesses: encoding and the codec -/

theorem witness_DecodeOfEncode : (Instr.illegalTagF8 0xFF).wf = true ∧ Instr.encU32.wf = true := by decide

theorem witness_EncodeOfDecode : (Instr.tier1W32 5).wf = true ∧ (Instr.tier1W32 5).format = .tag32 ∧
    encode (.tier1W32 5) = [0x85] := by decide

theorem witness_TierSelectorPicksLeast : (tierBounds .w32)[0]? = some 0x80 ∧ (tierBounds .w32)[3]? = some 0x10000000 ∧
    (tierBounds .w64)[7]? = some 0x0100000000000000 := by decide

theorem witness_TierArithmetic : 3 < escTier .w32 ∧ 7 < escTier .w64 := by decide

theorem witness_NonEscapeLayout : (0 < escTier .w32 ∧ 0 < 2 ^ (7 * (0 + 1))) ∧
    7 < escTier .w64 ∧ 2 ^ 56 - 1 < 2 ^ (7 * (7 + 1)) ∧ 1 ≤ 7 ∧ 7 ≤ 7 ∧
    (formAt .w64 7 (2 ^ 56 - 1))[0]? = some 0xFE := by decide

theorem witness_EscapeLayout : 2 ^ 32 - 1 < 2 ^ 32 ∧ 1 ≤ 4 ∧ 2 ^ 64 - 1 < 2 ^ 64 ∧ 1 ≤ 8 := by decide

theorem witness_FirstByteClassification : 3 < escTier .w32 ∧ classify .w32 0xEF = some 3 ∧
    classify .w32 0xF0 = some (escTier .w32) ∧ classify .w32 0xF1 = none ∧ classify .w64 0xFE = some 7 := by decide

theorem witness_RoundTrip : 0 < 2 ^ widthBits .w32 ∧ 2 ^ 64 - 1 < 2 ^ widthBits .w64 := by decide

theorem witness_CanonicalFormIsMinimal : 5 < 2 ^ widthBits .w32 ∧ (tierBounds .w32)[3]? = some 0x10000000 ∧ dec .w32 [0x80, 0x05] = .ok 5 2 ∧
    dec .w32 [0x05] = .ok 5 1 ∧ 1 = (enc .w32 5).length := by decide

theorem witness_EncoderLaws : 0x7F < 2 ^ widthBits .w32 ∧ 0x80 < 2 ^ widthBits .w32 ∧ 0x7F ≤ 0x80 ∧
    0x80 ∈ tierBounds .w32 ∧ enc .w32 0x80 = enc .w32 0x80 ∧
    dec .w32 [0x80, 0x80] = .ok 0x80 [(0x80 : Byte), 0x80].length ∧ enc .w32 0x80 <+: [0x80, 0x80] := by decide

theorem witness_EveryWellFormedFormAccepted :
    (classify .w32 0xC0 = some 2 ∧ [(0x00 : Byte), 0x7F].length = extraBytes .w32 2 ∧ 2 < escTier .w32) ∧
    classify .w32 0xF0 = some 4 ∧ [(0xFF : Byte), 0xFF, 0xFF, 0xFF].length = extraBytes .w32 4 ∧
    4 = escTier .w32 := by decide

theorem witness_CrossWidthForms : 2 ^ 28 - 1 < 2 ^ 28 ∧ 2 ^ 28 ≤ 0xFFFFFFFF ∧ 0xFFFFFFFF < 2 ^ 32 ∧
    byteAt 0 0xFFFFFFFF = byteAt 3 0xFFFFFFFF ∧ byteAt 0 0x10000000 ≠ byteAt 3 0x10000000 := by decide

theorem witness_SignedReinterpretation : (-(2 ^ (widthBits .w32 - 1)) ≤ (-2147483648 : Int) ∧
    (-2147483648 : Int) < 2 ^ (widthBits .w32 - 1)) ∧
    (0 ≤ (2 ^ 63 - 1 : Int) ∧ (2 ^ 63 - 1 : Int) < 2 ^ (widthBits .w64 - 1)) ∧
    (2 ^ 31 - 1 < 2 ^ widthBits .w32 ∧ 2 ^ 31 - 1 < 2 ^ (widthBits .w32 - 1)) ∧
    2 ^ 63 < 2 ^ widthBits .w64 ∧ 2 ^ (widthBits .w64 - 1) ≤ 2 ^ 63 := by decide

/-! ### Witnesses: commands and first bytes -/

theorem witness_EncodeCommandsStart : (Instr.encI64, Width.w64, true) ∈ encodeCommands ∧ idle.cur.busy = false ∧
    idle.conflicts idle.cur = false ∧ idle.cur.block.arg = some 0x4000 := by decide

theorem witness_DecodeCommandsStart : (Instr.decI64, Width.w64, true) ∈ decodeCommands ∧ idle.cur.busy = false ∧
    idle.conflicts idle.cur = false := by decide

theorem witness_ReservedCommandsEndInError : Instr.reservedCmd08 0x0B ∈ reservedRows 0x0B ∧
    Instr.reservedCmd80 0xFF ∈ reservedRows 0xFF ∧ idle.cur.busy = false := by decide

theorem witness_CommandsAreHeldWhileBusy : Instr.encU32.format = .cmd8 ∧ (Instr.reservedCmd10 0x10).format = .cmd8 ∧
    emitting.cur.busy = true := by decide

theorem witness_EncodeWithoutArgFaults : (Instr.encU32, Width.w32, false) ∈ encodeCommands ∧
    (oneInst none [] []).cur.busy = false ∧ (oneInst none [] []).conflicts (oneInst none [] []).cur = false ∧
    (oneInst none [] []).cur.block.arg = none := by decide

theorem witness_SharedStreamLaunchRefused : (Instr.decU64, Width.w64, false) ∈ encodeCommands ++ decodeCommands ∧
    sharing.cur.busy = false ∧ emitting.cur ∈ sharing.before ++ sharing.after ∧ emitting.cur.busy = true ∧
    sharing.cur.inPort = some 0 ∧ emitting.cur.inPort = some 0 ∧
    sharing.cur.outPort = some 0 ∧ emitting.cur.outPort = some 0 := by decide

theorem witness_TierZeroFinishes : tagEnabled .w32 tagging = true ∧ tagEnabled .w64 tagging64 = true := by decide

theorem witness_LongerTiers32GoOn : tagEnabled .w32 tagging = true := by decide

theorem witness_LongerTiers64GoOn : tagEnabled .w64 tagging64 = true := by decide

theorem witness_IllegalTagsEndInError : Instr.illegalTagF1 0xF1 ∈ illegalRows 0xF1 ∧
    Instr.illegalTagF8 0xFF ∈ illegalRows 0xFF ∧ tagEnabled .w32 tagging = true := by decide

theorem witness_TagRowsOutsideTagStepRefused : (Instr.tier0W32 0).format = Width.w32.tagFormat ∧
    tagEnabled .w32 tagging64 = false ∧ Instr.tier8Esc64.format = Width.w64.tagFormat ∧
    tagEnabled .w64 idle = false := by decide

/-! ### Witnesses: micro-steps and accesses -/

theorem witness_EmitStepEffect : emitting.cur.block.phase = .emit ∧ emitting.attachedOut = some (0, ⟨[]⟩) ∧
    emitting.cur.block.scratch[emitting.cur.block.j]? = some 0xC0 ∧ okAnswer.fails = false ∧ badAnswer.fails = true ∧
    emitting.cur.block.j + 1 ≠ emitting.cur.block.nb := by decide

/-- The last byte of the form. -/
theorem witness_EmitStepEffect_last :
    let s := after (exec .encU32 (oneInst (some 0x7F) [] []))
    s.cur.block.phase = .emit ∧ s.attachedOut = some (0, ⟨[]⟩) ∧
      s.cur.block.scratch[s.cur.block.j]? = some 0x7F ∧ s.cur.block.j + 1 = s.cur.block.nb := by decide

theorem witness_BodyStepEffect : body.cur.block.phase = .body ∧
    body.attachedIn = some (0, ⟨[0xC0, 0x40, 0x00], none, 1⟩) ∧ body.cur.block.j < 9 ∧ okAnswer.fails = false ∧
    badAnswer.fails = true ∧ body.cur.block.j + 1 ≠ body.cur.block.nb ∧
    body.cur.block.tier < escTier body.cur.block.op.width := by decide

/-- The last byte of a tier, at the end of the data, and of an escape form. -/
theorem witness_BodyStepEffect_last :
    (let s := after (microStep okAnswer (after (exec .decU32 (oneInst none [0x80, 0x05] []))))
     s.cur.block.phase = .body ∧ s.attachedIn = some (0, ⟨[0x80, 0x05], none, 1⟩) ∧ s.cur.block.j + 1 = s.cur.block.nb) ∧
    (let s := { body with inStreams := [⟨[0xC0], none, 1⟩] }
     s.attachedIn = some (0, ⟨[0xC0], none, 1⟩) ∧ (⟨[0xC0], none, 1⟩ : InStream).get 1 = none) ∧
    (let s := after (microStep okAnswer tagging64)
     s.cur.block.phase = .body ∧ ¬ s.cur.block.tier < escTier s.cur.block.op.width) := by decide

theorem witness_TagReadFaultEndsInError : tagging.cur.block.phase = .tag ∧
    tagging.attachedIn = some (0, ⟨[0xC0, 0x40, 0x00], none, 0⟩) ∧ badAnswer.fails = true ∧
    (⟨[], none, 0⟩ : InStream).get 0 = none := by decide

theorem witness_UnattachedPortNeverMoves :
    (let s := emitting.setCur { emitting.cur with outPort := none }
     s.cur.block.phase = .emit ∧ s.attachedOut = none ∧ s.cur.block.j < 9) ∧
    (let s := tagging.setCur { tagging.cur with inPort := none }
     s.cur.block.phase = .tag ∧ s.attachedIn = none) ∧
    (let s := body.setCur { body.cur with inPort := none }
     s.cur.block.phase = .body ∧ s.attachedIn = none ∧ s.cur.block.j < 9) := by decide

theorem witness_HostReadReturnsContent : idle.cur.block.arg = some 0x4000 ∧
    (after (microStep okAnswer (after (exec .decU32 (oneInst none [0x05] []))))).cur.block.res = some 5 ∧
    (after (microStep badAnswer tagging)).cur.block.faultInfo = some ⟨7⟩ ∧
    State.reset.cur.block.arg = none ∧ State.reset.cur.block.res = none ∧ State.reset.cur.block.faultInfo = none := by
  decide

theorem witness_HostWriteEffect : idle.cur.busy = false ∧ emitting.cur.busy = true ∧ 255 < 256 ∧
    2 ≤ (2 : RegNum).toNat ∧ (5 : RegNum).toNat ≤ 5 ∧ 6 ≤ (6 : RegNum).toNat ∧ (15 : RegNum) ≠ 0 := by decide

theorem witness_ReservedRegisterReadRefused : 6 ≤ (6 : RegNum).toNat ∧ 6 ≤ (15 : RegNum).toNat := by decide

theorem witness_PseudoInstructionsExpand : ((0 : Int) ≤ 2 ^ 32 - 1 ∧ (2 ^ 32 - 1 : Int) < 2 ^ 32) ∧
    ¬ ((0 : Int) ≤ 2 ^ 32 ∧ (2 ^ 32 : Int) < 2 ^ 32) ∧ ((0 : Int) ≤ 2 ^ 64 - 1 ∧ (2 ^ 64 - 1 : Int) < 2 ^ 64) ∧
    ¬ ((0 : Int) ≤ -1 ∧ (-1 : Int) < 2 ^ 64) ∧ (-(2 ^ 31) ≤ (-2147483648 : Int) ∧ (-2147483648 : Int) < 2 ^ 31) ∧
    ¬ (-(2 ^ 31) ≤ (2147483648 : Int) ∧ (2147483648 : Int) < 2 ^ 31) ∧
    (-(2 ^ 63) ≤ (2 ^ 63 - 1 : Int) ∧ (2 ^ 63 - 1 : Int) < 2 ^ 63) ∧
    ¬ (-(2 ^ 63) ≤ (2 ^ 63 : Int) ∧ (2 ^ 63 : Int) < 2 ^ 63) := by decide

/-! ### Witnesses: steps -/

theorem witness_StepRunsWrittenCommand :
    let s := withTurn idle (.access 0 (.write 0 0xFF))
    s.readyInst = none ∧ s.schedule = .access 0 (.write 0 0xFF) :: [] ∧ focus 0 { s with schedule := [] } = some idle ∧
      255 < 256 ∧ decodeByte .cmd8 (BitVec.ofNat 8 0xFF) = .reservedCmd08 0xFF := by decide

/-- The same byte by a line of the program, and as a held write. -/
theorem witness_StepRunsWrittenCommand_ways :
    (let s := withTurn (idle.setCur { idle.cur with program := [.access (.write 0 0)] }) (.host 0)
     s.readyInst = none ∧ s.schedule = .host 0 :: [] ∧ focus 0 { s with schedule := [] } = some { s with schedule := [] } ∧
      s.cur.pending = 0 ∧ s.cur.program = .access (.write 0 0) :: [] ∧ decodeByte .cmd8 (BitVec.ofNat 8 0) = .encU32) ∧
    (let s := idle.setCur { idle.cur with held := [⟨0, 0⟩] }
     s.readyInst = some 0 ∧ focus 0 s = some s ∧ s.cur.held = ⟨0, 0⟩ :: []) := by decide

/-- A read line, a write line at an idle and at a BUSY instance, a program that is over and one that waits. -/
theorem witness_StepRunsHostLine :
    (∀ ls ∈ [[Line.access (.read 3)], [.access (.write 1 5)], [.wait], []],
      let s := withTurn (idle.setCur { idle.cur with program := ls }) (.host 0)
      s.readyInst = none ∧ s.schedule = .host 0 :: [] ∧
        focus 0 { s with schedule := [] } = some { s with schedule := [] } ∧ s.cur.pending = 0 ∧ s.cur.program = ls) ∧
    (let s := withTurn (emitting.setCur { emitting.cur with program := [.access (.write 1 5)] }) (.host 0)
     s.readyInst = none ∧ focus 0 { s with schedule := [] } = some { s with schedule := [] } ∧ s.cur.pending = 0 ∧
      s.cur.busy = true) ∧
    (let s := withTurn (emitting.setCur { emitting.cur with held := [⟨1, 5⟩], pending := 1 }) (.host 0)
     s.readyInst = none ∧ focus 0 { s with schedule := [] } = some { s with schedule := [] } ∧ s.cur.pending ≠ 0) ∧
    Line.wait.isWrite = false := by decide

theorem witness_StepRunsTagByte :
    let s := withTurn tagging (.answer 0 okAnswer)
    s.readyInst = none ∧ s.schedule = .answer 0 okAnswer :: [] ∧
      focus 0 { s with schedule := [] } = some tagging ∧ tagging.cur.block.phase = .tag ∧
      tagging.attachedIn = some (0, ⟨[0xC0, 0x40, 0x00], none, 0⟩) ∧ okAnswer.fails = false ∧
      (⟨[0xC0, 0x40, 0x00], none, 0⟩ : InStream).get 0 = some 0xC0 ∧
      decodeByte tagging.cur.block.op.width.tagFormat 0xC0 = .tier2W32 0 := by decide

theorem witness_StepRunsFetchWord : decodeTableWord 8 0 = some .encU32 ∧
    decodeTableWord 8 255 = some (.reservedCmd08 0xFF) := by decide

theorem witness_HeldWriteCompletesFirst :
    let s := idle.setCur { idle.cur with held := [⟨1, 5⟩] }
    s.readyInst = some 0 ∧ focus 0 s = some s ∧ s.cur.held = ⟨1, 5⟩ :: [] := by decide

theorem witness_ResetTurnEffect :
    let s := withTurn emitting (.reset 0)
    s.readyInst = none ∧ s.schedule = .reset 0 :: [] ∧ focus 0 { s with schedule := [] } = some emitting := by decide

theorem witness_NothingMovesWithoutTurns : idle.readyInst = none ∧ idle.schedule = [] ∧
    emitting.readyInst = none ∧ emitting.schedule = [] := by decide

theorem witness_WaitPollsStatus :
    let s := emitting.setCur { emitting.cur with program := [.wait] }
    s.cur.pending = 0 ∧ s.cur.program = .wait :: [] ∧ s.cur.busy = true ∧ idle.cur.busy = false := by decide

theorem witness_AttachNewStream : idle.cur.busy = false ∧ idle.cur.block.phase = .none := by decide

/-! ### Witnesses: the whole machine -/

/-- A machine of one instance with both ports at stream 0 is sound when its block is. -/
theorem sound_of_block {s : State} (hb : s.before = []) (ha : s.after = []) (hk : s.cur.block.Sound)
    (hi : s.cur.inPort = some 0) (ho : s.cur.outPort = some 0) (hil : 0 < s.inStreams.length)
    (hol : 0 < s.outStreams.length) (hw : s.cur.pending ≤ s.cur.held.length) : s.Sound where
  blocks := by
    intro i hm
    simp [instances_eq, hb, ha] at hm
    exact hm ▸ hk
  inPorts := by
    intro i hm id hid
    simp [instances_eq, hb, ha] at hm
    rw [hm, hi] at hid
    cases hid
    exact hil
  outPorts := by
    intro i hm id hid
    simp [instances_eq, hb, ha] at hm
    rw [hm, ho] at hid
    cases hid
    exact hol
  unshared := by simp [instances_eq, hb, ha]
  waits := by
    intro i hm
    simp [instances_eq, hb, ha] at hm
    exact hm ▸ hw

theorem idle_block : idle.cur.block.Sound := by
  refine ⟨?_, ⟨.noError, ?_⟩, ?_, ?_, ?_, ?_, trivial⟩ <;> decide

theorem emitting_block : emitting.cur.block.Sound := by
  refine ⟨?_, ⟨.noError, ?_⟩, ?_, ?_, ?_, ?_, ?_, ?_, ?_, 0x4000, ?_, ?_, ?_, ?_⟩ <;> decide

theorem tagging_block : tagging.cur.block.Sound := by
  refine ⟨?_, ⟨.noError, ?_⟩, ?_, ?_, ?_, ?_, ?_, ?_, ?_⟩ <;> decide

theorem idle_sound (turns : List Turn) : ({ idle with schedule := turns } : State).Sound :=
  sound_of_block rfl rfl idle_block rfl rfl Nat.one_pos Nat.one_pos (Nat.le_refl 0)

theorem emitting_sound (turns : List Turn) : ({ emitting with schedule := turns } : State).Sound :=
  sound_of_block rfl rfl emitting_block rfl rfl Nat.one_pos Nat.one_pos (Nat.le_refl 0)

theorem witness_StepKeepsSound : (withTurn emitting (.answer 0 okAnswer)).Sound ∧
    isNext (step (withTurn emitting (.answer 0 okAnswer))) = true := ⟨emitting_sound _, by decide⟩

theorem witness_SoundNeverLeavesScratch : (withTurn emitting (.answer 0 okAnswer)).Sound := emitting_sound _

/-- `idle` with other values where reset leaves them unspecified. -/
def otherIdle : State := idle.setBlock { idle.cur.block with op := ⟨.dec, .w64, true⟩, tier := 7, nb := 4, j := 2 }

theorem witness_HiddenValuesUnobservable : ({ idle with schedule := [] } : State).Sound ∧ otherIdle.Sound ∧
    idle.Alike otherIdle ∧ idle ≠ otherIdle := by
  refine ⟨idle_sound _, ?_, ?_, by decide⟩
  · refine sound_of_block rfl rfl ⟨?_, ⟨.noError, ?_⟩, ?_, ?_, ?_, ?_, trivial⟩ rfl rfl (by decide) (by decide)
      (Nat.le_refl 0) <;> decide
  · refine ⟨.nil, ⟨⟨rfl, rfl, rfl, ?_, ?_, ?_, ?_⟩, rfl, rfl, rfl, rfl, rfl⟩, .nil, rfl, rfl, rfl, rfl⟩
    · intro h; exact absurd rfl h
    · rintro (h | h) <;> cases h
    · intro h; cases h
    · intro h; cases h

theorem witness_StepTouchesOnlyItsInstance :
    let s := withTurn sharing (.access 0 (.write 1 5))
    isNext (step s) = true ∧ actor s ≠ some 1 ∧ s.instances[1]? = some emitting.cur := by decide

/-- IDLE to BUSY, to ERROR by an illegal command, BUSY to DONE, to ERROR, and to IDLE by reset. -/
theorem witness_StateTransitions :
    (let s := withTurn idle (.access 0 (.write 0 1))
     s.Sound ∧ isNext (step s) = true ∧ statusState (after (step s)).cur.block.status = 1) ∧
    (let s := withTurn idle (.access 0 (.write 0 8))
     s.Sound ∧ isNext (step s) = true ∧ statusState (after (step s)).cur.block.status = 3) ∧
    (let s := withTurn { tagging with inStreams := [⟨[0x05], none, 0⟩] } (.answer 0 okAnswer)
     s.Sound ∧ isNext (step s) = true ∧ statusState (after (step s)).cur.block.status = 2) ∧
    (let s := withTurn emitting (.answer 0 badAnswer)
     s.Sound ∧ isNext (step s) = true ∧ statusState (after (step s)).cur.block.status = 3) ∧
    (let s := withTurn emitting (.reset 0)
     s.Sound ∧ isNext (step s) = true ∧ statusState (after (step s)).cur.block.status = 0) := by
  exact ⟨⟨idle_sound _, by decide, by decide⟩, ⟨idle_sound _, by decide, by decide⟩,
    ⟨sound_of_block rfl rfl tagging_block rfl rfl Nat.one_pos Nat.one_pos (Nat.le_refl 0), by decide, by decide⟩,
    ⟨emitting_sound _, by decide, by decide⟩, emitting_sound _, by decide, by decide⟩

theorem witness_ResWrittenOnlyByDecodeDone :
    let s := withTurn { tagging with inStreams := [⟨[0x05], none, 0⟩] } (.answer 0 okAnswer)
    isNext (step s) = true ∧ s.instances[0]? = some s.cur ∧
      (after (step s)).instances[0]? = some (after (step s)).cur ∧
      (after (step s)).cur.block.res ≠ s.cur.block.res := by decide

theorem witness_FaultInfoWrittenOnlyByStreamFault :
    let s := withTurn tagging (.answer 0 badAnswer)
    isNext (step s) = true ∧ s.instances[0]? = some s.cur ∧
      (after (step s)).instances[0]? = some (after (step s)).cur ∧
      (after (step s)).cur.block.faultInfo ≠ s.cur.block.faultInfo := by decide

theorem witness_ArgWrittenOnlyByHost :
    let s := withTurn idle (.access 0 (.write 1 5))
    isNext (step s) = true ∧ s.instances[0]? = some s.cur ∧
      (after (step s)).instances[0]? = some (after (step s)).cur ∧
      (after (step s)).cur.block.arg ≠ s.cur.block.arg := by decide

/-- A transfer, and a return to 0. -/
theorem witness_LenCountsTransfers :
    (let s := withTurn emitting (.answer 0 okAnswer)
     s.Sound ∧ isNext (step s) = true ∧ (after (step s)).cur.block.len ≠ s.cur.block.len) ∧
    (let s := withTurn (idle.setBlock { idle.cur.block with len := 3 }) (.access 0 (.write 0 1))
     s.Sound ∧ isNext (step s) = true ∧ (after (step s)).cur.block.len ≠ s.cur.block.len) := by
  refine ⟨⟨emitting_sound _, by decide, by decide⟩, ?_, by decide, by decide⟩
  refine sound_of_block rfl rfl ⟨?_, ⟨.noError, ?_⟩, ?_, ?_, ?_, ?_, trivial⟩ rfl rfl (by decide) (by decide)
    (Nat.le_refl 0) <;> decide

/-- Instance 0 is done; the other host's instance 1 goes on. -/
theorem witness_EndedRunStaysEnded :
    let s := withTurn sharing (.answer 1 okAnswer)
    s.runEnded [0] = true ∧ isNext (step s) = true ∧
      ∀ n ∈ [0], ∀ v, (BitVec.ofNat 8 v).extractLsb' 3 5 = 0 → ¬ s.delivers n (.write 0 v) := by
  refine ⟨by decide, by decide, fun n _ v _ h => ?_⟩
  rcases h with ⟨h, _⟩ | ⟨_, _, h⟩ | ⟨_, ⟨_, h⟩, _⟩
  · exact absurd h (by rw [show (withTurn sharing (.answer 1 okAnswer)).readyInst = none by decide]; simp)
  · cases h
  · cases h

theorem witness_BusyEndsWithinNineAnswers :
    let s : State := { emitting with schedule := answerTurns 0 (List.replicate 9 okAnswer) ++ [] }
    s.Sound ∧ s.cur.busy = true ∧ s.readyInst = none ∧ s.attachedOut.isSome = true ∧ s.attachedIn.isSome = true ∧
      s.schedule = answerTurns s.curNum (List.replicate 9 okAnswer) ++ [] := by
  exact ⟨emitting_sound _, by decide, by decide, by decide, by decide, rfl⟩

theorem allOk_replicate (n : Nat) : AllOk (List.replicate n okAnswer) := by
  intro a h
  rw [List.eq_of_mem_replicate h]
  rfl

theorem witness_EncodeRunWritesCanonicalForm :
    let s : State := { idle with schedule := Turn.access 0 (.write 0 0) :: answerTurns 0 (List.replicate 3 okAnswer) ++ [] }
    (Instr.encU32, Width.w32, false) ∈ encodeCommands ∧ s.readyInst = none ∧ s.cur.busy = false ∧
      s.conflicts s.cur = false ∧ s.cur.block.arg = some 0x4000 ∧ s.attachedOut = some (0, ⟨[]⟩) ∧
      AllOk (List.replicate 3 okAnswer) ∧
      (List.replicate 3 okAnswer).length = (enc .w32 ((0x4000 : Word64).toNat % 2 ^ widthBits .w32)).length := by
  exact ⟨by decide, by decide, by decide, by decide, by decide, by decide, allOk_replicate 3, by decide⟩

theorem witness_EncodeRunFaultLeavesBeginning :
    let s : State := { idle with schedule := Turn.access 0 (.write 0 0) :: answerTurns 0 ([okAnswer] ++ [badAnswer]) ++ [] }
    (Instr.encU32, Width.w32, false) ∈ encodeCommands ∧ s.readyInst = none ∧ s.cur.busy = false ∧
      s.conflicts s.cur = false ∧ s.cur.block.arg = some 0x4000 ∧ s.attachedOut = some (0, ⟨[]⟩) ∧
      AllOk [okAnswer] ∧ badAnswer.fails = true ∧
      (enc .w32 ((0x4000 : Word64).toNat % 2 ^ widthBits .w32))[[okAnswer].length]? = some 0x40 := by
  exact ⟨by decide, by decide, by decide, by decide, by decide, by decide, allOk_replicate 1, by decide, by decide⟩

/-- A list of bytes is what a stream supplies. -/
theorem supplies_data (bs : List Byte) (k : Nat) : (InStream.mk bs none 0).get (0 + k) = bs[k]? := by simp

/-- The three outcomes of `dec_W`: a whole form, an unrecognized byte, a form cut short. -/
theorem witness_DecodeRunAgreesWithFunction :
    (let s : State := { idle with schedule := Turn.access 0 (.write 0 1) :: answerTurns 0 (List.replicate 3 okAnswer ++ [okAnswer]) ++ [] }
     let st : InStream := ⟨[0xC0, 0x40, 0x00], none, 0⟩
     let bs : List Byte := [0xC0, 0x40, 0x00]
     (Instr.decU32, Width.w32, false) ∈ decodeCommands ∧ s.readyInst = none ∧ s.cur.busy = false ∧
      s.conflicts s.cur = false ∧ s.attachedIn = some (0, st) ∧ AllOk (List.replicate 3 okAnswer) ∧
      bs.length = (List.replicate 3 okAnswer).length ∧
      (∀ k, k < (List.replicate 3 okAnswer).length → st.get (st.pos + k) = bs[k]?) ∧
      st.get (st.pos + (List.replicate 3 okAnswer).length) = none ∧ dec .w32 bs = .ok 0x4000 3) ∧
    (let st : InStream := ⟨[0xC0, 0x40, 0x00], none, 0⟩
     let bs : List Byte := [0xC0, 0x40]
     (∀ k, k < 2 → st.get (st.pos + k) = bs[k]?) ∧ badAnswer.fails = true ∧ dec .w32 bs = .short 2) ∧
    (let st : InStream := ⟨[0xF5, 0x01], none, 0⟩
     (oneInst none [0xF5, 0x01] []).attachedIn = some (0, st) ∧ st.get (st.pos + 0) = ([0xF5] : List Byte)[0]? ∧
      dec .w32 [0xF5] = .unrecognized 0xF5) := by
  refine ⟨⟨by decide, by decide, by decide, by decide, by decide, allOk_replicate 3, by decide,
    fun k _ => supplies_data _ k, by decide, by decide⟩, ⟨?_, by decide, by decide⟩, by decide, by decide, by decide⟩
  intro k hk
  match k, hk with
  | 0, _ => rfl
  | 1, _ => rfl

end Sys2Proof.Tests
end

section
/-! The signed reinterpretation (R9): the branches of `asUnsigned` and `asSigned`, their ranges, and that each
undoes the other. -/

namespace Sys2Proof.Proofs

open Sys2Proof Sys2Proof.Machine

/-- `2^W` is twice the sign boundary `2^(W-1)`: the one fact about a width that R9 turns on. -/
theorem two_pow_widthBits (w : Width) : (2 : Int) ^ widthBits w = 2 * 2 ^ (widthBits w - 1) :=
  (mul_pow_sub_one (by cases w <;> decide) 2).symm

theorem asUnsigned_of_nonneg {s : Int} (w : Width) (h : 0 ≤ s) : (asUnsigned w s : Int) = s := by
  rw [asUnsigned, if_pos h, Int.toNat_of_nonneg h]

theorem asUnsigned_of_neg {w : Width} {s : Int} (hlo : -(2 ^ (widthBits w - 1)) ≤ s) (h : s < 0) :
    (asUnsigned w s : Int) = s + 2 ^ widthBits w := by
  have hpow := two_pow_widthBits w
  rw [asUnsigned, if_neg (by omega), Int.toNat_of_nonneg (by omega)]

theorem asSigned_of_lt {w : Width} {u : Nat} (h : u < 2 ^ (widthBits w - 1)) : asSigned w u = u := if_pos h

theorem asSigned_of_ge {w : Width} {u : Nat} (h : 2 ^ (widthBits w - 1) ≤ u) :
    asSigned w u = (u : Int) - 2 ^ widthBits w := if_neg (by omega)

theorem asUnsigned_lt {w : Width} {s : Int} (hlo : -(2 ^ (widthBits w - 1)) ≤ s) (hhi : s < 2 ^ (widthBits w - 1)) :
    asUnsigned w s < 2 ^ widthBits w := by
  have hpow := two_pow_widthBits w
  zify
  rcases lt_or_ge s 0 with h | h
  · rw [asUnsigned_of_neg hlo h]; omega
  · rw [asUnsigned_of_nonneg w h]; omega

theorem asSigned_range {w : Width} {u : Nat} (hu : u < 2 ^ widthBits w) :
    -(2 ^ (widthBits w - 1)) ≤ asSigned w u ∧ asSigned w u < 2 ^ (widthBits w - 1) := by
  have hpow := two_pow_widthBits w
  zify at hu
  rcases lt_or_ge u (2 ^ (widthBits w - 1)) with h | h
  · rw [asSigned_of_lt h]; zify at h; omega
  · rw [asSigned_of_ge h]; zify at h; omega

/-- A negative value lands in the upper half, where `asSigned` takes `2^W` off again. -/
theorem asSigned_asUnsigned {w : Width} {s : Int} (hlo : -(2 ^ (widthBits w - 1)) ≤ s)
    (hhi : s < 2 ^ (widthBits w - 1)) : asSigned w (asUnsigned w s) = s := by
  have hpow := two_pow_widthBits w
  rcases lt_or_ge s 0 with h | h
  · have hval := asUnsigned_of_neg hlo h
    rw [asSigned_of_ge (by zify; omega), hval, add_sub_cancel_right]
  · have hval := asUnsigned_of_nonneg w h
    rw [asSigned_of_lt (by zify; omega), hval]

/-- The upper half becomes negative, where `asUnsigned` adds `2^W` again. -/
theorem asUnsigned_asSigned {w : Width} {u : Nat} (hu : u < 2 ^ widthBits w) : asUnsigned w (asSigned w u) = u := by
  zify at hu ⊢
  rcases lt_or_ge u (2 ^ (widthBits w - 1)) with h | h
  · rw [asSigned_of_lt h, asUnsigned_of_nonneg w (by omega)]
  · obtain ⟨hlo, -⟩ := asSigned_range (w := w) (u := u) (by zify; exact hu)
    rw [asSigned_of_ge h] at hlo ⊢
    rw [asUnsigned_of_neg hlo (by omega), sub_add_cancel]

/-- Settles O15: each clause of R9 is one of the lemmas above, at either width. -/
theorem signedReinterpretation : Obligations.SignedReinterpretation := by
  intro w
  constructor
  · intro s hlo hhi
    exact ⟨asUnsigned_of_nonneg w, asUnsigned_of_neg hlo, asUnsigned_lt hlo hhi, asSigned_asUnsigned hlo hhi⟩
  · intro u hu
    obtain ⟨hlo, hhi⟩ := asSigned_range hu
    exact ⟨asSigned_of_lt, asSigned_of_ge, hlo, hhi, asUnsigned_asSigned hu⟩

end Sys2Proof.Proofs
end

section
/-! The invariant `State.Sound` (R18 to R23, R46, R120): what it says of the acting instance, and that focusing and
every action keep it. -/

namespace Sys2Proof.Proofs

open Sys2Proof Sys2Proof.Machine

/-- Two instances that are both BUSY have no stream in common (R46, R120). -/
def Unshared (a b : Inst) : Prop := a.busy = true → b.busy = true → a.sharesStream b = false

theorem unshared_symm {a b : Inst} (h : Unshared a b) : Unshared b a := fun hb ha => by
  rw [sharesStream_comm]; exact h ha hb

/-- `Unshared` is symmetric, so the acting instance may be compared with the others apart from their order. -/
theorem pairwise_unshared_instances {s : State} : s.instances.Pairwise Unshared ↔
    (∀ o ∈ s.before ++ s.after, Unshared s.cur o) ∧ (s.before ++ s.after).Pairwise Unshared := by
  rw [instances_eq, List.pairwise_middle unshared_symm, List.pairwise_cons]

/-- An instance that passes the conflict check shares no stream with a busy one (R98 (d)). -/
theorem unshared_of_conflicts_eq_false {s : State} {i o : Inst} (h : s.conflicts i = false)
    (ho : o ∈ s.before ++ s.after) : Unshared i o := fun _ hb => by
  have hall := List.any_eq_false.1 h o ho
  simpa [hb] using hall

/-- Only the instances and the numbers of streams matter to soundness. -/
theorem sound_congr {s t : State} (h : s.Sound) (hi : t.instances = s.instances) (hin : t.inStreams = s.inStreams)
    (hout : t.outStreams = s.outStreams) : t.Sound := by
  obtain ⟨hb, hip, hop, hu, hw⟩ := h
  exact ⟨hi ▸ hb, by rw [hi, hin]; exact hip, by rw [hi, hout]; exact hop, hi ▸ hu, hi ▸ hw⟩

theorem sound_schedule {s : State} (h : s.Sound) (turns : List Turn) : State.Sound { s with schedule := turns } :=
  sound_congr h rfl rfl rfl

theorem focus_sound {n : Nat} {s t : State} (h : s.Sound) (hf : focus n s = some t) : t.Sound := by
  obtain ⟨hi, -, -, hin, hout, -, -⟩ := focus_spec hf
  exact sound_congr h hi hin hout

theorem sound_cur {s : State} (h : s.Sound) : s.cur.block.Sound := h.blocks _ (cur_mem s)

/-- After an action every instance is the acting one or as it was. -/
theorem mem_instances_of_actSpec {o : Option Cause} {s t : State} {i : Inst} (ha : ActSpec o s t)
    (hi : i ∈ t.instances) : i = t.cur ∨ i ∈ s.instances := by
  rw [mem_instances, ha.before, ha.after] at hi
  rcases hi with hi | hi | hi
  · exact .inr (mem_instances.2 (.inl hi))
  · exact .inl hi
  · exact .inr (mem_instances.2 (.inr (.inr hi)))

/-- A BUSY instance after an action either was BUSY at the same ports or has just passed the conflict check. -/
theorem actSpec_unshared {o : Option Cause} {s t : State} (ha : ActSpec o s t) (h : s.instances.Pairwise Unshared) :
    t.instances.Pairwise Unshared := by
  obtain ⟨hcur, hothers⟩ := pairwise_unshared_instances.1 h
  refine pairwise_unshared_instances.2 ⟨fun i hi hb => ?_, by rw [ha.before, ha.after]; exact hothers⟩
  rw [ha.before, ha.after] at hi
  rcases ha.unshared hb with ⟨hsb, hin, hout⟩ | hc
  · intro hib
    simpa only [Inst.sharesStream, hin, hout] using hcur i hi hsb hib
  · exact unshared_of_conflicts_eq_false hc hi hb

/-- Every action of a sound machine's acting instance leaves it sound. -/
theorem actSpec_sound {o : Option Cause} {s t : State} (ha : ActSpec o s t) (h : s.Sound) : t.Sound where
  blocks := by
    intro i hi
    rcases mem_instances_of_actSpec ha hi with rfl | hi
    · exact blockStep_sound (sound_cur h) ha.block
    · exact h.blocks i hi
  inPorts := by
    intro i hi id hid
    rcases mem_instances_of_actSpec ha hi with rfl | hi
    · rcases ha.inPort with hp | ⟨id', hp, hlt⟩
      · exact Nat.lt_of_lt_of_le (h.inPorts _ (cur_mem s) id (hp ▸ hid)) ha.inLen
      · rw [hp] at hid; cases hid; exact hlt
    · exact Nat.lt_of_lt_of_le (h.inPorts i hi id hid) ha.inLen
  outPorts := by
    intro i hi id hid
    rcases mem_instances_of_actSpec ha hi with rfl | hi
    · rcases ha.outPort with hp | ⟨id', hp, hlt⟩
      · exact Nat.lt_of_lt_of_le (h.outPorts _ (cur_mem s) id (hp ▸ hid)) ha.outLen
      · rw [hp] at hid; cases hid; exact hlt
    · exact Nat.lt_of_lt_of_le (h.outPorts i hi id hid) ha.outLen
  unshared := actSpec_unshared ha h.unshared
  waits := by
    intro i hi
    rcases mem_instances_of_actSpec ha hi with rfl | hi
    · exact ha.queues.waits (h.waits _ (cur_mem s))
    · exact h.waits i hi

/-- Settles O46: a step is nothing or one action of a focused instance, and both focusing and the action keep
soundness. -/
theorem stepKeepsSound : Obligations.StepKeepsSound := by
  intro s t h hs
  rcases step_cases hs with ⟨-, -, rfl⟩ | ⟨n, s', turns, o, -, hf, ha, -⟩
  · exact h
  · exact actSpec_sound ha (focus_sound (sound_schedule h turns) hf)

/-- Right after reset every instance is `Inst.reset`. -/
theorem eq_reset_of_mem_reset_instances {i : Inst} (h : i ∈ State.reset.instances) : i = Inst.reset := by
  rcases mem_instances.1 h with h | h | h
  · cases h
  · exact h
  · exact List.eq_of_mem_replicate h

/-- Settles O44: an instance after reset has a sound block, no stream attached and no held write. -/
theorem resetIsSound : Obligations.ResetIsSound where
  blocks := by
    intro i hi
    rw [eq_reset_of_mem_reset_instances hi]
    exact reset_sound
  inPorts := by
    intro i hi id hid
    rw [eq_reset_of_mem_reset_instances hi] at hid
    cases hid
  outPorts := by
    intro i hi id hid
    rw [eq_reset_of_mem_reset_instances hi] at hid
    cases hid
  unshared := List.Pairwise.imp_of_mem
    (fun ha _ _ hbusy => by rw [eq_reset_of_mem_reset_instances ha] at hbusy; exact absurd hbusy (by decide))
    (List.pairwise_of_forall (fun _ _ => trivial))
  waits := by
    intro i hi
    rw [eq_reset_of_mem_reset_instances hi]
    exact Nat.le_refl _

/-- Settles O45: the values are those of `Block.reset`. -/
theorem resetValues : Obligations.ResetValues := by
  refine ⟨List.ne_nil_of_mem (cur_mem _), fun i hi => ?_⟩
  rw [eq_reset_of_mem_reset_instances hi]
  exact ⟨rfl, rfl, rfl, rfl, rfl, rfl⟩

end Sys2Proof.Proofs
end

section
/-! The micro-steps of a sound block (R74, R85, R86): what a counted byte changes, that `J` stays inside `SCRATCH`,
and that nine answers end a command. -/

namespace Sys2Proof.Proofs

open Sys2Proof Sys2Proof.Machine Sys2Proof.Claims

/-! ### The block after one more byte -/

@[simp] theorem emitted_arg (b : Block) : b.emitted.arg = b.arg := by unfold Block.emitted; simp only; split <;> rfl
@[simp] theorem emitted_res (b : Block) : b.emitted.res = b.res := by unfold Block.emitted; simp only; split <;> rfl
@[simp] theorem emitted_len (b : Block) : b.emitted.len = b.len + 1 := by
  unfold Block.emitted; simp only; split <;> rfl
@[simp] theorem emitted_faultInfo (b : Block) : b.emitted.faultInfo = b.faultInfo := by
  unfold Block.emitted; simp only; split <;> rfl

@[simp] theorem takeBody_arg (b : Block) (x : Byte) : (b.takeBody x).arg = b.arg := by
  unfold Block.takeBody; simp only; split <;> rfl
@[simp] theorem takeBody_len (b : Block) (x : Byte) : (b.takeBody x).len = b.len + 1 := by
  unfold Block.takeBody; simp only; split <;> rfl
@[simp] theorem takeBody_faultInfo (b : Block) (x : Byte) : (b.takeBody x).faultInfo = b.faultInfo := by
  unfold Block.takeBody; simp only; split <;> rfl

/-- The last byte of a form ends the encode, any other is counted (R74). -/
theorem emitted_of_last {b : Block} (h : b.j + 1 = b.nb) :
    b.emitted = Block.finish { b with j := b.j + 1, len := b.len + 1 } := if_pos h

theorem emitted_of_not_last {b : Block} (h : b.j + 1 ≠ b.nb) :
    b.emitted = { b with j := b.j + 1, len := b.len + 1 } := if_neg h

/-- The block with a body byte stored and counted (R86), before the test for the last one. -/
abbrev stored (b : Block) (x : Byte) : Block :=
  { b with scratch := b.scratch.setIfInBounds b.j x, j := b.j + 1, len := b.len + 1 }

/-- The last byte of a form ends the decode with its value in `RES`, any other is stored (R86). -/
theorem takeBody_of_last {b : Block} {x : Byte} (h : b.j + 1 = b.nb) : b.takeBody x =
    Block.finish { stored b x with res := some (BitVec.ofNat 64 (stored b x).formValue) } := if_pos h

theorem takeBody_of_not_last {b : Block} {x : Byte} (h : b.j + 1 ≠ b.nb) : b.takeBody x = stored b x := if_neg h

/-! ### What PHASE says -/

/-- In EMIT and BODY a byte is due, and it has its place in `SCRATCH` (R18, R20). -/
theorem counters_of_sound {b : Block} (h : b.Sound) (hp : b.phase = .emit ∨ b.phase = .body) :
    b.j < b.nb ∧ b.nb ≤ 9 := by
  have hi := h.phaseOk
  rcases hp with hp | hp <;> simp only [Block.phaseInv, hp] at hi
  · obtain ⟨-, hj, -, v, -, -, hnb, -⟩ := hi
    have h8 : extraBytes b.op.width (tierOf b.op.width v) ≤ 8 := extraBytes_le
    rw [enc_length] at hnb
    omega
  · obtain ⟨-, -, hj, -, hnb, -⟩ := hi
    have h8 : extraBytes b.op.width b.tier ≤ 8 := extraBytes_le
    omega

theorem scratch_at_j {b : Block} (h : b.j < 9) : b.scratch[b.j]? = some b.scratch[b.j] :=
  Vector.getElem?_eq_getElem h

/-! ### No fault at SCRATCH -/

theorem exec_decodeCmd_fault {c : Byte} {s : State} {f : Fault} (h : exec (decodeCmd c) s = .fault f) :
    f = .unwrittenArg := by
  rw [exec_decodeCmd] at h
  simp only [startCommand, illegalCommand] at h
  split_ifs at h
  split at h
  · split at h <;> cases h
    rfl
  · cases h

theorem hostWrite_ne_scratchIndex {r : RegNum} {v : Nat} {s : State} : hostWrite r v s ≠ .fault .scratchIndex := by
  intro h
  unfold hostWrite at h
  split_ifs at h
  exact absurd (exec_decodeCmd_fault h) (by decide)

theorem readReg_fault {b : Block} {r : RegNum} {f : Fault} (h : b.readReg r = .fault f) : f = .unwrittenRead r := by
  unfold Block.readReg at h
  split at h
  case h_2 | h_3 | h_6 =>
    split at h <;> cases h
    rfl
  all_goals cases h

theorem hostAccess_ne_scratchIndex {a : Access} {s : State} : hostAccess a s ≠ .fault .scratchIndex := by
  cases a with
  | read r =>
    intro h
    simp only [hostAccess, hostRead] at h
    split at h <;> cases h
    cases readReg_fault ‹_›
  | write r v => exact hostWrite_ne_scratchIndex

theorem completeHeld_ne_scratchIndex {s : State} : completeHeld s ≠ .fault .scratchIndex := by
  unfold completeHeld
  split
  · nofun
  · exact hostWrite_ne_scratchIndex

theorem attachInput_ne_fault {id : Nat} {s : State} {f : Fault} : attachInput id s ≠ .fault f := by
  unfold attachInput
  simp only
  split_ifs <;> nofun

theorem attachOutput_ne_fault {id : Nat} {s : State} {f : Fault} : attachOutput id s ≠ .fault f := by
  unfold attachOutput
  simp only
  split_ifs <;> nofun

theorem runLine_ne_scratchIndex {l : Line} {s : State} : runLine l s ≠ .fault .scratchIndex := by
  cases l with
  | access a => exact hostAccess_ne_scratchIndex
  | wait => simp only [runLine, waitLine]; split <;> nofun
  | attachIn data => exact attachInput_ne_fault
  | attachOut => exact attachOutput_ne_fault
  | attachInStream id =>
    simp only [runLine]
    split
    · exact attachInput_ne_fault
    · nofun
  | attachOutStream id =>
    simp only [runLine]
    split
    · exact attachOutput_ne_fault
    · nofun

theorem hostTurn_ne_scratchIndex {s : State} : hostTurn s ≠ .fault .scratchIndex := by
  unfold hostTurn
  split
  · nofun
  · split
    · nofun
    · exact runLine_ne_scratchIndex

theorem exec_decodeTag_ne_fault {w : Width} {b0 : Byte} {s : State} {f : Fault} :
    exec (decodeByte w.tagFormat b0) s ≠ .fault f := by
  rw [exec_decodeTag]
  split
  · simp only [acceptTag]; split_ifs <;> nofun
  · simp only [rejectTag]; split_ifs <;> nofun

/-- The two steps that index `SCRATCH` do so at `J < NB <= 9` (R20). -/
theorem microStep_ne_scratchIndex {a : Answer} {s : State} (h : s.cur.block.Sound) :
    microStep a s ≠ .fault .scratchIndex := by
  unfold microStep
  split
  case h_1 => nofun
  case h_2 hp =>
    obtain ⟨hj, hnb⟩ := counters_of_sound h (.inl hp)
    simp only [emitStep, scratch_at_j (Nat.lt_of_lt_of_le hj hnb)]
    split <;> nofun
  case h_3 =>
    unfold tagStep
    split
    · nofun
    · nofun
    · exact exec_decodeTag_ne_fault
  case h_4 hp =>
    obtain ⟨hj, hnb⟩ := counters_of_sound h (.inr hp)
    rw [bodyStep, if_pos (Nat.lt_of_lt_of_le hj hnb)]
    split <;> nofun

theorem onInst_ne_fault {n : Nat} {f : State → Result} {s : State} {x : Fault}
    (h : ∀ s', focus n s = some s' → f s' ≠ .fault x) : onInst n f s ≠ .fault x := by
  unfold onInst
  split
  · nofun
  · exact h _ ‹_›

/-- Settles O47: of all that a step can run only a micro-step indexes `SCRATCH`, and it does so inside. -/
theorem soundNeverLeavesScratch : Obligations.SoundNeverLeavesScratch := by
  intro s h
  unfold step nextMove
  split
  · exact onInst_ne_fault fun _ _ => completeHeld_ne_scratchIndex
  · split
    · nofun
    · rename_i u rest _
      cases u with
      | host n => exact onInst_ne_fault fun _ _ => hostTurn_ne_scratchIndex
      | access n a => exact onInst_ne_fault fun _ _ => hostAccess_ne_scratchIndex
      | answer n a =>
        exact onInst_ne_fault fun _ hf =>
          microStep_ne_scratchIndex (sound_cur (focus_sound (sound_schedule h rest) hf))
      | reset n => exact onInst_ne_fault fun _ _ => nofun

/-! ### Nine answers end a command (R22, R122, R123) -/

/-- A bound on the answers that the command in progress still takes. -/
def answersLeft (b : Block) : Nat :=
  match b.phase with
  | .none => 0
  | .tag => 9
  | .emit => b.nb - b.j
  | .body => b.nb - b.j

theorem answersLeft_le {b : Block} (h : b.Sound) : answersLeft b ≤ 9 := by
  unfold answersLeft
  split
  case h_1 | h_2 => omega
  case h_3 hp => have := counters_of_sound h (.inl hp); omega
  case h_4 hp => have := counters_of_sound h (.inr hp); omega

theorem answersLeft_pos {b : Block} (h : b.Sound) (hb : b.busy = true) : 0 < answersLeft b := by
  have hp := h.busyPhase.1 hb
  unfold answersLeft
  split
  case h_1 hn => exact absurd hn hp
  case h_2 => omega
  case h_3 hp => have := counters_of_sound h (.inl hp); omega
  case h_4 hp => have := counters_of_sound h (.inr hp); omega

/-- The port that the command in progress uses has a stream. -/
def PortAttached (s : State) : Prop :=
  (s.cur.block.phase = .emit → s.cur.outPort.isSome = true) ∧ (s.cur.block.phase ≠ .emit → s.cur.inPort.isSome = true)

theorem attachedIn_of_sound {s : State} (h : s.Sound) (hp : s.cur.inPort.isSome = true) :
    ∃ id st, s.attachedIn = some (id, st) := by
  obtain ⟨id, hid⟩ := Option.isSome_iff_exists.1 hp
  exact ⟨id, _, attachedIn_spec.2 ⟨hid, List.getElem?_eq_getElem (h.inPorts _ (cur_mem s) id hid)⟩⟩

theorem attachedOut_of_sound {s : State} (h : s.Sound) (hp : s.cur.outPort.isSome = true) :
    ∃ id st, s.attachedOut = some (id, st) := by
  obtain ⟨id, hid⟩ := Option.isSome_iff_exists.1 hp
  exact ⟨id, _, attachedOut_spec.2 ⟨hid, List.getElem?_eq_getElem (h.outPorts _ (cur_mem s) id hid)⟩⟩

/-- An answer ends the command, or brings it nearer its end with the same port in use. -/
def BlockAdvances (b b' : Block) : Prop :=
  b'.busy = false ∨ answersLeft b' < answersLeft b ∧ (b'.phase = .emit ↔ b.phase = .emit)

theorem blockAdvances_emitted {b : Block} (h : b.Sound) (hp : b.phase = .emit) : BlockAdvances b b.emitted := by
  obtain ⟨hj, -⟩ := counters_of_sound h (.inl hp)
  by_cases hl : b.j + 1 = b.nb
  · rw [emitted_of_last hl]
    exact .inl (busy_finish _)
  · rw [emitted_of_not_last hl]
    refine .inr ⟨?_, Iff.rfl⟩
    simp only [answersLeft, hp]
    omega

theorem blockAdvances_takeBody {b : Block} (x : Byte) (h : b.Sound) (hp : b.phase = .body) :
    BlockAdvances b (b.takeBody x) := by
  obtain ⟨hj, -⟩ := counters_of_sound h (.inr hp)
  by_cases hl : b.j + 1 = b.nb
  · rw [takeBody_of_last hl]
    exact .inl (busy_finish _)
  · rw [takeBody_of_not_last hl]
    refine .inr ⟨?_, Iff.rfl⟩
    simp only [answersLeft, hp]
    omega

/-- A form has at most eight bytes behind its first one. -/
theorem blockAdvances_tagged {b : Block} (w : Width) (k : Nat) (b0 : Byte) (hp : b.phase = .tag) :
    BlockAdvances b { b.tagged w k b0 with phase := .body } := by
  have h8 : extraBytes w k ≤ 8 := extraBytes_le
  refine .inr ⟨?_, by simp [hp]⟩
  simp only [answersLeft, hp, takeTag_j]
  omega

/-- `t` is `s` after an answer that moved the acting block. -/
structure Advances (s t : State) : Prop where
  inPort : t.cur.inPort = s.cur.inPort
  outPort : t.cur.outPort = s.cur.outPort
  block : BlockAdvances s.cur.block t.cur.block

theorem advances_setBlock {s s' : State} {b : Block} (hc : s'.cur = s.cur) (hb : BlockAdvances s.cur.block b) :
    Advances s (s'.setBlock b) := by
  refine ⟨?_, ?_, hb⟩ <;> simp [hc]

theorem emitStep_advances (a : Answer) {s : State} (h : s.Sound) (hp : s.cur.block.phase = .emit)
    (ho : s.cur.outPort.isSome = true) : ∃ t, emitStep a s = .next t ∧ Advances s t := by
  have hk := sound_cur h
  obtain ⟨hj, hnb⟩ := counters_of_sound hk (.inl hp)
  obtain ⟨id, st, hst⟩ := attachedOut_of_sound h ho
  simp only [emitStep, scratch_at_j (Nat.lt_of_lt_of_le hj hnb)]
  rcases ha : a.fails with _ | _
  · rw [outWrite_ok hst ha]
    exact ⟨_, rfl, advances_setBlock rfl (blockAdvances_emitted hk hp)⟩
  · rw [outWrite_fault hst ha]
    refine ⟨_, rfl, advances_setBlock (by split <;> rfl) (.inl (busy_raise ..))⟩

theorem tagStep_advances (a : Answer) {s : State} (h : s.Sound) (hp : s.cur.block.phase = .tag)
    (hi : s.cur.inPort.isSome = true) : ∃ t, tagStep a s = .next t ∧ Advances s t := by
  obtain ⟨id, st, hst⟩ := attachedIn_of_sound h hi
  unfold tagStep
  rcases inRead_cases a s with ⟨hn, -⟩ | ⟨_, _, -, ⟨b0, -, -, hr⟩ | ⟨-, hr⟩⟩
  · rw [hst] at hn; cases hn
  · have he : ∀ sts, tagEnabled s.cur.block.op.width { s with inStreams := sts } = true := fun _ =>
      tagEnabled_iff.2 ⟨hp, rfl⟩
    simp only [hr, exec_decodeTag]
    split
    · rename_i k _
      by_cases hk : k = 0
      · subst hk
        rw [acceptTag_zero (he _)]
        exact ⟨_, rfl, advances_setBlock rfl (.inl (busy_finish _))⟩
      · rw [acceptTag_pos (he _) hk]
        exact ⟨_, rfl, advances_setBlock rfl (blockAdvances_tagged _ _ _ hp)⟩
    · rw [rejectTag, if_pos (he _)]
      exact ⟨_, rfl, advances_setBlock rfl (.inl (busy_raise ..))⟩
  · simp only [hr]
    exact ⟨_, rfl, advances_setBlock rfl (.inl (busy_raise ..))⟩

theorem bodyStep_advances (a : Answer) {s : State} (h : s.Sound) (hp : s.cur.block.phase = .body)
    (hi : s.cur.inPort.isSome = true) : ∃ t, bodyStep a s = .next t ∧ Advances s t := by
  have hk := sound_cur h
  obtain ⟨hj, hnb⟩ := counters_of_sound hk (.inr hp)
  obtain ⟨id, st, hst⟩ := attachedIn_of_sound h hi
  rw [bodyStep, if_pos (Nat.lt_of_lt_of_le hj hnb)]
  rcases inRead_cases a s with ⟨hn, -⟩ | ⟨_, _, -, ⟨b0, -, -, hr⟩ | ⟨-, hr⟩⟩
  · rw [hst] at hn; cases hn
  · simp only [hr]
    exact ⟨_, rfl, advances_setBlock rfl (blockAdvances_takeBody b0 hk hp)⟩
  · simp only [hr]
    exact ⟨_, rfl, advances_setBlock rfl (.inl (busy_raise ..))⟩

/-- Every answer at an attached port moves a busy block. -/
theorem microStep_advances (a : Answer) {s : State} (h : s.Sound) (hb : s.cur.busy = true) (hp : PortAttached s) :
    ∃ t, microStep a s = .next t ∧ Advances s t := by
  obtain ⟨hout, hin⟩ := hp
  unfold microStep
  cases hph : s.cur.block.phase with
  | none => exact absurd hph ((sound_cur h).busyPhase.1 hb)
  | emit => exact emitStep_advances a h hph (hout hph)
  | tag => exact tagStep_advances a h hph (hin (by simp [hph]))
  | body => exact bodyStep_advances a h hph (hin (by simp [hph]))

theorem onInst_of_focus {n : Nat} {f : State → Result} {s s' : State} (h : focus n s = some s') :
    onInst n f s = f s' := by
  simp only [onInst, h]

/-- With no held write ready, a step is the next turn of the schedule. -/
theorem step_of_schedule {s : State} {u : Turn} {rest : List Turn} (hr : s.readyInst = none)
    (hs : s.schedule = u :: rest) : step s = runTurn u { s with schedule := rest } := by
  simp only [step, nextMove, hr, hs]

/-- With no held write ready, an answer turn of the acting instance is its micro-step. -/
theorem step_answer_cur {s : State} {a : Answer} {rest : List Turn} (hr : s.readyInst = none)
    (hs : s.schedule = .answer s.curNum a :: rest) : step s = microStep a { s with schedule := rest } := by
  rw [step_of_schedule hr hs]
  exact onInst_of_focus (focus_curNum { s with schedule := rest })

/-- The conditions under which the answers of the acting instance's stream are the next steps. -/
structure Answering (s : State) (turns : List Turn) : Prop where
  sound : s.Sound
  busy : s.cur.busy = true
  ready : s.readyInst = none
  port : PortAttached s
  schedule : s.schedule = turns

/-- An instance that stays BUSY has no held write to complete, and the others are as before. -/
theorem readyInst_of_actSpec {o : Option Cause} {s t : State} (ha : ActSpec o s t) (hr : s.readyInst = none)
    (hb : t.cur.busy = true) : t.readyInst = none := by
  rw [State.readyInst, List.findIdx?_eq_none_iff] at hr ⊢
  intro i hi
  rcases mem_instances_of_actSpec ha hi with rfl | hi
  · simp [Inst.heldReady, hb]
  · exact hr i hi

/-- One answered step ends the command or leads on, with fewer answers left. -/
theorem step_answering {s : State} {a : Answer} {turns : List Turn}
    (h : Answering s (.answer s.curNum a :: turns)) :
    ∃ t, step s = .next t ∧ t.curNum = s.curNum ∧
      (t.cur.busy = false ∨ Answering t turns ∧ answersLeft t.cur.block < answersLeft s.cur.block) := by
  obtain ⟨hsound, hbusy, hready, hport, hsched⟩ := h
  obtain ⟨t, hm, hin, hout, hadv⟩ := microStep_advances a (sound_schedule hsound turns) hbusy hport
  have ha := microStep_spec hm
  refine ⟨t, (step_answer_cur hready hsched).trans hm, ha.curNum, ?_⟩
  by_cases hb : t.cur.busy = true
  · obtain ⟨hlt, hph⟩ := hadv.resolve_left (by simpa [Inst.busy] using hb)
    refine .inr ⟨⟨actSpec_sound ha (sound_schedule hsound turns), hb, readyInst_of_actSpec ha hready hb, ?_,
      ha.schedule⟩, hlt⟩
    rw [PortAttached, hin, hout, Ne, hph]
    exact hport
  · exact .inl (by simpa using hb)

theorem run_succ {k : Nat} {s t : State} (h : step s = .next t) : core.run (k + 1) s = core.run k t := by
  simp only [Host.Core.run, show core.step s = .next t from h]

/-- By induction on the answers: each leaves fewer to come, and none is left only when the command has ended. -/
theorem run_answers_ends_busy (as : List Answer) (rest : List Turn) (s : State)
    (h : Answering s (answerTurns s.curNum as ++ rest)) (hn : answersLeft s.cur.block ≤ as.length) :
    ∃ k t, k ≤ as.length ∧ core.run k s = .next t ∧ t.cur.busy = false ∧ t.curNum = s.curNum := by
  induction as generalizing s with
  | nil => exact absurd hn (Nat.not_le.2 (answersLeft_pos (sound_cur h.sound) h.busy))
  | cons a as ih =>
    obtain ⟨t, hs, hc, hb | ⟨ht, hlt⟩⟩ := step_answering h
    · exact ⟨1, t, by simp, run_succ hs, hb, hc⟩
    · rw [List.length_cons] at hn
      obtain ⟨k, u, hk, hu, hb, hcu⟩ := ih t (by rw [hc]; exact ht) (by omega)
      exact ⟨k + 1, u, by simpa using hk, (run_succ hs).trans hu, hb, hcu.trans hc⟩

/-- Settles O55: nine is a bound on the answers left in every sound block. -/
theorem busyEndsWithinNineAnswers : Obligations.BusyEndsWithinNineAnswers := by
  intro s as rest h hb hr hout hin hs hlen
  have hport : PortAttached s := by
    refine ⟨fun hp => ?_, fun hp => ?_⟩
    · obtain ⟨⟨id, st⟩, hst⟩ := Option.isSome_iff_exists.1 (hout hp)
      rw [(attachedOut_spec.1 hst).1]; rfl
    · obtain ⟨⟨id, st⟩, hst⟩ := Option.isSome_iff_exists.1 (hin hp)
      rw [(attachedIn_spec.1 hst).1]; rfl
  rw [← hlen]
  exact run_answers_ends_busy as rest s ⟨h, hb, hr, hport, hs⟩ (hlen ▸ answersLeft_le (sound_cur h))

end Sys2Proof.Proofs
end

section
/-! Who writes what (R16, R17, R18, R21, R22, R31): each register changes only in some of the moves of `BlockStep`,
which a step makes of an instance by what it delivers there. -/

namespace Sys2Proof.Proofs

open Sys2Proof Sys2Proof.Machine

/-- Settles O49: an action keeps the instances before and behind the acting one. -/
theorem stepTouchesOnlyItsInstance : Obligations.StepTouchesOnlyItsInstance := by
  intro s t hs
  rcases step_cases hs with ⟨-, -, rfl⟩ | ⟨n, s', turns, o, hact, hf, ha, -⟩
  · exact ⟨rfl, fun _ _ => rfl⟩
  · obtain ⟨hi, hn, -⟩ := focus_spec hf
    have hi' : s'.instances = s.instances := hi
    refine ⟨?_, fun m hm => ?_⟩
    · rw [← hi', instances_eq, instances_eq, ha.before, ha.after]
      simp
    · rw [← hi']
      exact instances_other ha.before ha.after (fun he => hm (by rw [hact, he, hn]))

/-- The moves that write `RES`: the two ends of a decode and reset (R17). -/
theorem blockStep_res {b b' : Block} {o : Option Cause} (h : BlockStep b o b') (hne : b'.res ≠ b.res) :
    (b' = Block.reset ∧ o = some .reset) ∨
      ((b.phase = .tag ∨ b.phase = .body) ∧ b'.res.isSome = true ∧ b'.phase = .none ∧
        statusState b'.status = RunState.done.code ∧ ∃ a, o = some (.answer a) ∧ a.fails = false) := by
  cases h with
  | tagFinish a b0 hp ha hc => exact .inr ⟨.inl hp, rfl, rfl, by simp, a, rfl, ha⟩
  | bodyOk a byte hp ha hj =>
    by_cases hl : b.j + 1 = b.nb
    · rw [takeBody_of_last hl]
      exact .inr ⟨.inr hp, rfl, rfl, by simp, a, rfl, ha⟩
    · rw [takeBody_of_not_last hl] at hne
      exact absurd rfl hne
  | reset => exact .inl ⟨rfl, rfl⟩
  | emitOk => exact absurd (emitted_res b) hne
  | same | argWrite | encStart | decStart | illegal | emitFault | readFault | tagGoOn | tagReject =>
    exact absurd rfl hne

/-- Settles O51: the move that the step makes of the instance is one that writes `RES`. -/
theorem resWrittenOnlyByDecodeDone : Obligations.ResWrittenOnlyByDecodeDone := by
  intro s t n i i' hs hi hi' hne
  obtain ⟨o, hb, -, hd⟩ := inst_move hs hi hi'
  rcases blockStep_res hb hne with ⟨hr, ho⟩ | ⟨hp, hr, hn, hst, a, ho, ha⟩
  · exact .inl ⟨hr, hd _ ho⟩
  · exact .inr ⟨hp, hr, hn, hst, a, hd _ ho, ha⟩

/-- The moves that write `FAULT_INFO`: the two stream faults and reset (R21, R93). -/
theorem blockStep_faultInfo {b b' : Block} {o : Option Cause} (h : BlockStep b o b')
    (hne : b'.faultInfo ≠ b.faultInfo) :
    (b' = Block.reset ∧ o = some .reset) ∨
      (b.phase ≠ .none ∧ statusState b'.status = RunState.error.code ∧
        (statusErr b'.status = ErrCode.inFault.code ∨ statusErr b'.status = ErrCode.outFault.code) ∧
        ∃ a, o = some (.answer a) ∧ b'.faultInfo = some a.info) := by
  cases h with
  | emitFault a hp => exact .inr ⟨by simp [hp], by simp, .inr (by simp [HwError.errCode]), a, rfl, rfl⟩
  | readFault a hp =>
    exact .inr ⟨by rcases hp with hp | hp <;> simp [hp], by simp, .inl (by simp [HwError.errCode]), a, rfl, rfl⟩
  | reset => exact .inl ⟨rfl, rfl⟩
  | emitOk => exact absurd (emitted_faultInfo b) hne
  | bodyOk a byte => exact absurd (takeBody_faultInfo b byte) hne
  | same | argWrite | encStart | decStart | illegal | tagFinish | tagGoOn | tagReject => exact absurd rfl hne

/-- Settles O52: the move that the step makes of the instance is one that writes `FAULT_INFO`. -/
theorem faultInfoWrittenOnlyByStreamFault : Obligations.FaultInfoWrittenOnlyByStreamFault := by
  intro s t n i i' hs hi hi' hne
  obtain ⟨o, hb, -, hd⟩ := inst_move hs hi hi'
  rcases blockStep_faultInfo hb hne with ⟨hr, ho⟩ | ⟨hp, hst, herr, a, ho, hinfo⟩
  · exact .inl ⟨hr, hd _ ho⟩
  · exact .inr ⟨hp, hst, herr, a, hd _ ho, hinfo⟩

/-- The moves that write `ARG`: the host's write and reset (R16). -/
theorem blockStep_arg {b b' : Block} {o : Option Cause} (h : BlockStep b o b') (hne : b'.arg ≠ b.arg) :
    (b' = Block.reset ∧ o = some .reset) ∨
      (b.busy = false ∧ ∃ v, o = some (.write 1 v) ∧ b' = { b with arg := some (BitVec.ofNat 64 v) }) := by
  cases h with
  | argWrite v hb => exact .inr ⟨hb, v, rfl, rfl⟩
  | reset => exact .inl ⟨rfl, rfl⟩
  | emitOk => exact absurd (emitted_arg b) hne
  | bodyOk a byte => exact absurd (takeBody_arg b byte) hne
  | same | encStart | decStart | illegal | emitFault | readFault | tagFinish | tagGoOn | tagReject =>
    exact absurd rfl hne

/-- Settles O53: the move that the step makes of the instance is one that writes `ARG`. -/
theorem argWrittenOnlyByHost : Obligations.ArgWrittenOnlyByHost := by
  intro s t n i i' hs hi hi' hne
  obtain ⟨o, hb, -, hd⟩ := inst_move hs hi hi'
  rcases blockStep_arg hb hne with ⟨hr, ho⟩ | ⟨hbusy, v, ho, harg⟩
  · exact .inl ⟨hr, hd _ ho⟩
  · exact .inr ⟨hbusy, v, hd _ ho, harg⟩

theorem busy_of_phase {b : Block} (h : b.Sound) {p : Phase} (hp : b.phase = p) (hne : p ≠ .none) : b.busy = true :=
  h.busyPhase.2 (hp ▸ hne)

/-- No byte of the form has been transferred before the tag byte (R85). -/
theorem len_of_tag {b : Block} (h : b.Sound) (hp : b.phase = .tag) : b.len.toNat = 0 := by
  have hi := h.phaseOk
  simp only [Block.phaseInv, hp] at hi
  exact hi.2.2

/-- The moves that write `LEN`: an `ok` transfer counts one, a command start and reset clear (R18). -/
theorem blockStep_len {b b' : Block} {o : Option Cause} (hsound : b.Sound) (h : BlockStep b o b')
    (hne : b'.len ≠ b.len) :
    (b.busy = true ∧ b'.len.toNat = b.len.toNat + 1 ∧ ∃ a, o = some (.answer a) ∧ a.fails = false) ∨
    (b'.len = 0 ∧ b.busy = false ∧ (∃ v, o = some (.write 0 v)) ∧
      (b'.busy = true ∨ (statusState b'.status = RunState.error.code ∧
        statusErr b'.status = ErrCode.illegalCommand.code))) ∨
    (b'.len = 0 ∧ b' = Block.reset ∧ o = some .reset) := by
  have hcount : (b.len + 1).toNat = b.len.toNat + 1 := len_succ (by have := hsound.lenLe; omega)
  cases h with
  | emitOk a hp ha =>
    rw [emitted_len]
    exact .inl ⟨busy_of_phase hsound hp (by decide), hcount, a, rfl, ha⟩
  | bodyOk a byte hp ha hj =>
    rw [takeBody_len]
    exact .inl ⟨busy_of_phase hsound hp (by decide), hcount, a, rfl, ha⟩
  | tagFinish a b0 hp ha hc | tagGoOn a b0 k hp ha hc hk | tagReject a b0 hp ha hc =>
    exact .inl ⟨busy_of_phase hsound hp (by decide), by rw [len_of_tag hsound hp]; rfl, a, rfl, ha⟩
  | encStart v a hb hl hd ha => exact .inr (.inl ⟨rfl, hb, ⟨v, rfl⟩, .inl (busy_latch b (opOfCmd (BitVec.ofNat 8 v)))⟩)
  | decStart v hb hl hd => exact .inr (.inl ⟨rfl, hb, ⟨v, rfl⟩, .inl (busy_latch b (opOfCmd (BitVec.ofNat 8 v)))⟩)
  | illegal v hb hl => exact .inr (.inl ⟨rfl, hb, ⟨v, rfl⟩, .inr ⟨by simp, by simp [HwError.errCode]⟩⟩)
  | reset => exact .inr (.inr ⟨rfl, rfl, rfl⟩)
  | same | argWrite | emitFault | readFault => exact absurd rfl hne

theorem block_sound_of_getElem? {s : State} {n : Nat} {i : Inst} (h : s.Sound) (hi : s.instances[n]? = some i) :
    i.block.Sound := h.blocks i (List.mem_of_getElem? hi)

/-- Settles O54: that `LEN` stays at most 9 is soundness of the block after its move. -/
theorem lenCountsTransfers : Obligations.LenCountsTransfers := by
  intro s t n i i' hsound hs hi hi' hne
  obtain ⟨o, hb, -, hd⟩ := inst_move hs hi hi'
  have hk := block_sound_of_getElem? hsound hi
  rcases blockStep_len hk hb hne with ⟨hbusy, hlen, a, ho, ha⟩ | ⟨hlen, hbusy, ⟨v, ho⟩, hend⟩ | ⟨hlen, hr, ho⟩
  · exact .inl ⟨hbusy, hlen, (blockStep_sound hk hb).lenLe, a, hd _ ho, ha⟩
  · exact .inr (.inl ⟨hlen, hbusy, ⟨v, hd _ ho⟩, hend⟩)
  · exact .inr (.inr ⟨hlen, hr, hd _ ho⟩)

/-- The moves that write `STATUS.STATE` (R22). -/
theorem blockStep_state {b b' : Block} {o : Option Cause} (hsound : b.Sound) (h : BlockStep b o b')
    (hne : statusState b'.status ≠ statusState b.status) :
    (statusState b'.status = RunState.busy.code ∧ b.busy = false ∧
      ∃ v, o = some (.write 0 v) ∧ (BitVec.ofNat 8 v).extractLsb' 3 5 = 0 ∧ b'.op = opOfCmd (BitVec.ofNat 8 v)) ∨
    (statusState b'.status = RunState.error.code ∧ b.busy = false ∧
      statusErr b'.status = ErrCode.illegalCommand.code ∧
      ∃ v, o = some (.write 0 v) ∧ (BitVec.ofNat 8 v).extractLsb' 3 5 ≠ 0) ∨
    (b.busy = true ∧ statusState b'.status = RunState.done.code ∧ statusErr b'.status = 0 ∧ b'.phase = .none ∧
      ∃ a, o = some (.answer a) ∧ a.fails = false) ∨
    (b.busy = true ∧ statusState b'.status = RunState.error.code ∧ b'.phase = .none ∧
      ∃ a, o = some (.answer a)) ∨
    (statusState b'.status = RunState.idle.code ∧ b' = Block.reset ∧ o = some .reset) := by
  have hnoErr : b.busy = true → statusErr b.status = 0 := fun hb => (busy_status hsound hb).1
  cases h with
  | encStart v a hb hl hd ha => exact .inl ⟨by simp, hb, v, rfl, hl, rfl⟩
  | decStart v hb hl hd => exact .inl ⟨by simp, hb, v, rfl, hl, rfl⟩
  | illegal v hb hl => exact .inr (.inl ⟨by simp, hb, by simp [HwError.errCode], v, rfl, hl⟩)
  | emitOk a hp ha =>
    have hb := busy_of_phase hsound hp (by decide)
    by_cases hl : b.j + 1 = b.nb
    · rw [emitted_of_last hl]
      exact .inr (.inr (.inl ⟨hb, by simp, by simpa using hnoErr hb, rfl, a, rfl, ha⟩))
    · rw [emitted_of_not_last hl] at hne
      exact absurd rfl hne
  | bodyOk a byte hp ha hj =>
    have hb := busy_of_phase hsound hp (by decide)
    by_cases hl : b.j + 1 = b.nb
    · rw [takeBody_of_last hl]
      exact .inr (.inr (.inl ⟨hb, by simp, by simpa using hnoErr hb, rfl, a, rfl, ha⟩))
    · rw [takeBody_of_not_last hl] at hne
      exact absurd rfl hne
  | tagFinish a b0 hp ha hc =>
    have hb := busy_of_phase hsound hp (by decide)
    exact .inr (.inr (.inl ⟨hb, by simp, by simpa using hnoErr hb, rfl, a, rfl, ha⟩))
  | emitFault a hp =>
    exact .inr (.inr (.inr (.inl ⟨busy_of_phase hsound hp (by decide), by simp, rfl, a, rfl⟩)))
  | readFault a hp =>
    have hb : b.busy = true := by
      rcases hp with hp | hp
      · exact busy_of_phase hsound hp (by decide)
      · exact busy_of_phase hsound hp (by decide)
    exact .inr (.inr (.inr (.inl ⟨hb, by simp, rfl, a, rfl⟩)))
  | tagReject a b0 hp ha hc =>
    exact .inr (.inr (.inr (.inl ⟨busy_of_phase hsound hp (by decide), by simp, rfl, a, rfl⟩)))
  | reset => exact .inr (.inr (.inr (.inr ⟨by decide, rfl, rfl⟩)))
  | same | argWrite | tagGoOn => exact absurd rfl hne

/-- Settles O50: the move that the step makes of the instance is one that writes `STATUS.STATE`. -/
theorem stateTransitions : Obligations.StateTransitions := by
  intro s t n i i' hsound hs hi hi' hne
  obtain ⟨o, hb, -, hd⟩ := inst_move hs hi hi'
  rcases blockStep_state (block_sound_of_getElem? hsound hi) hb hne with
    ⟨hst, hbusy, v, ho, hlegal, hop⟩ | ⟨hst, hbusy, herr, v, ho, hres⟩ | ⟨hbusy, hst, herr, hp, a, ho, ha⟩ |
    ⟨hbusy, hst, hp, a, ho⟩ | ⟨hst, hr, ho⟩
  · exact .inl ⟨hst, hbusy, v, hd _ ho, hlegal, hop⟩
  · exact .inr (.inl ⟨hst, hbusy, herr, v, hd _ ho, hres⟩)
  · exact .inr (.inr (.inl ⟨hbusy, hst, herr, hp, a, hd _ ho, ha⟩))
  · exact .inr (.inr (.inr (.inl ⟨hbusy, hst, hp, a, hd _ ho⟩)))
  · exact .inr (.inr (.inr (.inr ⟨hst, hr, hd _ ho⟩)))

end Sys2Proof.Proofs
end

section
/-! Hidden values (R20, R23, R110): every operation, run on two machines that differ at most in what no rule reads,
gives results that differ at most there. One lemma per operation, from the block up to the step. -/

namespace Sys2Proof.Proofs

open Sys2Proof Sys2Proof.Machine

/-! ### Blocks -/

section Blocks

variable {a b : Block} (h : a.Alike b)

include h

theorem alike_status : a.status = b.status := congrArg Observables.status h.observables
theorem alike_len : a.len = b.len := congrArg Observables.len h.observables
theorem alike_res : a.res = b.res := congrArg Observables.res h.observables
theorem alike_faultInfo : a.faultInfo = b.faultInfo := congrArg Observables.faultInfo h.observables
theorem alike_busy : a.busy = b.busy := busy_congr (alike_status h)

end Blocks

/-- With `PHASE = NONE` only the registers matter. -/
theorem alike_of_phase_none {a b : Block} (ha : a.phase = .none) (harg : a.arg = b.arg)
    (ho : a.observables = b.observables) (hp : a.phase = b.phase) : a.Alike b where
  arg := harg
  observables := ho
  phase := hp
  op := fun hne => absurd ha hne
  counters := fun hc => by rw [ha] at hc; rcases hc with hc | hc <;> cases hc
  emitted := fun hc => by rw [ha] at hc; cases hc
  taken := fun hc => by rw [ha] at hc; cases hc

theorem alike_refl (b : Block) : b.Alike b :=
  ⟨rfl, rfl, rfl, fun _ => rfl, fun _ => ⟨rfl, rfl, rfl⟩, fun _ _ _ => rfl, fun _ _ _ => rfl⟩

section BlockMoves

variable {a b : Block} (h : a.Alike b)

include h

theorem alike_withArg (v : Option Word64) : Block.Alike { a with arg := v } { b with arg := v } :=
  ⟨rfl, h.observables, h.phase, h.op, h.counters, h.emitted, h.taken⟩

theorem alike_finish : a.finish.Alike b.finish :=
  alike_of_phase_none rfl h.arg
    (by simp [Block.observables, alike_status h, alike_len h, alike_res h, alike_faultInfo h]) rfl

theorem alike_raise (e : HwError) : (a.raise e).Alike (b.raise e) :=
  alike_of_phase_none rfl h.arg
    (by simp [Block.observables, alike_status h, alike_len h, alike_res h, alike_faultInfo h]) rfl

theorem alike_illegal : (a.clearResult.raise .illegalCommand).Alike (b.clearResult.raise .illegalCommand) :=
  alike_of_phase_none rfl h.arg (by simp [Block.observables, alike_status h, alike_res h, alike_faultInfo h]) rfl

/-- The encoder start writes every hidden value it will read (R73). -/
theorem alike_encStart (op : Op) (w : Width) (v : Word64) :
    ((a.latch op).encoderStart w v).Alike ((b.latch op).encoderStart w v) where
  arg := h.arg
  observables := by simp [Block.observables, alike_status h, alike_res h, alike_faultInfo h]
  phase := rfl
  op := fun _ => rfl
  counters := fun _ => ⟨rfl, rfl, rfl⟩
  emitted := by
    intro _ i hi
    have h8 : extraBytes w (tierOf w (argValue w v)) ≤ 8 := extraBytes_le
    have hlen : 0 + (enc w (argValue w v)).length ≤ 9 := by rw [enc_length]; omega
    have hin : 0 ≤ i ∧ i < 0 + (enc w (argValue w v)).length := ⟨Nat.zero_le i, by rw [Nat.zero_add]; exact hi⟩
    rw [encoderStart_scratch, encoderStart_scratch, fillScratch_getElem? _ _ _ _ hlen,
      fillScratch_getElem? _ _ _ _ hlen, if_pos hin, if_pos hin]
  taken := nofun

/-- A decode start reads no hidden value but the `OP` it has latched (R30). -/
theorem alike_decStart (op : Op) :
    Block.Alike { a.latch op with phase := .tag } { b.latch op with phase := .tag } where
  arg := h.arg
  observables := by simp [Block.observables, alike_status h, alike_res h, alike_faultInfo h]
  phase := rfl
  op := fun _ => rfl
  counters := nofun
  emitted := nofun
  taken := nofun

theorem alike_emitted (hp : a.phase = .emit) : a.emitted.Alike b.emitted := by
  obtain ⟨htier, hnb, hj⟩ := h.counters (.inl hp)
  have hobs : ({ a with j := a.j + 1, len := a.len + 1 } : Block).Alike { b with j := b.j + 1, len := b.len + 1 } :=
    { arg := h.arg
      observables := by simp [Block.observables, alike_status h, alike_len h, alike_res h, alike_faultInfo h]
      phase := h.phase
      op := h.op
      counters := fun _ => ⟨htier, hnb, by simp [hj]⟩
      emitted := h.emitted
      taken := fun hb => by rw [hp] at hb; cases hb }
  by_cases hl : a.j + 1 = a.nb
  · rw [emitted_of_last hl, emitted_of_last (by rw [← hj, ← hnb]; exact hl)]
    exact alike_finish hobs
  · rw [emitted_of_not_last hl, emitted_of_not_last (by rw [← hj, ← hnb]; exact hl)]
    exact hobs

/-- A body byte goes behind the bytes that the blocks agree on (R86). -/
theorem alike_stored (hp : a.phase = .body) (x : Byte) : (stored a x).Alike (stored b x) := by
  obtain ⟨htier, hnb, hj⟩ := h.counters (.inr hp)
  refine
    { arg := h.arg
      observables := by simp [Block.observables, alike_status h, alike_len h, alike_res h, alike_faultInfo h]
      phase := h.phase
      op := h.op
      counters := fun _ => ⟨htier, hnb, by simp [hj]⟩
      emitted := fun hb => by rw [hp] at hb; cases hb
      taken := fun _ i hi => ?_ }
  rw [Vector.getElem?_setIfInBounds, Vector.getElem?_setIfInBounds, ← hj]
  split
  · rfl
  · exact h.taken hp i (by have : i < a.j + 1 := hi; omega)

/-- The value of a whole form rests on the bytes read alone (R86). -/
theorem formValue_congr (hp : a.phase = .body) (hj : a.j = a.nb) : a.formValue = b.formValue := by
  obtain ⟨htier, hnb, -⟩ := h.counters (.inr hp)
  have htake : a.scratch.toList.take a.nb = b.scratch.toList.take a.nb := by
    apply List.ext_getElem?
    intro i
    rw [List.getElem?_take, List.getElem?_take]
    split
    · rw [Vector.getElem?_toList, Vector.getElem?_toList]
      exact h.taken hp i (by omega)
    · rfl
  rw [Block.formValue, Block.formValue, htake, htier, hnb, h.op (by simp [hp])]

theorem alike_takeBody (hp : a.phase = .body) (x : Byte) : (a.takeBody x).Alike (b.takeBody x) := by
  obtain ⟨-, hnb, hj⟩ := h.counters (.inr hp)
  have hs := alike_stored h hp x
  by_cases hl : a.j + 1 = a.nb
  · rw [takeBody_of_last hl, takeBody_of_last (by rw [← hj, ← hnb]; exact hl), formValue_congr hs hp hl]
    exact alike_of_phase_none rfl h.arg
      (by simp [Block.observables, alike_status h, alike_len h, alike_faultInfo h]) rfl
  · rw [takeBody_of_not_last hl, takeBody_of_not_last (by rw [← hj, ← hnb]; exact hl)]
    exact hs

theorem alike_tagReject (x : Byte) :
    ((a.takeTag x).raise (.unrecognizedTag x)).Alike ((b.takeTag x).raise (.unrecognizedTag x)) :=
  alike_of_phase_none rfl h.arg (by simp [Block.observables, alike_status h, alike_res h, alike_faultInfo h]) rfl

theorem alike_tagFinish (w : Width) (x : Byte) (v : Option Word64) :
    Block.Alike (Block.finish { a.tagged w 0 x with res := v }) (Block.finish { b.tagged w 0 x with res := v }) :=
  alike_of_phase_none rfl h.arg (by simp [Block.observables, alike_status h, alike_faultInfo h]) rfl

/-- The tag byte is the first of `SCRATCH`, and `TIER`, `NB` and `J` are written with it (R85). -/
theorem alike_tagGoOn (w : Width) (k : Nat) (x : Byte) (hop : a.op = b.op) :
    Block.Alike { a.tagged w k x with phase := .body } { b.tagged w k x with phase := .body } where
  arg := h.arg
  observables := by simp [Block.observables, alike_status h, alike_res h, alike_faultInfo h]
  phase := rfl
  op := fun _ => hop
  counters := fun _ => ⟨rfl, rfl, rfl⟩
  emitted := nofun
  taken := by
    intro _ i hi
    have h0 : 0 = i := (Nat.lt_one_iff.1 hi).symm
    rw [takeTag_scratch, takeTag_scratch, Vector.getElem?_setIfInBounds, Vector.getElem?_setIfInBounds, if_pos h0,
      if_pos h0]

end BlockMoves

/-! ### States -/

theorem inst_alike_busy {i j : Inst} (h : i.Alike j) : i.busy = j.busy := alike_busy h.block

section States

variable {s t : State} (h : s.Alike t)

include h

theorem alike_instances : List.Forall₂ Inst.Alike s.instances t.instances :=
  List.rel_append h.before (.cons h.cur h.after)

theorem alike_setCur {i j : Inst} (hi : i.Alike j) : (s.setCur i).Alike (t.setCur j) :=
  ⟨h.before, hi, h.after, h.inStreams, h.outStreams, h.reads, h.schedule⟩

theorem alike_setBlock {a b : Block} (hb : a.Alike b) : (s.setBlock a).Alike (t.setBlock b) :=
  alike_setCur h ⟨hb, h.cur.held, h.cur.inPort, h.cur.outPort, h.cur.program, h.cur.pending⟩

theorem alike_hold (w : HostWrite) : (s.hold w).Alike (t.hold w) :=
  alike_setCur h ⟨h.cur.block, congrArg (· ++ [w]) h.cur.held, h.cur.inPort, h.cur.outPort, h.cur.program,
    h.cur.pending⟩

theorem alike_withInStreams (ins : List InStream) :
    State.Alike { s with inStreams := ins } { t with inStreams := ins } :=
  ⟨h.before, h.cur, h.after, rfl, h.outStreams, h.reads, h.schedule⟩

theorem alike_withOutStreams (outs : List OutStream) :
    State.Alike { s with outStreams := outs } { t with outStreams := outs } :=
  ⟨h.before, h.cur, h.after, h.inStreams, rfl, h.reads, h.schedule⟩

theorem alike_withSchedule (turns : List Turn) :
    State.Alike { s with schedule := turns } { t with schedule := turns } :=
  ⟨h.before, h.cur, h.after, h.inStreams, h.outStreams, h.reads, rfl⟩

theorem alike_record (r : RegNum) (v : RegValue) : (s.record r v).Alike (t.record r v) := by
  refine ⟨h.before, h.cur, h.after, h.inStreams, h.outStreams, ?_, h.schedule⟩
  rw [record_reads, record_reads, h.reads, State.curNum, State.curNum, h.before.length_eq]

theorem alike_cur_busy : s.cur.busy = t.cur.busy := inst_alike_busy h.cur

theorem alike_attachedIn : s.attachedIn = t.attachedIn := by
  simp only [State.attachedIn, h.cur.inPort, h.inStreams]

theorem alike_attachedOut : s.attachedOut = t.attachedOut := by
  simp only [State.attachedOut, h.cur.outPort, h.outStreams]

end States

/-- A test that alike instances answer alike finds the same in alike lists. -/
theorem any_congr_of_alike {p q : Inst → Bool} (hpq : ∀ i j, Inst.Alike i j → p i = q j) {xs ys : List Inst}
    (h : List.Forall₂ Inst.Alike xs ys) : xs.any p = ys.any q := by
  induction h with
  | nil => rfl
  | cons hi _ ih => rw [List.any_cons, List.any_cons, hpq _ _ hi, ih]

theorem findIdx?_congr_of_alike {p : Inst → Bool} (hp : ∀ i j, Inst.Alike i j → p i = p j) {xs ys : List Inst}
    (h : List.Forall₂ Inst.Alike xs ys) : xs.findIdx? p = ys.findIdx? p := by
  induction h with
  | nil => rfl
  | cons hi _ ih => rw [List.findIdx?_cons, List.findIdx?_cons, hp _ _ hi, ih]

theorem alike_conflicts {s t : State} (h : s.Alike t) {i j : Inst} (hin : i.inPort = j.inPort)
    (hout : i.outPort = j.outPort) : s.conflicts i = t.conflicts j := by
  refine any_congr_of_alike (fun x y hxy => ?_) (List.rel_append h.before h.after)
  simp only [Inst.sharesStream, hin, hout, hxy.inPort, hxy.outPort, inst_alike_busy hxy]

theorem alike_readyInst {s t : State} (h : s.Alike t) : s.readyInst = t.readyInst := by
  refine findIdx?_congr_of_alike (fun x y hxy => ?_) (alike_instances h)
  simp only [Inst.heldReady, hxy.held, inst_alike_busy hxy]

/-! ### Operations -/

section Operations

variable {s t : State} (h : s.Alike t)

include h

theorem alike_startCommand (c : Byte) (op : Op) : resultsAlike (startCommand c op s) (startCommand c op t) := by
  simp only [startCommand, alike_cur_busy h, alike_conflicts h h.cur.inPort h.cur.outPort, h.cur.block.arg]
  split
  · exact alike_hold h _
  · split
    · rfl
    · split
      · split
        · rfl
        · exact alike_setBlock h (alike_encStart h.cur.block ..)
      · exact alike_setBlock h (alike_decStart h.cur.block ..)

theorem alike_illegalCommand (c : Byte) : resultsAlike (illegalCommand c s) (illegalCommand c t) := by
  simp only [illegalCommand, alike_cur_busy h]
  split
  · exact alike_hold h _
  · exact alike_setBlock h (alike_illegal h.cur.block)

theorem alike_hostWrite (r : RegNum) (v : Nat) : resultsAlike (hostWrite r v s) (hostWrite r v t) := by
  simp only [hostWrite, exec_decodeCmd, alike_cur_busy h]
  split
  · split
    · exact alike_startCommand h ..
    · exact alike_illegalCommand h _
  · split
    · exact alike_hold h _
    · split
      · exact alike_setBlock h (alike_withArg h.cur.block _)
      · split
        · exact h
        · rfl

theorem alike_hostRead (r : RegNum) : resultsAlike (hostRead r s) (hostRead r t) := by
  have hk := h.cur.block
  have hreg : s.cur.block.readReg r = t.cur.block.readReg r := by
    simp only [Block.readReg, hk.arg, alike_res hk, alike_len hk, alike_status hk, alike_faultInfo hk]
  simp only [hostRead, hreg]
  split
  · exact alike_record h ..
  · rfl
  · rfl

theorem alike_hostAccess (a : Access) : resultsAlike (hostAccess a s) (hostAccess a t) := by
  cases a with
  | read r => exact alike_hostRead h r
  | write r v => exact alike_hostWrite h r v

theorem alike_completeHeld : resultsAlike (completeHeld s) (completeHeld t) := by
  simp only [completeHeld, h.cur.held, h.cur.pending]
  split
  · exact h
  · refine alike_hostWrite (alike_setCur h ?_) ..
    exact ⟨h.cur.block, rfl, h.cur.inPort, h.cur.outPort, h.cur.program, rfl⟩

theorem alike_attachInput (id : Nat) : resultsAlike (attachInput id s) (attachInput id t) := by
  have hi : Inst.Alike { s.cur with inPort := some id } { t.cur with inPort := some id } :=
    ⟨h.cur.block, h.cur.held, rfl, h.cur.outPort, h.cur.program, h.cur.pending⟩
  simp only [attachInput, h.cur.block.phase, alike_cur_busy h, alike_conflicts h hi.inPort hi.outPort]
  split
  · rfl
  · split
    · rfl
    · exact alike_setCur h hi

theorem alike_attachOutput (id : Nat) : resultsAlike (attachOutput id s) (attachOutput id t) := by
  have hi : Inst.Alike { s.cur with outPort := some id } { t.cur with outPort := some id } :=
    ⟨h.cur.block, h.cur.held, h.cur.inPort, rfl, h.cur.program, h.cur.pending⟩
  simp only [attachOutput, h.cur.block.phase, alike_cur_busy h, alike_conflicts h hi.inPort hi.outPort]
  split
  · rfl
  · split
    · rfl
    · exact alike_setCur h hi

theorem alike_waitLine : resultsAlike (waitLine s) (waitLine t) := by
  simp only [waitLine, alike_cur_busy h, alike_status h.cur.block]
  have hr := alike_record h 4 (.half t.cur.block.status)
  split
  · exact alike_setCur hr ⟨h.cur.block, h.cur.held, h.cur.inPort, h.cur.outPort,
      congrArg (Line.wait :: ·) h.cur.program, h.cur.pending⟩
  · exact hr

theorem alike_runLine (l : Line) : resultsAlike (runLine l s) (runLine l t) := by
  have hins := h.inStreams
  have houts := h.outStreams
  cases l with
  | access a => exact alike_hostAccess h a
  | wait => exact alike_waitLine h
  | attachIn data =>
    simp only [runLine, hins]
    exact alike_attachInput (alike_withInStreams h _) _
  | attachOut =>
    simp only [runLine, houts]
    exact alike_attachOutput (alike_withOutStreams h _) _
  | attachInStream id =>
    simp only [runLine, hins]
    split
    · exact alike_attachInput h id
    · rfl
  | attachOutStream id =>
    simp only [runLine, houts]
    split
    · exact alike_attachOutput h id
    · rfl

theorem alike_present (l : Line) (ls : List Line) : (s.cur.present l ls).Alike (t.cur.present l ls) :=
  ⟨h.cur.block, h.cur.held, h.cur.inPort, h.cur.outPort, rfl, by
    simp only [Inst.present, alike_cur_busy h, h.cur.held]⟩

theorem alike_hostTurn : resultsAlike (hostTurn s) (hostTurn t) := by
  simp only [hostTurn, h.cur.pending, h.cur.program]
  split
  · exact h
  · split
    · exact h
    · exact alike_runLine (alike_setCur h (alike_present h ..)) _

theorem alike_resetTurn : resultsAlike (resetTurn s) (resetTurn t) := alike_setBlock h (alike_refl _)

end Operations

/-! ### Micro-steps -/

/-- What `InRead` gives of two machines: the same byte or fault, with alike machines behind it. -/
theorem alike_inRead (a : Answer) {s t : State} (h : s.Alike t) :
    (inRead a s = .silent ∧ inRead a t = .silent) ∨
    ∃ s' t', s'.Alike t' ∧ s'.cur = s.cur ∧ t'.cur = t.cur ∧
      ((∃ b, inRead a s = .ok b s' ∧ inRead a t = .ok b t') ∨
        (inRead a s = .fault a.info s' ∧ inRead a t = .fault a.info t')) := by
  have hat := alike_attachedIn h
  rcases inRead_cases a s with ⟨hn, hr⟩ | ⟨id, st, hs, ⟨b, ha, hb, hr⟩ | ⟨hf, hr⟩⟩
  · exact .inl ⟨hr, by simp [inRead, ← hat, hn]⟩
  · have ht := inRead_ok (hat.symm.trans hs) ha hb
    rw [← h.inStreams] at ht
    exact .inr ⟨_, _, alike_withInStreams h (s.inStreams.set id (st.moved 1)), rfl, rfl, .inl ⟨b, hr, ht⟩⟩
  · have ht := inRead_fault (hat.symm.trans hs) hf
    rw [← h.inStreams] at ht
    exact .inr ⟨_, _, alike_withInStreams h (s.inStreams.set id (st.moved a.advance)), rfl, rfl, .inr ⟨hr, ht⟩⟩

theorem alike_outWrite (a : Answer) (b : Byte) {s t : State} (h : s.Alike t) :
    (outWrite a b s = .silent ∧ outWrite a b t = .silent) ∨
    ∃ s' t', s'.Alike t' ∧ s'.cur = s.cur ∧ t'.cur = t.cur ∧
      ((outWrite a b s = .ok s' ∧ outWrite a b t = .ok t') ∨
        (outWrite a b s = .fault a.info s' ∧ outWrite a b t = .fault a.info t')) := by
  have hat := alike_attachedOut h
  rcases outWrite_cases a b s with ⟨hn, hr⟩ | ⟨id, st, hs, ⟨ha, hr⟩ | ⟨ha, hr⟩⟩
  · exact .inl ⟨hr, by simp [outWrite, ← hat, hn]⟩
  · have ht := outWrite_ok (b := b) (hat.symm.trans hs) ha
    rw [← h.outStreams] at ht
    exact .inr ⟨_, _, alike_withOutStreams h (s.outStreams.set id (st.push b)), rfl, rfl, .inl ⟨hr, ht⟩⟩
  · have ht := outWrite_fault (b := b) (hat.symm.trans hs) ha
    rw [← h.outStreams] at ht
    refine .inr ⟨_, _, ?_, ?_, ?_, .inr ⟨hr, ht⟩⟩ <;> split
    · exact alike_withOutStreams h _
    · exact h
    all_goals rfl

/-- The byte emitted is one of the form, on which the machines agree (R74): here soundness is used. -/
theorem alike_emitStep (a : Answer) {s t : State} (h : s.Alike t) (hk : s.cur.block.Sound)
    (hp : s.cur.block.phase = .emit) : resultsAlike (emitStep a s) (emitStep a t) := by
  obtain ⟨hj, -⟩ := counters_of_sound hk (.inl hp)
  obtain ⟨-, -, hjt⟩ := h.cur.block.counters (.inl hp)
  have hbyte := h.cur.block.emitted hp _ hj
  simp only [emitStep, ← hjt, ← hbyte]
  split
  · rfl
  · rename_i byte _
    rcases alike_outWrite a byte h with ⟨hs, ht⟩ | ⟨s', t', h', hs', ht', ⟨hs, ht⟩ | ⟨hs, ht⟩⟩
    · simp only [hs, ht]
      exact h
    · simp only [hs, ht, hs', ht']
      exact alike_setBlock h' (alike_emitted h.cur.block hp)
    · simp only [hs, ht, hs', ht']
      exact alike_setBlock h' (alike_raise h.cur.block _)

theorem alike_tagEnabled (w : Width) {s t : State} (h : s.Alike t) (hp : s.cur.block.phase = .tag) :
    tagEnabled w s = tagEnabled w t := by
  simp only [tagEnabled, h.cur.block.phase, h.cur.block.op (by simp [hp])]

theorem alike_acceptTag (w : Width) (k : Nat) (x : Byte) {s t : State} (h : s.Alike t)
    (hp : s.cur.block.phase = .tag) : resultsAlike (acceptTag w k x s) (acceptTag w k x t) := by
  simp only [acceptTag, alike_tagEnabled w h hp]
  split
  · split
    · rename_i hnb
      have hk : k = 0 := extraBytes_eq_zero.1 (by simpa using hnb)
      subst hk
      exact alike_setBlock h (alike_tagFinish h.cur.block ..)
    · exact alike_setBlock h (alike_tagGoOn h.cur.block _ _ _ (h.cur.block.op (by simp [hp])))
  · rfl

theorem alike_rejectTag (w : Width) (x : Byte) {s t : State} (h : s.Alike t) (hp : s.cur.block.phase = .tag) :
    resultsAlike (rejectTag w x s) (rejectTag w x t) := by
  simp only [rejectTag, alike_tagEnabled w h hp]
  split
  · exact alike_setBlock h (alike_tagReject h.cur.block x)
  · rfl

theorem alike_tagStep (a : Answer) {s t : State} (h : s.Alike t) (hp : s.cur.block.phase = .tag) :
    resultsAlike (tagStep a s) (tagStep a t) := by
  unfold tagStep
  rcases alike_inRead a h with ⟨hs, ht⟩ | ⟨s', t', h', hs', ht', ⟨b, hs, ht⟩ | ⟨hs, ht⟩⟩
  · simp only [hs, ht]
    exact h
  · simp only [hs, ht, exec_decodeTag, ← h.cur.block.op (by simp [hp])]
    split
    · exact alike_acceptTag _ _ _ h' (hs' ▸ hp)
    · exact alike_rejectTag _ _ h' (hs' ▸ hp)
  · simp only [hs, ht, hs', ht']
    exact alike_setBlock h' (alike_raise h.cur.block _)

theorem alike_bodyStep (a : Answer) {s t : State} (h : s.Alike t) (hp : s.cur.block.phase = .body) :
    resultsAlike (bodyStep a s) (bodyStep a t) := by
  obtain ⟨-, -, hj⟩ := h.cur.block.counters (.inr hp)
  simp only [bodyStep, ← hj]
  split
  · rcases alike_inRead a h with ⟨hs, ht⟩ | ⟨s', t', h', hs', ht', ⟨b, hs, ht⟩ | ⟨hs, ht⟩⟩
    · simp only [hs, ht]
      exact h
    · simp only [hs, ht, hs', ht']
      exact alike_setBlock h' (alike_takeBody h.cur.block hp b)
    · simp only [hs, ht, hs', ht']
      exact alike_setBlock h' (alike_raise h.cur.block _)
  · rfl

theorem alike_microStep (a : Answer) {s t : State} (h : s.Alike t) (hk : s.cur.block.Sound) :
    resultsAlike (microStep a s) (microStep a t) := by
  simp only [microStep, ← h.cur.block.phase]
  split
  · exact h
  · exact alike_emitStep a h hk ‹_›
  · exact alike_tagStep a h ‹_›
  · exact alike_bodyStep a h ‹_›

/-! ### Steps -/

/-- Alike machines have the same instances to select, and stay alike. -/
theorem alike_focus (n : Nat) {s t : State} (h : s.Alike t) :
    (focus n s = none ∧ focus n t = none) ∨
    ∃ s' t', focus n s = some s' ∧ focus n t = some t' ∧ s'.Alike t' := by
  have hi := alike_instances h
  have htake := List.forall₂_take n hi
  have hdrop := List.forall₂_drop n hi
  unfold focus
  generalize s.instances.drop n = xs at hdrop ⊢
  generalize t.instances.drop n = ys at hdrop ⊢
  cases hdrop with
  | nil => exact .inl ⟨rfl, rfl⟩
  | cons hc hrest => exact .inr ⟨_, _, rfl, rfl, htake, hc, hrest, h.inStreams, h.outStreams, h.reads, h.schedule⟩

theorem alike_onInst (n : Nat) {f : State → Result} {s t : State} (h : s.Alike t)
    (hf : ∀ s' t', focus n s = some s' → s'.Alike t' → resultsAlike (f s') (f t')) :
    resultsAlike (onInst n f s) (onInst n f t) := by
  unfold onInst
  rcases alike_focus n h with ⟨hs, ht⟩ | ⟨s', t', hs, ht, h'⟩
  · rw [hs, ht]
    rfl
  · rw [hs, ht]
    exact hf s' t' hs h'

/-- Settles O48: whichever operation the step runs, it runs it on alike machines. -/
theorem hiddenValuesUnobservable : Obligations.HiddenValuesUnobservable := by
  intro s t hsound _ h
  simp only [step, nextMove, ← alike_readyInst h, ← h.schedule]
  split
  · exact alike_onInst _ h fun _ _ _ h' => alike_completeHeld h'
  · split
    · exact h
    · rename_i u rest _
      have hrest := alike_withSchedule h rest
      cases u with
      | host n => exact alike_onInst n hrest fun _ _ _ h' => alike_hostTurn h'
      | access n a => exact alike_onInst n hrest fun _ _ _ h' => alike_hostAccess h' a
      | answer n a =>
        exact alike_onInst n hrest fun _ _ hf h' =>
          alike_microStep a h' (sound_cur (focus_sound (sound_schedule hsound rest) hf))
      | reset n => exact alike_onInst n hrest fun _ _ _ h' => alike_resetTurn h'

end Sys2Proof.Proofs
end

section
/-! The host port (R27 to R30): what each command, register access and held write does, and the step that brings
it. -/

namespace Sys2Proof.Proofs

open Sys2Proof Sys2Proof.Machine Sys2Proof.Claims

/-! ### Commands -/

/-- An encode command is a command start of its own byte (R75 to R78). -/
theorem exec_encodeCommand {i : Instr} {w : Width} {sg : Bool} (h : (i, w, sg) ∈ encodeCommands) (s : State) :
    exec i s = startCommand (encodeByte i) ⟨.enc, w, sg⟩ s := by
  simp only [encodeCommands, List.mem_cons, Prod.mk.injEq, List.not_mem_nil, or_false] at h
  rcases h with ⟨rfl, rfl, rfl⟩ | ⟨rfl, rfl, rfl⟩ | ⟨rfl, rfl, rfl⟩ | ⟨rfl, rfl, rfl⟩ <;> rfl

/-- A decode command is a command start of its own byte (R87 to R90). -/
theorem exec_decodeCommand {i : Instr} {w : Width} {sg : Bool} (h : (i, w, sg) ∈ decodeCommands) (s : State) :
    exec i s = startCommand (encodeByte i) ⟨.dec, w, sg⟩ s := by
  simp only [decodeCommands, List.mem_cons, Prod.mk.injEq, List.not_mem_nil, or_false] at h
  rcases h with ⟨rfl, rfl, rfl⟩ | ⟨rfl, rfl, rfl⟩ | ⟨rfl, rfl, rfl⟩ | ⟨rfl, rfl, rfl⟩ <;> rfl

/-- Every command byte starts a command or is illegal (R51, R52). -/
theorem exec_cmd8 {i : Instr} (h : i.format = .cmd8) :
    exec i = startCommand (encodeByte i) (opOfCmd (encodeByte i)) ∨ exec i = illegalCommand (encodeByte i) := by
  cases i with
  | encU32 | decU32 | encU64 | decU64 | encI32 | decI32 | encI64 | decI64 => exact .inl rfl
  | reservedCmd08 | reservedCmd10 | reservedCmd20 | reservedCmd40 | reservedCmd80 => exact .inr rfl
  | _ => cases h

theorem startCommand_busy {c : Byte} {op : Op} {s : State} (hb : s.cur.busy = true) :
    startCommand c op s = .next (s.hold ⟨0, c.toNat⟩) := if_pos hb

theorem illegalCommand_busy {c : Byte} {s : State} (hb : s.cur.busy = true) :
    illegalCommand c s = .next (s.hold ⟨0, c.toNat⟩) := if_pos hb

theorem startCommand_unwrittenArg {c : Byte} {op : Op} {s : State} (hd : op.dir = .enc) (hb : s.cur.busy = false)
    (hc : s.conflicts s.cur = false) (ha : s.cur.block.arg = none) : startCommand c op s = .fault .unwrittenArg := by
  simp [startCommand, hb, hc, hd, ha]

/-- Settles O17: the next state of a decode start, field by field. -/
theorem decodeCommandsStart : Obligations.DecodeCommandsStart := by
  intro i w sg hi s hb hc
  rw [exec_decodeCommand hi, startCommand_dec rfl hb hc]
  refine ⟨_, rfl, rfl, ?_, ?_, ?_, ?_, rfl, rfl, rfl, rfl, rfl, rfl, rfl, rfl, rfl, rfl⟩ <;> simp

/-- Settles O19: both kinds of command byte are held by their first test. -/
theorem commandsAreHeldWhileBusy : Obligations.CommandsAreHeldWhileBusy := by
  intro i s hi hb
  rcases exec_cmd8 hi with he | he
  · rw [he]
    exact startCommand_busy hb
  · rw [he]
    exact illegalCommand_busy hb

/-- Settles O20: an encode command is a start with direction ENC, which asks `ARG` last. -/
theorem encodeWithoutArgFaults : Obligations.EncodeWithoutArgFaults := by
  intro i w sg hi s hb hc ha
  rw [exec_encodeCommand hi]
  exact startCommand_unwrittenArg rfl hb hc ha

/-! ### Register accesses -/

theorem hostRead_of_value {r : RegNum} {v : RegValue} {s : State} (h : s.cur.block.readReg r = .next v) :
    hostRead r s = .next { s with reads := s.reads ++ [⟨s.curNum, r, v⟩] } := by
  rw [hostRead, h]
  rfl

theorem hostRead_of_fault {r : RegNum} {f : Fault} {s : State} (h : s.cur.block.readReg r = .fault f) :
    hostRead r s = .fault f := by
  rw [hostRead, h]

theorem readReg_reserved {b : Block} {r : RegNum} (h : 6 ≤ r.toNat) :
    b.readReg r = .refused (.reservedRegister r) := by
  obtain ⟨n, hn⟩ : ∃ n, r.toNat = n + 6 := ⟨r.toNat - 6, by omega⟩
  unfold Block.readReg
  rw [hn]
  rfl

/-- Settles O32: each register's line of `readReg`, where it holds a value and where it does not. -/
theorem hostReadReturnsContent : Obligations.HostReadReturnsContent := by
  intro s
  refine ⟨hostRead_of_value rfl, fun v hv => hostRead_of_value ?_, fun v hv => hostRead_of_value ?_,
    hostRead_of_value rfl, hostRead_of_value rfl, fun x hx => hostRead_of_value ?_, fun hn => hostRead_of_fault ?_,
    fun hn => hostRead_of_fault ?_, fun hn => hostRead_of_fault ?_⟩
  · simp [Block.readReg, hv]
  · simp [Block.readReg, hv]
  · simp [Block.readReg, hx]
  · simp [Block.readReg, hn]
  · simp [Block.readReg, hn]
  · simp [Block.readReg, hn]

/-- Settles O34, by the last line of `readReg`. -/
theorem reservedRegisterReadRefused : Obligations.ReservedRegisterReadRefused := by
  intro s r hr
  rw [hostRead, readReg_reserved hr]

theorem hostWrite_cmd (v : Nat) (s : State) : hostWrite 0 v s = exec (decodeCmd (BitVec.ofNat 8 v)) s := rfl

theorem hostWrite_arg {v : Nat} {s : State} (hb : s.cur.busy = false) :
    hostWrite 1 v s = .next (s.setBlock { s.cur.block with arg := some (BitVec.ofNat 64 v) }) := by
  simp [hostWrite, hb]

/-- A write of a register that is neither `CMD` nor `ARG`, at an instance that is not BUSY. -/
theorem hostWrite_other {r : RegNum} {v : Nat} {s : State} (hb : s.cur.busy = false) (hr : 2 ≤ r.toNat) :
    hostWrite r v s = if r.toNat ≤ 5 then .next s else .refused (.reservedRegister r) := by
  have h0 : r ≠ 0 := by rintro rfl; exact absurd hr (by decide)
  have h1 : r ≠ 1 := by rintro rfl; exact absurd hr (by decide)
  rw [hostWrite, if_neg h0, if_neg (by simp [hb]), if_neg h1]

theorem hostWrite_held {r : RegNum} {v : Nat} {s : State} (hr : r ≠ 0) (hb : s.cur.busy = true) :
    hostWrite r v s = .next (s.hold ⟨r, v⟩) := by
  rw [hostWrite, if_neg hr, if_pos hb]

/-- A byte written to `CMD` while BUSY is held as that byte (R15, R29). -/
theorem hostWrite_cmd_held {v : Nat} {s : State} (hv : v < 256) (hb : s.cur.busy = true) :
    hostWrite 0 v s = .next (s.hold ⟨0, v⟩) := by
  have hbyte : (BitVec.ofNat 8 v).toNat = v := by
    rw [BitVec.toNat_ofNat]
    exact Nat.mod_eq_of_lt hv
  rw [hostWrite_cmd, exec_decodeCmd]
  split
  · rw [startCommand_busy hb, hbyte]
  · rw [illegalCommand_busy hb, hbyte]

/-- Settles O33, by the rule of each kind of register, held or not. -/
theorem hostWriteEffect : Obligations.HostWriteEffect := by
  intro s v
  refine ⟨fun _ => hostWrite_cmd v s, fun hb => ⟨?_, fun r hlo hhi => ?_, fun r hr => ?_⟩, fun hb hv r => ?_,
    fun hb r hr => hostWrite_held hr hb⟩
  · rw [hostWrite_arg hb, show BitVec.ofNat 64 (v % 2 ^ 64) = BitVec.ofNat 64 v from BitVec.eq_of_toNat_eq (by simp)]
  · rw [hostWrite_other hb hlo, if_pos hhi]
  · rw [hostWrite_other hb (by omega), if_neg (by omega)]
  · by_cases hr : r = 0
    · subst hr
      exact hostWrite_cmd_held hv hb
    · exact hostWrite_held hr hb

/-! ### The step that brings a write -/

/-- A held write that is ready comes before any turn (log 8). -/
theorem step_of_ready {s : State} {n : Nat} (hr : s.readyInst = some n) : step s = onInst n completeHeld s := by
  simp only [step, nextMove, hr]

theorem completeHeld_cons {s : State} {w : HostWrite} {ws : List HostWrite} (h : s.cur.held = w :: ws) :
    completeHeld s = hostWrite w.reg w.val (s.setCur { s.cur with held := ws, pending := s.cur.pending - 1 }) := by
  simp only [completeHeld, h]

/-- The next line of a program that waits for nothing (log 7). -/
theorem hostTurn_cons {s : State} {l : Line} {ls : List Line} (hp : s.cur.pending = 0) (hl : s.cur.program = l :: ls) :
    hostTurn s = runLine l (s.setCur (s.cur.present l ls)) := by
  simp only [hostTurn, hp, hl, ne_eq, not_true_eq_false, if_false]

theorem step_held {s s' : State} {n : Nat} {w : HostWrite} {ws : List HostWrite} (hr : s.readyInst = some n)
    (hf : focus n s = some s') (hw : s'.cur.held = w :: ws) :
    step s = hostWrite w.reg w.val (s'.setCur { s'.cur with held := ws, pending := s'.cur.pending - 1 }) := by
  rw [step_of_ready hr, onInst_of_focus hf, completeHeld_cons hw]

theorem step_access {s s' : State} {n : Nat} {a : Access} {rest : List Turn} (hr : s.readyInst = none)
    (hs : s.schedule = .access n a :: rest) (hf : focus n { s with schedule := rest } = some s') :
    step s = hostAccess a s' := by
  rw [step_of_schedule hr hs]
  exact onInst_of_focus hf

theorem step_host {s s' : State} {n : Nat} {l : Line} {ls : List Line} {rest : List Turn} (hr : s.readyInst = none)
    (hs : s.schedule = .host n :: rest) (hf : focus n { s with schedule := rest } = some s')
    (hp : s'.cur.pending = 0) (hl : s'.cur.program = l :: ls) :
    step s = runLine l (s'.setCur (s'.cur.present l ls)) := by
  rw [step_of_schedule hr hs]
  exact (onInst_of_focus hf).trans (hostTurn_cons hp hl)

/-- A decoded command byte is well formed (R68). -/
theorem decodeCmd_wf (c : Byte) : (decodeCmd c).wf = true := by
  revert c
  apply forall_byte
  decide +kernel

theorem decode_cmd8 {c : Byte} {i : Instr} {rest : List Byte} (h : decode .cmd8 [c] = .ok (i, rest)) :
    i = decodeCmd c := by
  cases h
  rfl

/-- Settles O36: in each of the three ways the step is the host write, and a write of `CMD` is its instruction. -/
theorem stepRunsWrittenCommand : Obligations.StepRunsWrittenCommand := by
  intro s s' n v i _ hd
  obtain rfl := decode_cmd8 hd
  refine ⟨decodeCmd_wf _, fun rest hr hs hf => step_access hr hs hf, fun rest ls hr hs hf hp hl => ?_,
    fun ws hr hf hw => step_held hr hf hw⟩
  rw [step_host hr hs hf hp hl]
  simp only [runLine, hostAccess, hostWrite_cmd, Inst.present, Line.isWrite, Bool.true_and]

/-- Settles O39: the ready instance is one that is not BUSY. -/
theorem heldWriteCompletesFirst : Obligations.HeldWriteCompletesFirst := by
  intro s s' n w ws hr hf hw
  refine ⟨?_, step_held hr hf hw⟩
  obtain ⟨-, -, hcur, -⟩ := focus_spec hf
  obtain ⟨hn, hready, -⟩ := List.findIdx?_eq_some_iff_getElem.1 hr
  rw [List.getElem?_eq_getElem hn, Option.some.injEq] at hcur
  rw [hcur, Inst.heldReady, Bool.and_eq_true] at hready
  simpa using hready.2

/-! ### Loading a command word (log 17) -/

theorem readyFor_status (b : Block) (c : Byte) : (b.readyFor c).status = if b.busy then 0x0000 else b.status := by
  simp only [Block.readyFor]
  split_ifs <;> rfl

theorem readyFor_not_busy (b : Block) (c : Byte) : (b.readyFor c).busy = false := by
  rw [Block.busy, readyFor_status]
  split
  · rfl
  · simpa [Block.busy] using ‹¬b.busy = true›

theorem readyFor_res (b : Block) (c : Byte) : (b.readyFor c).res = b.res := by
  simp only [Block.readyFor]
  split_ifs <;> rfl

theorem readyFor_faultInfo (b : Block) (c : Byte) : (b.readyFor c).faultInfo = b.faultInfo := by
  simp only [Block.readyFor]
  split_ifs <;> rfl

/-- The load leaves no held write, so none is ready. -/
theorem withFetchWord_readyInst (s : State) (nbits w : Nat) : (s.withFetchWord nbits w).readyInst = none := by
  refine List.findIdx?_eq_none_iff.2 fun i hi => ?_
  have hheld : i.held = [] := by
    rcases mem_instances.1 hi with hi | rfl | hi
    · obtain ⟨x, -, rfl⟩ := List.mem_map.1 hi
      rfl
    · rfl
    · obtain ⟨x, -, rfl⟩ := List.mem_map.1 hi
      rfl
  simp [Inst.heldReady, hheld]

theorem decodeTableWord_eq_some {w : Nat} {i : Instr} (h : decodeTableWord 8 w = some i) :
    i = decodeCmd (BitVec.ofNat 8 w) := by
  unfold decodeTableWord at h
  split at h
  · cases h
    rfl
  · cases h

/-- The loaded state once its first turn is taken off the schedule acts at the same instance. -/
theorem focus_withFetchWord (s : State) (nbits w : Nat) :
    focus s.before.length { s.withFetchWord nbits w with schedule := s.schedule } =
      some { s.withFetchWord nbits w with schedule := s.schedule } := by
  have hnum : s.before.length = State.curNum { s.withFetchWord nbits w with schedule := s.schedule } :=
    (List.length_map ..).symm
  rw [hnum]
  exact focus_curNum _

/-- Settles O38: the load's own write of `CMD` is the next turn, and the step runs it. -/
theorem stepRunsFetchWord : Obligations.StepRunsFetchWord := by
  intro s w i h
  obtain rfl := decodeTableWord_eq_some h
  exact ⟨_, step_access (withFetchWord_readyInst s 8 w) rfl (focus_withFetchWord s 8 w), readyFor_not_busy ..,
    rfl, readyFor_res .., readyFor_faultInfo ..⟩

end Sys2Proof.Proofs
end

section
/-! The memory side (R34, R46, R120, R122): a launch onto a stream that a busy instance has attached, and the
micro-steps at a port without a stream. -/

namespace Sys2Proof.Proofs

open Sys2Proof Sys2Proof.Machine Sys2Proof.Claims

/-! ### Shared streams (R46, R98 (d), R120) -/

theorem samePort_eq_true {p q : Option Nat} : samePort p q = true ↔ ∃ id, p = some id ∧ q = some id := by
  cases p with
  | none => simp [samePort]
  | some p => simpa [samePort] using eq_comm

/-- What the launch check asks of two instances, said by stream numbers. -/
theorem sharesStream_eq_true {a b : Inst} : a.sharesStream b = true ↔
    (∃ id, a.inPort = some id ∧ b.inPort = some id) ∨ (∃ id, a.outPort = some id ∧ b.outPort = some id) := by
  rw [Inst.sharesStream, Bool.or_eq_true, samePort_eq_true, samePort_eq_true]

theorem conflicts_of_sharesStream {s : State} {i o : Inst} (ho : o ∈ s.before ++ s.after) (hb : o.busy = true)
    (h : i.sharesStream o = true) : s.conflicts i = true :=
  List.any_eq_true.2 ⟨o, ho, by rw [hb, h]; rfl⟩

/-- The check of shared streams comes before `ARG` is asked (log 24), so the direction plays no part. -/
theorem startCommand_sharedStream {c : Byte} {op : Op} {s : State} (hb : s.cur.busy = false)
    (hc : s.conflicts s.cur = true) : startCommand c op s = .refused .sharedStream := by
  simp [startCommand, hb, hc]

/-- Each of the eight commands is a command start (R75 to R78, R87 to R90). -/
theorem exec_command {i : Instr} {w : Width} {sg : Bool} (h : (i, w, sg) ∈ encodeCommands ++ decodeCommands) :
    ∃ op, ∀ s, exec i s = startCommand (encodeByte i) op s := by
  rcases List.mem_append.1 h with h | h
  · exact ⟨_, exec_encodeCommand h⟩
  · exact ⟨_, exec_decodeCommand h⟩

/-- Settles O21: a stream in common with a busy instance is a conflict, which refuses every command start. -/
theorem sharedStreamLaunchRefused : Obligations.SharedStreamLaunchRefused := by
  intro i w sg hi s o hb ho hbo hshare
  obtain ⟨op, hexec⟩ := exec_command hi
  rw [hexec]
  exact startCommand_sharedStream hb (conflicts_of_sharesStream ho hbo (sharesStream_eq_true.2 hshare))

/-! ### A port without a stream (R34, R122, log 13) -/

theorem inRead_silent (a : Answer) {s : State} (h : s.attachedIn = none) : inRead a s = .silent := by
  rw [inRead, h]

theorem outWrite_silent (a : Answer) (b : Byte) {s : State} (h : s.attachedOut = none) :
    outWrite a b s = .silent := by
  rw [outWrite, h]

/-- Inside `SCRATCH` there is a byte to emit, and nothing takes it. -/
theorem emitStep_unattached (a : Answer) {s : State} (h : s.attachedOut = none) (hj : s.cur.block.j < 9) :
    emitStep a s = .next s := by
  simp only [emitStep, scratch_at_j hj, outWrite_silent a _ h]

theorem tagStep_unattached (a : Answer) {s : State} (h : s.attachedIn = none) : tagStep a s = .next s := by
  simp only [tagStep, inRead_silent a h]

theorem bodyStep_unattached (a : Answer) {s : State} (h : s.attachedIn = none) (hj : s.cur.block.j < 9) :
    bodyStep a s = .next s := by
  rw [bodyStep, if_pos hj, inRead_silent a h]

/-- Settles O31: the micro-step of each phase asks its port, which stays silent. -/
theorem unattachedPortNeverMoves : Obligations.UnattachedPortNeverMoves := by
  intro s a h
  rcases h with ⟨hp, hout, hj⟩ | ⟨hp, hin⟩ | ⟨hp, hin, hj⟩ <;> rw [microStep, hp]
  · exact emitStep_unattached a hout hj
  · exact tagStep_unattached a hin
  · exact bodyStep_unattached a hin hj

end Sys2Proof.Proofs
end

section
/-! Instructions as bytes (R51 to R59, R68): the decoder undoes the encoder on every well-formed instruction, the
encoder undoes the decoder on every byte, and the rows of the table part the bytes of each format. -/

namespace Sys2Proof.Proofs

open Sys2Proof

/-- The decoder undoes the encoder, row by row: a row without operands is one byte, and a row with operands is
checked on every operand value, those that are not well formed apart. -/
theorem decodeByte_encodeByte {i : Instr} (h : i.wf = true) : decodeByte i.format (encodeByte i) = i := by
  cases i with
  | encU32 | decU32 | encU64 | decU64 | encI32 | decI32 | encI64 | decI64 => rfl
  | tier4Esc32 | tier7W64 | tier8Esc64 => rfl
  | reservedCmd08 c | reservedCmd10 c | reservedCmd20 c | reservedCmd40 c | reservedCmd80 c =>
    revert c
    decide +kernel
  | illegalTagF1 b0 | illegalTagF2 b0 | illegalTagF4 b0 | illegalTagF8 b0 =>
    revert b0
    decide +kernel
  | tier0W32 p | tier1W32 p | tier2W32 p | tier3W32 p =>
    revert p
    decide +kernel
  | tier0W64 p | tier1W64 p | tier2W64 p | tier3W64 p | tier4W64 p | tier5W64 p | tier6W64 p =>
    revert p
    decide +kernel

/-- The encoder undoes the decoder, and the decoded instruction is a well-formed one of the format asked. -/
theorem encodeByte_decodeByte (f : Format) (b : Byte) :
    (decodeByte f b).wf = true ∧ (decodeByte f b).format = f ∧ encodeByte (decodeByte f b) = b := by
  cases f <;> revert b <;> decide +kernel

/-- Settles O1: the decoder takes the one byte of the instruction and leaves the rest. -/
theorem decodeOfEncode : Obligations.DecodeOfEncode := by
  intro i h rest
  rw [encode, List.singleton_append, decode, decodeByte_encodeByte h]

/-- Settles O2: any instruction with that byte is what the byte decodes to, since the decoder undoes the encoder. -/
theorem encodeOfDecode : Obligations.EncodeOfDecode := by
  intro f b
  obtain ⟨hwf, hformat, hbyte⟩ := encodeByte_decodeByte f b
  refine ⟨hwf, hformat, by rw [encode, hbyte], fun i hi hf hb => ?_⟩
  obtain rfl : encodeByte i = b := List.singleton_injective hb
  rw [← hf, decodeByte_encodeByte hi]

/-- Settles O3: the rows that fit are found for every byte of every format. -/
theorem tableRowsPartitionEachFormat : Obligations.TableRowsPartitionEachFormat := by
  refine ⟨rfl, fun f b => ?_⟩
  cases f <;> revert b <;> decide +kernel

/-- Settles O4: the eight words are fixed, and the decoder is run on each. -/
theorem specWordsDecode : Obligations.SpecWordsDecode := by
  unfold Obligations.SpecWordsDecode
  decide

end Sys2Proof.Proofs
end

section
/-! The layouts of the forms (R55 to R65): the tiers' tags, masks and bounds, the first byte of each tier, the bytes of
a form at each kind of tier, and the canonical form as the shortest one. -/

namespace Sys2Proof.Proofs

open Sys2Proof Sys2Proof.Machine

/-! ### Tiers and first bytes (R57 to R59) -/

/-- The bounds of a width are those of its non-escape tiers (R57). -/
theorem tierBounds_getElem? {w : Width} {k B : Nat} :
    (tierBounds w)[k]? = some B ↔ k < escTier w ∧ tierBound k = B := by
  simp [tierBounds_eq, List.getElem?_eq_some_iff]

/-- A byte of a number is that of its low eight bits. -/
theorem ofNat_and_0xFF (n : Nat) : BitVec.ofNat 8 (n &&& 0xFF) = BitVec.ofNat 8 n := by
  rw [BitVec.ofNat_and]
  exact BitVec.and_allOnes

/-- Settles O6: a non-escape tier has its own number of extra bytes, and the escape tiers are fixed. -/
theorem tierArithmetic : Obligations.TierArithmetic := by
  refine ⟨fun w k hk => ?_, by decide⟩
  exact ⟨(ofNat_and_0xFF _).symm, (ofNat_and_0xFF _).symm, extraBytes_of_lt hk, tierBounds_getElem?.2 ⟨hk, rfl⟩⟩

/-- The bits outside a tier's mask are its payload bits (R57). -/
theorem payload_lt {k : Nat} (hk : k < 8) (b : Byte) : (b &&& ~~~ tierMask k).toNat < 2 ^ (7 - k) := by
  have hmask : ∀ k : Fin 8, (~~~ tierMask k).toNat < 2 ^ (7 - k.val) := by decide
  rw [BitVec.toNat_and]
  exact Nat.and_le_right.trans_lt (hmask ⟨k, hk⟩)

/-- A first byte is of a non-escape tier exactly when its bits under the tier's mask are the tier's tag (R57, R58). -/
theorem classify_eq_some_iff {w : Width} {k : Nat} (hk : k < escTier w) (b : Byte) :
    classify w b = some k ↔ b &&& tierMask k = tierTag k := by
  have h8 : k < 8 := by have := escTier_le w; omega
  constructor
  · intro hc
    rw [← retag hk hc]
    exact tagged_mask h8 (payload_lt h8 b)
  · intro hm
    have hb : (b &&& ~~~ tierMask k) ||| (b &&& tierMask k) = b := by
      rw [← BitVec.and_or_distrib_left, BitVec.or_comm, BitVec.or_not_self, BitVec.and_allOnes]
    rw [hm] at hb
    rw [← hb]
    exact classify_tagged hk (payload_lt h8 b)

/-- Settles O9: by mask and tag for a non-escape tier, and only the escape tag has the escape tier. -/
theorem firstByteClassification : Obligations.FirstByteClassification := by
  intro w b0
  refine ⟨classify_none, fun k hk => classify_eq_some_iff hk b0, classify_escape, ?_⟩
  rintro rfl
  exact classify_escTag w

/-! ### The bytes of a form (R60, R61) -/

/-- `be_8n(v)` is of the low `8n` bits of `v` only (R10). -/
theorem be_mod (n v : Nat) : be n (v % 2 ^ (8 * n)) = be n v := by
  simpa [foldl_be] using be_foldl (be n v) 0

/-- What stands above the low `8n` bits does not reach the bytes of `be_8n`. -/
theorem be_shiftLeft_or (n t v : Nat) : be n (t <<< (8 * n) ||| v) = be n v := by
  rw [← be_mod n v, ← be_mod n, Nat.or_mod_two_pow, Nat.shiftLeft_eq, Nat.mul_mod_left, Nat.zero_or]

/-- The byte at the place of the shifted tag. -/
theorem byteAt_shiftLeft_or (k v : Nat) (t : Byte) :
    byteAt k (t.toNat <<< (8 * k) ||| v) = byteAt k v ||| t := by
  rw [byteAt, Nat.shiftRight_or_distrib, Nat.shiftLeft_shiftRight, BitVec.ofNat_or, BitVec.ofNat_toNat,
    BitVec.setWidth_eq, BitVec.or_comm, byteAt]

/-- Settles O7: the tag is above the lower bytes, and the payload fits beside it in the first byte. -/
theorem nonEscapeLayout : Obligations.NonEscapeLayout := by
  intro w k v hk hv
  have h8 : k < 8 := by have := escTier_le w; omega
  rw [formAt_of_lt hk]
  refine ⟨?_, by simp, ?_, fun i hi hik => ?_, ?_⟩
  · rw [be, byteAt_shiftLeft_or, be_shiftLeft_or]
  · rw [BitVec.or_comm]
    rfl
  · obtain ⟨i, rfl⟩ := Nat.exists_eq_add_of_le' hi
    rw [List.getElem?_cons_succ, be_getElem? v (by omega), show k - 1 - i = k - (i + 1) by omega]
    rfl
  · rintro _ ⟨⟩
    obtain ⟨htop, hlt⟩ := byteAt_top h8 hv
    exact tagged_mask h8 (htop ▸ hlt)

/-- Byte `i` of a value is the field of its eight bits, at any width that has them (R10). -/
theorem byteAt_eq_extractLsb' {n i : Nat} (v : Nat) (h : 8 * i + 8 ≤ n) :
    byteAt i v = (BitVec.ofNat n v).extractLsb' (8 * i) 8 := by
  apply BitVec.eq_of_getLsbD_eq
  intro j hj
  rw [byteAt, BitVec.getLsbD_extractLsb', BitVec.getLsbD_ofNat, BitVec.getLsbD_ofNat, Nat.testBit_shiftRight]
  simp [hj, show 8 * i + j < n by omega]

/-- The bytes behind the tag of an escape form are the fields of the value, the lowest first (R61). -/
theorem formAt_escTier_getElem? {w : Width} {i : Nat} (v : Nat) (h1 : 1 ≤ i) (h : i ≤ widthBits w / 8) :
    (formAt w (escTier w) v)[i]? = some ((BitVec.ofNat (widthBits w) v).extractLsb' (8 * i - 8) 8) := by
  obtain ⟨i, rfl⟩ := Nat.exists_eq_add_of_le' h1
  rw [formAt_escTier, List.getElem?_cons_succ, le_getElem? v (by omega),
    byteAt_eq_extractLsb' (n := widthBits w) v (by omega)]
  rfl

/-- Settles O8: the escape form of each width, whole and byte by byte. -/
theorem escapeLayout : Obligations.EscapeLayout :=
  ⟨fun v _ => ⟨formAt_escTier .w32 v, fun _ h1 h => formAt_escTier_getElem? (w := .w32) v h1 h⟩,
    fun v _ => ⟨formAt_escTier .w64 v, fun _ h1 h => formAt_escTier_getElem? (w := .w64) v h1 h⟩⟩

/-! ### The canonical form (R63) -/

/-- A tier that can carry a value is not below the canonical one (R63). -/
theorem tierOf_le_of_carries {w : Width} {v k : Nat} (hk : k ≤ escTier w) (hv : k < escTier w → v < tierBound k) :
    tierOf w v ≤ k := by
  by_contra hlt
  have hle := bound_le_of_lt_tierOf (Nat.lt_of_not_le hlt)
  have := tierOf_le w v
  have := hv (by omega)
  omega

/-- A non-escape tier is below the canonical one exactly when its bound does not exceed the value (R63). -/
theorem lt_tierOf_iff {w : Width} {v k : Nat} (hk : k < escTier w) : k < tierOf w v ↔ tierBound k ≤ v := by
  refine ⟨bound_le_of_lt_tierOf, fun hle => Nat.lt_of_not_le fun hge => ?_⟩
  have hlt := lt_bound_tierOf (w := w) (v := v) (by omega)
  have := tierBound_mono hge
  omega

/-- The canonical tier by bit length (R63). -/
theorem tierOf_eq_size (w : Width) (v : Nat) : tierOf w v = min (escTier w) ((Nat.size v + 6) / 7 - 1) := by
  apply tierOf_eq (Nat.min_le_left ..)
  · intro j hj
    apply Nat.lt_size.1
    omega
  · intro hk
    apply Nat.size_le.1
    omega

/-- A form that decodes to `v` is the form of `v` at a tier that can carry `v` (R60 to R62). -/
theorem eq_formAt_of_dec_ok {w : Width} {s : List Byte} {v n : Nat} (h : dec w s = .ok v n) :
    ∃ k, k ≤ escTier w ∧ (k < escTier w → v < tierBound k) ∧ n = 1 + extraBytes w k ∧
      s.take n = formAt w k v := by
  obtain ⟨b0, rest, k, rfl, hc, hl, rfl, rfl⟩ := dec_ok h
  have hlen : (rest.take (extraBytes w k)).length = extraBytes w k := by simpa using hl
  refine ⟨k, classify_le hc, (formValue_lt hc hlen).2, rfl, ?_⟩
  rw [formAt_formValue hc hlen, Nat.add_comm, List.take_succ_cons]

/-- Extra bytes grow with the tier (R57). -/
theorem extraBytes_mono {w : Width} {j k : Nat} (h : j ≤ k) (hk : k ≤ escTier w) :
    extraBytes w j ≤ extraBytes w k := by
  rcases h.eq_or_lt with rfl | hlt
  · exact Nat.le_refl _
  · exact (extra_mono hlt hk).le

/-- Settles O11: a form of `v` is of some tier that carries `v`, so not below the canonical one, and of equal length
only at that tier. -/
theorem canonicalFormIsMinimal : Obligations.CanonicalFormIsMinimal := by
  intro w v _
  refine ⟨tierOf_le w v, fun k B hB => ?_, tierOf_eq_size w v, rfl, fun s n h => ?_⟩
  · obtain ⟨hk, rfl⟩ := tierBounds_getElem?.1 hB
    exact lt_tierOf_iff hk
  · obtain ⟨k, hk, hv, rfl, hs⟩ := eq_formAt_of_dec_ok h
    have hle := tierOf_le_of_carries hk hv
    rw [enc_length]
    refine ⟨Nat.add_le_add_left (extraBytes_mono hle hk) 1, fun heq => ?_⟩
    rw [hs, extra_inj hk (tierOf_le w v) (Nat.add_left_cancel heq), enc]

/-! ### The two widths (R65) -/

/-- Below the bound of tier 3 the canonical tier is a non-escape one of both widths. -/
theorem tierOf_w32_lt {v : Nat} (hv : v < 2 ^ 28) : tierOf .w32 v < 4 :=
  Nat.lt_succ_of_le (tierOf_le_of_carries (w := .w32) (k := 3) (by decide) fun _ => hv)

theorem tierOf_w64_eq_w32 {v : Nat} (hv : v < 2 ^ 28) : tierOf .w64 v = tierOf .w32 v := by
  have hlt := tierOf_w32_lt hv
  exact tierOf_eq (hlt.le.trans (by decide)) (fun _ h => bound_le_of_lt_tierOf h) fun _ => lt_bound_tierOf hlt

/-- From the bound of tier 3 up to `2^32` the canonical tier is 4 at both widths. -/
theorem tierOf_eq_four (w : Width) {v : Nat} (hlo : 2 ^ 28 ≤ v) (hhi : v < 2 ^ 32) : tierOf w v = 4 := by
  apply tierOf_eq
  · cases w <;> decide
  · intro j hj
    exact (tierBound_mono (Nat.le_of_lt_succ hj)).trans hlo
  · intro _
    exact hhi.trans (by decide)

theorem enc_w32_of_ge {v : Nat} (hlo : 2 ^ 28 ≤ v) (hhi : v < 2 ^ 32) : enc .w32 v = 0xF0 :: le 4 v := by
  rw [enc, tierOf_eq_four .w32 hlo hhi]
  exact formAt_escTier .w32 v

theorem enc_w64_of_ge {v : Nat} (hlo : 2 ^ 28 ≤ v) (hhi : v < 2 ^ 32) : enc .w64 v = 0xF0 :: be 4 v := by
  have htop : byteAt 4 v = 0 := by
    rw [byteAt, Nat.shiftRight_eq_zero v _ hhi]
    rfl
  rw [enc, tierOf_eq_four .w64 hlo hhi, formAt_of_lt (by decide), htop]
  rfl

/-- Four bytes read the same in both orders exactly when they are mirrored. -/
theorem le_four_eq_be_four_iff (v : Nat) : le 4 v = be 4 v ↔ byteAt 0 v = byteAt 3 v ∧ byteAt 1 v = byteAt 2 v := by
  simp only [le, be, byteAt_shift, List.cons.injEq, and_true]
  exact ⟨fun ⟨h03, h12, _⟩ => ⟨h03, h12⟩, fun ⟨h03, h12⟩ => ⟨h03, h12, h12.symm, h03.symm⟩⟩

/-- Settles O14: one tier for both widths, which is the escape tier of W=32 from `2^28` up. -/
theorem crossWidthForms : Obligations.CrossWidthForms := by
  refine fun v => ⟨fun hv => ?_, fun hlo hhi => ⟨enc_w32_of_ge hlo hhi, enc_w64_of_ge hlo hhi, ?_⟩⟩
  · have hlt := tierOf_w32_lt hv
    rw [enc, enc, tierOf_w64_eq_w32 hv, formAt_of_lt hlt, formAt_of_lt (hlt.trans (by decide))]
  · rw [enc_w32_of_ge hlo hhi, enc_w64_of_ge hlo hhi, List.cons_inj_right, le_four_eq_be_four_iff]

end Sys2Proof.Proofs
end

section
/-! The host's side (R66, R67): the pseudo-instructions' expansions, and the lines `wait` and `attach`. -/

namespace Sys2Proof.Proofs

open Sys2Proof Sys2Proof.Machine

/-! ### Pseudo-instructions (R67) -/

theorem unsignedImm_of_range {w : Width} {v : Int} (h : 0 ≤ v ∧ v < 2 ^ widthBits w) :
    unsignedImm w v = some v.toNat := if_pos h

theorem unsignedImm_eq_none {w : Width} {v : Int} (h : ¬ (0 ≤ v ∧ v < 2 ^ widthBits w)) :
    unsignedImm w v = none := if_neg h

theorem signedImm_of_range {w : Width} {v : Int}
    (h : -(2 ^ (widthBits w - 1)) ≤ v ∧ v < 2 ^ (widthBits w - 1)) : signedImm w v = some (asUnsigned w v) := if_pos h

theorem signedImm_eq_none {w : Width} {v : Int}
    (h : ¬ (-(2 ^ (widthBits w - 1)) ≤ v ∧ v < 2 ^ (widthBits w - 1))) : signedImm w v = none := if_neg h

/-- Settles O35: an encode expands by its immediate's range, a decode always. -/
theorem pseudoInstructionsExpand : Obligations.PseudoInstructionsExpand := by
  refine ⟨fun v => ⟨fun h => ?_, fun h => ?_, fun h => ?_, fun h => ?_, fun h => ?_, fun h => ?_, fun h => ?_,
    fun h => ?_⟩, rfl, rfl, rfl, rfl⟩
  · exact congrArg (Option.map _) (unsignedImm_of_range (w := .w32) h)
  · exact congrArg (Option.map _) (unsignedImm_eq_none (w := .w32) h)
  · exact congrArg (Option.map _) (unsignedImm_of_range (w := .w64) h)
  · exact congrArg (Option.map _) (unsignedImm_eq_none (w := .w64) h)
  · exact congrArg (Option.map _) (signedImm_of_range (w := .w32) h)
  · exact congrArg (Option.map _) (signedImm_eq_none (w := .w32) h)
  · exact congrArg (Option.map _) (signedImm_of_range (w := .w64) h)
  · exact congrArg (Option.map _) (signedImm_eq_none (w := .w64) h)

/-! ### The lines of a program (R66) -/

/-- A line that is no write leaves the program waiting for nothing. -/
theorem present_of_not_write {i : Inst} {l : Line} (ls : List Line) (hl : l.isWrite = false) (hp : i.pending = 0) :
    i.present l ls = { i with program := ls } := by
  rw [Inst.present, hl, Bool.false_and, ← hp]
  rfl

theorem waitLine_eq (s : State) : waitLine s = .next ((s.record 4 (.half s.cur.block.status)).setCur
    { s.cur with program := if s.cur.busy then .wait :: s.cur.program else s.cur.program }) := by
  simp only [waitLine, record_cur]
  split_ifs <;> rfl

/-- Settles O42: the turn runs `wait` with the line off the program. -/
theorem waitPollsStatus : Obligations.WaitPollsStatus := by
  intro s rest hp hl
  rw [hostTurn_cons hp hl, present_of_not_write rest rfl hp, runLine, waitLine_eq]
  exact ⟨_, rfl, rfl, rfl, rfl, rfl, rfl, rfl, rfl⟩

theorem attachInput_idle {id : Nat} {s : State} (hb : s.cur.busy = false) (hp : s.cur.block.phase = .none) :
    attachInput id s = .next (s.setCur { s.cur with inPort := some id }) := by
  simp [attachInput, hb, hp]

theorem attachOutput_idle {id : Nat} {s : State} (hb : s.cur.busy = false) (hp : s.cur.block.phase = .none) :
    attachOutput id s = .next (s.setCur { s.cur with outPort := some id }) := by
  simp [attachOutput, hb, hp]

/-- Settles O43: the new stream takes the first free number, which is then the one at the port. -/
theorem attachNewStream : Obligations.AttachNewStream := by
  intro s data hb hp
  refine ⟨⟨_, attachInput_idle hb hp, ?_, get_finite data 0, rfl, rfl, rfl, rfl, rfl, rfl, rfl⟩,
    ⟨_, attachOutput_idle hb hp, ?_, rfl, rfl, rfl, rfl, rfl, rfl, rfl⟩⟩
  · exact attachedIn_spec.2 ⟨rfl, by simp⟩
  · exact attachedOut_spec.2 ⟨rfl, by simp⟩

/-- A host turn of a program that is over or waits for its held write (log 7). -/
theorem hostTurn_idle {s : State} (h : s.cur.pending ≠ 0 ∨ s.cur.program = []) : hostTurn s = .next s := by
  unfold hostTurn
  rcases h with hp | hl
  · rw [if_pos hp]
  · rw [hl, ite_self]

/-- Settles O59: the step is the host turn of the named instance, which runs the first line. -/
theorem stepRunsHostLine : Obligations.StepRunsHostLine := by
  intro s s' n rest hr hs hf
  refine ⟨fun h => ?_, fun hp => ⟨fun r ls hl => ?_, fun r v ls hl => ?_, fun l ls hw hl => ?_⟩⟩
  · rw [step_of_schedule hr hs]
    exact (onInst_of_focus hf).trans (hostTurn_idle h)
  · rw [step_host hr hs hf hp hl, present_of_not_write ls rfl hp]
    rfl
  · rw [step_host hr hs hf hp hl]
    simp only [runLine, hostAccess, Inst.present, Line.isWrite, Bool.true_and]
  · rw [step_host hr hs hf hp hl, present_of_not_write ls hw hp]

end Sys2Proof.Proofs
end

section
/-! The encoder (R69, R79): which values take a tier, and the laws of the canonical form. -/

namespace Sys2Proof.Proofs

open Sys2Proof Sys2Proof.Machine

/-! ### The tier selector (R69) -/

theorem tierBound_lt {j k : Nat} (h : j < k) : tierBound j < tierBound k :=
  Nat.pow_lt_pow_right (by decide) (by omega)

theorem mem_tierBounds {w : Width} {B : Nat} : B ∈ tierBounds w ↔ ∃ k, k < escTier w ∧ tierBound k = B := by
  simp [tierBounds_eq]

/-- A value is below the bound of a non-escape tier exactly when its canonical tier is not above (R69). -/
theorem lt_tierBound_iff {w : Width} {v k : Nat} (hk : k < escTier w) : v < tierBound k ↔ tierOf w v ≤ k := by
  rw [← Nat.not_le, ← lt_tierOf_iff hk, Nat.not_lt]

/-- A bound is the first value that its tier cannot carry (R69). -/
theorem tierOf_tierBound {w : Width} {k : Nat} (hk : k < escTier w) : tierOf w (tierBound k) = k + 1 :=
  tierOf_eq hk (fun _ hj => tierBound_mono (Nat.le_of_lt_succ hj)) fun _ => tierBound_lt (Nat.lt_succ_self k)

/-- The value before a bound is the last one that its tier carries (R69). -/
theorem tierOf_tierBound_sub_one {w : Width} {k : Nat} (hk : k < escTier w) : tierOf w (tierBound k - 1) = k :=
  tierOf_eq hk.le (fun _ hj => Nat.le_sub_one_of_lt (tierBound_lt hj)) fun _ => Nat.sub_one_lt (by positivity)

/-- Settles O5: the canonical tier is the one whose bound is above the value and whose lower bounds are not. -/
theorem tierSelectorPicksLeast : Obligations.TierSelectorPicksLeast := by
  refine ⟨rfl, rfl, fun w => ⟨fun v k => ⟨?_, fun ⟨htier, hlower⟩ => ?_⟩, fun k B hB => ?_⟩⟩
  · rintro rfl
    refine ⟨(tierOf_le w v).lt_or_eq.imp_left fun hlt => ?_, fun j B hj hB => ?_⟩
    · exact ⟨hlt, _, tierBounds_getElem?.2 ⟨hlt, rfl⟩, lt_bound_tierOf hlt⟩
    · obtain ⟨-, rfl⟩ := tierBounds_getElem?.1 hB
      exact bound_le_of_lt_tierOf hj
  · have hle : k ≤ escTier w := htier.elim (fun h => h.1.le) le_of_eq
    refine tierOf_eq hle (fun j hj => hlower j _ hj (tierBounds_getElem?.2 ⟨by omega, rfl⟩)) fun hlt => ?_
    obtain ⟨-, B, hB, hv⟩ := htier.resolve_right hlt.ne
    obtain ⟨-, rfl⟩ := tierBounds_getElem?.1 hB
    exact hv
  · obtain ⟨hk, rfl⟩ := tierBounds_getElem?.1 hB
    exact ⟨tierOf_tierBound_sub_one hk, tierOf_tierBound hk⟩

/-! ### The laws of the canonical form (R79) -/

theorem enc_length_mono {w : Width} {u v : Nat} (h : tierOf w u ≤ tierOf w v) :
    (enc w u).length ≤ (enc w v).length := by
  rw [enc_length, enc_length]
  exact Nat.add_le_add_left (extraBytes_mono h (tierOf_le w v)) 1

/-- Canonical forms compare in length as their tiers do (R57, R79 (a)). -/
theorem enc_length_lt_iff {w : Width} {u v : Nat} :
    (enc w u).length < (enc w v).length ↔ tierOf w u < tierOf w v := by
  refine ⟨fun h => Nat.lt_of_not_le fun hle => h.not_ge (enc_length_mono hle), fun h => ?_⟩
  rw [enc_length, enc_length]
  exact Nat.add_lt_add_left (extra_mono h (tierOf_le w v)) 1

/-- A canonical tier steps up exactly over a bound (R79 (a)). -/
theorem tierOf_lt_iff {w : Width} {u v : Nat} :
    tierOf w u < tierOf w v ↔ ∃ B ∈ tierBounds w, u < B ∧ B ≤ v := by
  constructor
  · intro h
    have hk : tierOf w u < escTier w := h.trans_le (tierOf_le w v)
    exact ⟨_, mem_tierBounds.2 ⟨_, hk, rfl⟩, lt_bound_tierOf hk, bound_le_of_lt_tierOf h⟩
  · rintro ⟨B, hB, hu, hv⟩
    obtain ⟨k, hk, rfl⟩ := mem_tierBounds.1 hB
    exact ((lt_tierBound_iff hk).1 hu).trans_lt ((lt_tierOf_iff hk).2 hv)

theorem formValue_enc {w : Width} {v : Nat} (hv : v < 2 ^ widthBits w) : formValue w (tierOf w v) (enc w v) = v :=
  formValue_formAt (tierOf_le w v) lt_bound_tierOf hv

/-- The length of a canonical form gives its tier, and the tier and the bytes give the value (R79 (b)). -/
theorem enc_injective {w : Width} {u v : Nat} (hu : u < 2 ^ widthBits w) (hv : v < 2 ^ widthBits w)
    (h : enc w u = enc w v) : u = v := by
  have hlen := congrArg List.length h
  rw [enc_length, enc_length] at hlen
  have htier := extra_inj (tierOf_le w u) (tierOf_le w v) (Nat.add_left_cancel hlen)
  rw [← formValue_enc hu, ← formValue_enc hv, h, htier]

/-- The first byte of a form gives its tier, and so its length: a form is no proper beginning of another
(R79 (c)). -/
theorem formAt_eq_of_prefix {w : Width} {j k u v : Nat} (hj : j ≤ escTier w) (hu : j < escTier w → u < tierBound j)
    (hk : k ≤ escTier w) (hv : k < escTier w → v < tierBound k) (h : formAt w j u <+: formAt w k v) :
    formAt w j u = formAt w k v := by
  have htier : j = k := by
    obtain ⟨b, xs, hform, hclass⟩ := classify_formAt hj hu
    obtain ⟨b', xs', hform', hclass'⟩ := classify_formAt hk hv
    rw [hform, hform', List.cons_prefix_cons] at h
    rw [h.1, hclass'] at hclass
    exact (Option.some.inj hclass).symm
  subst htier
  exact h.eq_of_length (by simp)

/-- Settles O12: lengths go by the tiers, a form's bytes give its value, and its first byte gives its length. -/
theorem encoderLaws : Obligations.EncoderLaws := by
  intro w u v hu hv
  refine ⟨fun h => enc_length_mono (tierOf_mono h), enc_length_lt_iff.trans tierOf_lt_iff, enc_injective hu hv,
    fun s hs hpre => ?_⟩
  obtain ⟨k, hk, hcarries, -, hform⟩ := eq_formAt_of_dec_ok hs
  rw [List.take_length] at hform
  subst hform
  exact formAt_eq_of_prefix (tierOf_le w u) lt_bound_tierOf hk hcarries hpre

end Sys2Proof.Proofs
end

section
/-! The encode commands (R73 to R78): the start, the emit step with its two answers, and the run of a command to its
last write or to one that faults. -/

namespace Sys2Proof.Proofs

open Sys2Proof Sys2Proof.Machine Sys2Proof.Claims

/-! ### Command start (R73) -/

/-- A canonical form fits `SCRATCH` (R20). -/
theorem enc_length_le (w : Width) (v : Nat) : (enc w v).length ≤ 9 := by
  rw [enc_length, Nat.add_comm]
  exact Nat.succ_le_succ extraBytes_le

/-- The block after the start of an encode command (R30, R73). -/
abbrev encStarted (b : Block) (w : Width) (sg : Bool) (arg : Word64) : Block :=
  (b.latch ⟨.enc, w, sg⟩).encoderStart w arg

theorem exec_encodeCommand_start {i : Instr} {w : Width} {sg : Bool} (hi : (i, w, sg) ∈ encodeCommands) {s : State}
    {arg : Word64} (hb : s.cur.busy = false) (hc : s.conflicts s.cur = false) (ha : s.cur.block.arg = some arg) :
    exec i s = .next (s.setBlock (encStarted s.cur.block w sg arg)) := by
  rw [exec_encodeCommand hi, startCommand_enc rfl hb hc ha]

/-- Settles O16: the next state of an encode start, field by field. -/
theorem encodeCommandsStart : Obligations.EncodeCommandsStart := by
  intro i w sg hi s a hb hc ha
  refine ⟨_, _, _, exec_encodeCommand_start hi hb hc ha, rfl, rfl, rfl, ?_, ?_, ?_, ?_, rfl, rfl, rfl, rfl, rfl, rfl,
    fillScratch_toList _ _ (enc_length_le _ _), rfl, rfl, rfl⟩ <;> simp

/-! ### The emit step (R74) -/

/-- `s` with the acting block, output stream `id` and the schedule replaced: what an encode command can change. -/
def outMoved (s : State) (b : Block) (id : Nat) (st : OutStream) (turns : List Turn) : State :=
  { s.setBlock b with outStreams := s.outStreams.set id st, schedule := turns }

theorem onlyBlockAndOut_outMoved (s : State) (b : Block) (id : Nat) (st : OutStream) (turns : List Turn) :
    OnlyBlockAndOut s (outMoved s b id st turns) id st turns := rfl

@[simp] theorem outMoved_cur_block (s : State) (b : Block) (id : Nat) (st : OutStream) (turns : List Turn) :
    (outMoved s b id st turns).cur.block = b := rfl

/-- A later move of the same parts replaces an earlier one. -/
theorem outMoved_outMoved (s : State) (b b' : Block) (id : Nat) (st st' : OutStream) (turns turns' : List Turn) :
    outMoved (outMoved s b id st turns) b' id st' turns' = outMoved s b' id st' turns' := by
  simp only [outMoved, List.set_set]
  rfl

/-- Putting an attached stream back moves the block and the schedule alone. -/
theorem outMoved_attached {s : State} {id : Nat} {st : OutStream} (h : s.attachedOut = some (id, st)) (b : Block)
    (turns : List Turn) : outMoved s b id st turns = { s.setBlock b with schedule := turns } := by
  obtain ⟨hid, hst⟩ := List.getElem?_eq_some_iff.1 (attachedOut_spec.1 h).2
  rw [outMoved, ← hst, List.set_getElem_self]
  rfl

theorem attachedOut_outMoved {s : State} {id : Nat} {st : OutStream} (h : s.attachedOut = some (id, st)) (b : Block)
    (st' : OutStream) (turns : List Turn) : (outMoved s b id st' turns).attachedOut = some (id, st') := by
  obtain ⟨hport, hst⟩ := attachedOut_spec.1 h
  obtain ⟨hid, -⟩ := List.getElem?_eq_some_iff.1 hst
  exact attachedOut_spec.2 ⟨hport, List.getElem?_set_self hid⟩

section Emit

variable {s : State} {a : Answer} {id : Nat} {st : OutStream} {byte : Byte}

theorem emitStep_ok (ho : s.attachedOut = some (id, st)) (hx : s.cur.block.scratch[s.cur.block.j]? = some byte)
    (ha : a.fails = false) :
    emitStep a s = .next (outMoved s s.cur.block.emitted id ⟨st.written ++ [byte]⟩ s.schedule) := by
  simp only [emitStep, hx, outWrite_ok ho ha]
  rfl

/-- The stream after a faulting write, which has the byte or not (R36). -/
theorem emitStep_fault (ho : s.attachedOut = some (id, st)) (hx : s.cur.block.scratch[s.cur.block.j]? = some byte)
    (ha : a.fails = true) :
    emitStep a s = .next (outMoved s (s.cur.block.raise (.outFault a.info)) id
      ⟨st.written ++ if a.landed then [byte] else []⟩ s.schedule) := by
  simp only [emitStep, hx, outWrite_fault ho ha]
  cases a.landed with
  | true => rfl
  | false =>
    rw [if_neg Bool.false_ne_true, if_neg Bool.false_ne_true, List.append_nil, outMoved_attached ho]
    rfl

end Emit

theorem microStep_emit {a : Answer} {s : State} (hp : s.cur.block.phase = .emit) : microStep a s = emitStep a s := by
  simp only [microStep, hp]

theorem emitted_j (b : Block) : b.emitted.j = b.j + 1 := by
  unfold Block.emitted; simp only; split <;> rfl

/-- Settles O28: each answer by its own equation of the emit step. -/
theorem emitStepEffect : Obligations.EmitStepEffect := by
  intro s a id st byte hp ho hx
  rw [microStep_emit hp]
  cases ha : a.fails with
  | false =>
    refine ⟨_, emitStep_ok ho hx ha, fun _ => ?_, nofun⟩
    exact ⟨onlyBlockAndOut_outMoved .., emitted_j _, emitted_len _, emitted_of_last, emitted_of_not_last⟩
  | true =>
    refine ⟨_, emitStep_fault ho hx ha, nofun, fun _ => ⟨rfl, ?_⟩⟩
    cases a.landed with
    | true => exact .inr (onlyBlockAndOut_outMoved ..)
    | false =>
      rw [if_neg Bool.false_ne_true, List.append_nil]
      exact .inl (onlyBlockAndOut_outMoved ..)

/-! ### The run of a command (R44, R74) -/

/-- No held write is ready while the acting instance is BUSY and the others are as they were. -/
theorem readyInst_outMoved {s : State} {b : Block} (hr : s.readyInst = none) (hb : b.busy = true) (id : Nat)
    (st : OutStream) (turns : List Turn) : (outMoved s b id st turns).readyInst = none := by
  rw [State.readyInst, List.findIdx?_eq_none_iff] at hr ⊢
  intro i hi
  rcases mem_instances.1 hi with hi | rfl | hi
  · exact hr i (mem_instances.2 (.inl hi))
  · simp [Inst.heldReady, Inst.busy, hb]
  · exact hr i (mem_instances.2 (.inr (.inr hi)))

/-- The block with `k` bytes of its form emitted and more to come (R74). -/
def sent (b : Block) (k : Nat) : Block := { b with j := k, len := BitVec.ofNat 8 k }

/-- The block `b` has the form `F` staged, byte by byte, and is about to emit it (R73). -/
structure Staged (b : Block) (F : List Byte) : Prop where
  busy : b.busy = true
  phase : b.phase = .emit
  nb : b.nb = F.length
  scratch : ∀ k, k < F.length → b.scratch[k]? = F[k]?

theorem sent_zero {b : Block} (hj : b.j = 0) (hl : b.len = 0) : sent b 0 = b := by
  change { b with j := 0, len := 0 } = b
  rw [← hj, ← hl]

theorem emitted_sent (b : Block) {k : Nat} (h : k + 1 ≠ b.nb) : (sent b k).emitted = sent b (k + 1) := by
  rw [emitted_of_not_last h, sent, sent, BitVec.ofNat_add]
  rfl

theorem emitted_sent_last (b : Block) {k : Nat} (h : k + 1 = b.nb) :
    (sent b k).emitted = (sent b (k + 1)).finish := by
  rw [emitted_of_last h, sent, sent, BitVec.ofNat_add]
  rfl

theorem staged_encStarted (b : Block) (w : Width) (sg : Bool) (arg : Word64) :
    Staged (encStarted b w sg arg) (enc w (argValue w arg)) where
  busy := busy_latch b ⟨.enc, w, sg⟩
  phase := rfl
  nb := rfl
  scratch := by
    intro k hk
    have h9 := enc_length_le w (argValue w arg)
    rw [encoderStart_scratch, fillScratch_getElem? _ _ _ _ (by omega), if_pos ⟨Nat.zero_le k, by omega⟩, Nat.sub_zero]

section Run

variable {s : State} {b : Block} {F : List Byte} {id : Nat} {st : OutStream}

/-- `s` with the first `k` bytes of the form written and counted. -/
def emitting (s : State) (b : Block) (F : List Byte) (id : Nat) (st : OutStream) (k : Nat) (turns : List Turn) :
    State :=
  outMoved s (sent b k) id ⟨st.written ++ F.take k⟩ turns

theorem emitting_zero (ho : s.attachedOut = some (id, st)) (hj : b.j = 0) (hl : b.len = 0) (turns : List Turn) :
    emitting s b F id st 0 turns = { s.setBlock b with schedule := turns } := by
  rw [emitting, sent_zero hj hl, List.take_zero, List.append_nil, outMoved_attached ho]

theorem outMoved_emitting (b' : Block) (st' : OutStream) (k : Nat) (turns turns' : List Turn) :
    outMoved (emitting s b F id st k turns) b' id st' turns' = outMoved s b' id st' turns' :=
  outMoved_outMoved ..

theorem attachedOut_emitting (ho : s.attachedOut = some (id, st)) (k : Nat) (turns : List Turn) :
    (emitting s b F id st k turns).attachedOut = some (id, ⟨st.written ++ F.take k⟩) :=
  attachedOut_outMoved ho ..

theorem readyInst_emitting (hr : s.readyInst = none) (hb : Staged b F) (k : Nat) (turns : List Turn) :
    (emitting s b F id st k turns).readyInst = none :=
  readyInst_outMoved hr (b := sent b k) hb.busy ..

/-- The byte that is due (R74). -/
theorem emitting_byte (hb : Staged b F) {k : Nat} {x : Byte} (hx : F[k]? = some x) (turns : List Turn) :
    (emitting s b F id st k turns).cur.block.scratch[(emitting s b F id st k turns).cur.block.j]? = some x := by
  obtain ⟨hk, -⟩ := List.getElem?_eq_some_iff.1 hx
  exact (hb.scratch k hk).trans hx

variable (hr : s.readyInst = none) (ho : s.attachedOut = some (id, st)) (hb : Staged b F)

include hr hb in
/-- The next answer of the stream runs the emit step. -/
theorem step_emitting (k : Nat) (a : Answer) (turns : List Turn) :
    step (emitting s b F id st k (.answer s.curNum a :: turns)) = emitStep a (emitting s b F id st k turns) :=
  (step_answer_cur (readyInst_emitting hr hb ..) rfl).trans (microStep_emit hb.phase)

include hr ho hb

theorem step_emitting_ok {k : Nat} {x : Byte} (hx : F[k]? = some x) {a : Answer} (ha : a.fails = false)
    (turns : List Turn) :
    step (emitting s b F id st k (.answer s.curNum a :: turns)) =
      .next (outMoved s (sent b k).emitted id ⟨st.written ++ F.take (k + 1)⟩ turns) := by
  rw [step_emitting hr hb, emitStep_ok (attachedOut_emitting ho ..) (emitting_byte hb hx turns) ha,
    outMoved_emitting, List.append_assoc, List.take_add_one, hx]
  rfl

theorem step_emitting_fault {k : Nat} {x : Byte} (hx : F[k]? = some x) {a : Answer} (ha : a.fails = true)
    (turns : List Turn) :
    step (emitting s b F id st k (.answer s.curNum a :: turns)) =
      .next (outMoved s ((sent b k).raise (.outFault a.info)) id
        ⟨st.written ++ F.take k ++ if a.landed then [x] else []⟩ turns) := by
  rw [step_emitting hr hb, emitStep_fault (attachedOut_emitting ho ..) (emitting_byte hb hx turns) ha,
    outMoved_emitting]
  rfl

/-- By induction on the answers: each `ok` one before the form's last byte emits one byte more. -/
theorem run_emitting (as : List Answer) (hok : AllOk as) (k n : Nat) (hk : k + as.length < F.length)
    (turns : List Turn) :
    core.run (as.length + n) (emitting s b F id st k (answerTurns s.curNum as ++ turns)) =
      core.run n (emitting s b F id st (k + as.length) turns) := by
  induction as generalizing k with
  | nil => rw [List.length_nil, Nat.zero_add]; rfl
  | cons a as ih =>
    obtain ⟨ha, hok⟩ := List.forall_mem_cons.1 hok
    rw [List.length_cons] at hk
    have hx := List.getElem?_eq_getElem (show k < F.length by omega)
    have hstep := step_emitting_ok hr ho hb hx ha (answerTurns s.curNum as ++ turns)
    rw [emitted_sent b (by rw [hb.nb]; omega)] at hstep
    rw [List.length_cons, show as.length + 1 + n = as.length + n + 1 by omega,
      show k + (as.length + 1) = k + 1 + as.length by omega, ← ih hok (k + 1) (by omega)]
    exact run_succ hstep

end Run

/-- The byte of each of the eight commands decodes to it (R51). -/
theorem decodeCmd_encodeByte {i : Instr} {w : Width} {sg : Bool} (hi : (i, w, sg) ∈ encodeCommands ++ decodeCommands) :
    decodeCmd (encodeByte i) = i := by
  have hall : ∀ c ∈ encodeCommands ++ decodeCommands, decodeCmd (encodeByte c.1) = c.1 := by decide
  exact hall _ hi

section Command

variable {i : Instr} {w : Width} {sg : Bool} {s : State} {arg : Word64} {id : Nat} {st : OutStream}
variable (hi : (i, w, sg) ∈ encodeCommands) (hr : s.readyInst = none) (hb : s.cur.busy = false)
variable (hc : s.conflicts s.cur = false) (ha : s.cur.block.arg = some arg) (ho : s.attachedOut = some (id, st))
include hi hr hb hc ha ho

/-- The step that brings the write of an encode command starts it, with no byte out (R30, R73). -/
theorem step_encode_write {turns : List Turn}
    (hs : s.schedule = .access s.curNum (.write 0 (encodeByte i).toNat) :: turns) :
    step s = .next (emitting s (encStarted s.cur.block w sg arg) (enc w (argValue w arg)) id st 0 turns) := by
  have hexec := exec_encodeCommand_start (s := { s with schedule := turns }) hi hb hc ha
  rw [step_access hr hs (focus_curNum { s with schedule := turns }), hostAccess, hostWrite_cmd, BitVec.ofNat_toNat,
    BitVec.setWidth_eq, decodeCmd_encodeByte (List.mem_append_left _ hi), hexec, emitting_zero ho rfl rfl]
  rfl

/-- After the write of `CMD` and fewer `ok` answers than the form has bytes, as many bytes are out and one is due. -/
theorem run_encode {as : List Answer} {turns : List Turn} (hok : AllOk as)
    (hlen : as.length < (enc w (argValue w arg)).length)
    (hs : s.schedule = .access s.curNum (.write 0 (encodeByte i).toNat) :: (answerTurns s.curNum as ++ turns))
    (n : Nat) :
    core.run (1 + as.length + n) s = core.run n
      (emitting s (encStarted s.cur.block w sg arg) (enc w (argValue w arg)) id st as.length turns) := by
  have hrun := run_emitting hr ho (staged_encStarted s.cur.block w sg arg) as hok 0 n (by omega) turns
  rw [Nat.zero_add] at hrun
  rw [← hrun, show 1 + as.length + n = as.length + n + 1 by omega]
  exact run_succ (step_encode_write hi hr hb hc ha ho hs)

end Command

/-- The number of bytes out is what `LEN` holds (R18): a form has at most nine. -/
theorem sent_len_toNat (b : Block) {k : Nat} (h : k ≤ 9) : (sent b k).len.toNat = k := by
  rw [sent, BitVec.toNat_ofNat]
  omega

theorem answerTurns_append (n : Nat) (as bs : List Answer) :
    answerTurns n (as ++ bs) = answerTurns n as ++ answerTurns n bs := List.map_append

/-- Settles O56: all writes but the last by `run_encode`, and the last one finishes the command. -/
theorem encodeRunWritesCanonicalForm : Obligations.EncodeRunWritesCanonicalForm := by
  intro i w sg hi s arg id st as rest F hr hb hc ha ho hF hok hlen hs
  obtain rfl : F = enc w (argValue w arg) := hF
  obtain rfl | ⟨as, last, rfl⟩ := as.eq_nil_or_concat'
  · rw [enc_length, List.length_nil] at hlen
    omega
  · obtain ⟨hok, hlast⟩ := List.forall_mem_append.1 hok
    rw [List.length_append, List.length_singleton] at hlen
    rw [answerTurns_append, List.cons_append, List.append_assoc] at hs
    have hrun := run_encode hi hr hb hc ha ho hok (by omega) hs 1
    have hx := List.getElem?_eq_getElem (show as.length < (enc w (argValue w arg)).length by omega)
    have hstep := step_emitting_ok hr ho (staged_encStarted s.cur.block w sg arg) hx
      (hlast last (List.mem_singleton_self _)) rest
    rw [emitted_sent_last _ hlen, hlen, List.take_length] at hstep
    rw [show 1 + (enc w (argValue w arg)).length = 1 + as.length + 1 by omega, hrun]
    refine ⟨_, run_succ hstep, onlyBlockAndOut_outMoved .., ?_, ?_, ?_, ?_, rfl, rfl, rfl, rfl⟩
    · simp
    · simp [sent]
    · simp [sent]
    · exact sent_len_toNat (encStarted s.cur.block w sg arg) (enc_length_le ..)

/-- Settles O57: the writes before the faulting one by `run_encode`, and that one raises OUT_FAULT. -/
theorem encodeRunFaultLeavesBeginning : Obligations.EncodeRunFaultLeavesBeginning := by
  intro i w sg hi s arg id st as bad rest F byte hr hb hc ha ho hF hok hbad hx hs
  obtain rfl : F = enc w (argValue w arg) := hF
  obtain ⟨hlen, -⟩ := List.getElem?_eq_some_iff.1 hx
  rw [answerTurns_append, List.cons_append, List.append_assoc] at hs
  have hrun := run_encode hi hr hb hc ha ho hok hlen hs 1
  have hstep := step_emitting_fault hr ho (staged_encStarted s.cur.block w sg arg) hx hbad rest
  rw [show 2 + as.length = 1 + as.length + 1 by omega, hrun]
  refine ⟨_, run_succ hstep, onlyBlockAndOut_outMoved .., ?_, ?_, ?_, ?_, rfl, rfl, rfl, rfl⟩
  · simp
  · simp [HwError.errCode]
  · simp [HwError.recordByte, sent]
  · exact sent_len_toNat (encStarted s.cur.block w sg arg) (hlen.le.trans (enc_length_le ..))

end Sys2Proof.Proofs
end

section
/-! The decode function (R83, R84, R91): what it gives of a whole form, the value of a form as a sum of its bytes, and
the round trip. -/

namespace Sys2Proof.Proofs

open Sys2Proof Sys2Proof.Machine

/-- A whole form decodes to its value, whatever follows it (R83). -/
theorem dec_form {w : Width} {b0 : Byte} {k : Nat} {xs : List Byte} (hc : classify w b0 = some k)
    (hl : xs.length = extraBytes w k) (t : List Byte) :
    dec w (b0 :: xs ++ t) = .ok (formValue w k (b0 :: xs)) (1 + xs.length) := by
  rw [List.cons_append, dec_of_length hc (by rw [List.length_append]; omega), ← hl, List.take_left]

/-- Settles O10: a canonical form is a whole form of the canonical tier, and carries the value it was made of. -/
theorem roundTrip : Obligations.RoundTrip := by
  intro w v t hv
  obtain ⟨b0, xs, hform, hc⟩ := classify_formAt (tierOf_le w v) lt_bound_tierOf
  have henc : enc w v = b0 :: xs := hform
  have hlen := enc_length (w := w) (v := v)
  rw [henc, List.length_cons, Nat.add_comm] at hlen
  have hvalue := formValue_enc hv
  rw [henc] at hvalue ⊢
  rw [dec_form hc (Nat.add_left_cancel hlen), hvalue, List.length_cons, Nat.add_comm]

/-- Bytes shifted in, most significant first, are the sum of R81. -/
theorem foldl_shiftIn_eq_sum (xs : List Byte) (acc : Nat) :
    xs.foldl shiftIn acc = acc <<< (8 * xs.length) +
      ((List.range xs.length).map (fun i => (xs.getD i 0).toNat <<< (8 * (xs.length - 1 - i)))).sum := by
  induction xs generalizing acc with
  | nil => simp
  | cons x xs ih =>
    have hexp : ∀ i, xs.length + 1 - 1 - (i + 1) = xs.length - 1 - i := by omega
    simp only [List.foldl_cons, ih, List.length_cons, List.range_succ_eq_map, List.map_cons, List.map_map,
      Function.comp_def, List.sum_cons, List.getD_cons_zero, List.getD_cons_succ, Nat.succ_eq_add_one, hexp]
    rw [shiftIn_eq, Nat.add_sub_cancel, Nat.sub_zero, Nat.shiftLeft_eq, Nat.shiftLeft_eq, Nat.shiftLeft_eq,
      Nat.mul_add, pow_add]
    ring

/-- The normalized bytes, least significant first, are the sum of R82. -/
theorem normalizeBytes_eq_sum (xs : List Byte) :
    normalizeBytes xs = ((List.range xs.length).map (fun i => (xs.getD i 0).toNat <<< (8 * i))).sum := by
  induction xs with
  | nil => rfl
  | cons x xs ih =>
    have hstep : ∀ n i : Nat, n <<< (8 * (i + 1)) = n <<< (8 * i) * 2 ^ 8 := fun n i => by
      rw [Nat.mul_add, Nat.shiftLeft_add, Nat.shiftLeft_eq _ (8 * 1)]
    simp only [normalizeBytes, List.length_cons, List.range_succ_eq_map, List.map_cons, List.map_map,
      Function.comp_def, List.sum_cons, List.getD_cons_zero, List.getD_cons_succ, Nat.succ_eq_add_one, hstep,
      List.sum_map_mul_right, ← ih, Nat.shiftLeft_eq _ 8]
    rw [Nat.mul_zero, Nat.shiftLeft_zero]

/-- Settles O13: the form is taken whole, and its value is the sum of the layout of its kind of tier. -/
theorem everyWellFormedFormAccepted : Obligations.EveryWellFormedFormAccepted := by
  intro w b0 k xs t hc hl
  refine ⟨_, (formValue_lt hc hl).1, dec_form hc hl t, fun hk => ?_, fun hk => ?_⟩
  · obtain rfl : xs.length = k := hl.trans (extraBytes_of_lt hk)
    rw [formValue, if_pos hk, extractPayload, foldl_shiftIn_eq_sum]
  · rw [formValue, if_neg (by omega), List.tail_cons, normalizeBytes_eq_sum]

end Sys2Proof.Proofs
end

section
/-! The micro-steps of a decode (R85, R86): the rows of a first byte, the two answers at the tag and in the body, and
the step that runs a first byte. -/

namespace Sys2Proof.Proofs

open Sys2Proof Sys2Proof.Machine Sys2Proof.Claims

/-! ### The first-byte rows (R85, R94) -/

/-- The seven payload bits of a tier 0 byte are its value (R81). -/
theorem tierZero_payload (p : BitVec 7) :
    ((0b0#1 ++ p) &&& 0x7F).toNat = p.toNat ∧ 0b0#1 ++ p = BitVec.ofNat 8 p.toNat := by
  revert p
  decide +kernel

theorem tagFinishes_of_acceptTag {i : Instr} {w : Width} {p : BitVec 7}
    (hexec : ∀ s, exec i s = acceptTag w 0 (0b0#1 ++ p) s) : TagFinishes i w p.toNat := by
  intro s h
  obtain ⟨hvalue, hbyte⟩ := tierZero_payload p
  rw [hexec, acceptTag_zero h, hvalue, hbyte]
  refine ⟨_, rfl, rfl, rfl, rfl, rfl, ?_, ?_, ?_, ?_, setIfInBounds_zero_toList .., rfl, rfl, ?_, rfl, rfl, rfl⟩
  · simp
  · simp
  · simp
  · simp
  · simp [extraBytes_eq_zero]

theorem tagGoesOn_of_acceptTag {i : Instr} {w : Width} {k nb : Nat} {b : Byte}
    (hexec : ∀ s, exec i s = acceptTag w k b s) (hk : k ≠ 0) (hnb : 1 + extraBytes w k = nb) :
    TagGoesOn i w k nb b := by
  intro s h
  rw [hexec, acceptTag_pos h hk]
  exact ⟨_, rfl, rfl, setIfInBounds_zero_toList .., rfl, rfl, rfl, hnb, rfl, rfl, rfl, rfl, rfl, rfl⟩

theorem rejectTag_enabled {w : Width} {b0 : Byte} {s : State} (h : tagEnabled w s = true) :
    rejectTag w b0 s = .next (s.setBlock ((s.cur.block.takeTag b0).raise (.unrecognizedTag b0))) := if_pos h

/-- The four illegal rows have one meaning (R59). -/
theorem exec_illegalRow {b0 : Byte} {i : Instr} (h : i ∈ illegalRows b0) (s : State) :
    exec i s = rejectTag .w32 b0 s := by
  simp only [illegalRows, List.mem_cons, List.not_mem_nil, or_false] at h
  rcases h with rfl | rfl | rfl | rfl <;> rfl

/-- Settles O22: both tier 0 rows accept the byte at tier 0. -/
theorem tierZeroFinishes : Obligations.TierZeroFinishes := fun _ =>
  ⟨tagFinishes_of_acceptTag fun _ => rfl, tagFinishes_of_acceptTag fun _ => rfl⟩

/-- Settles O23: each row accepts its byte at its own tier, which is not 0. -/
theorem longerTiers32GoOn : Obligations.LongerTiers32GoOn := by
  refine ⟨fun p => ?_, fun p => ?_, fun p => ?_, ?_⟩ <;>
    exact tagGoesOn_of_acceptTag (fun _ => rfl) (by decide) rfl

/-- Settles O24: each row accepts its byte at its own tier, which is not 0. -/
theorem longerTiers64GoOn : Obligations.LongerTiers64GoOn := by
  refine ⟨fun p => ?_, fun p => ?_, fun p => ?_, fun p => ?_, fun p => ?_, fun p => ?_, ?_, ?_⟩ <;>
    exact tagGoesOn_of_acceptTag (fun _ => rfl) (by decide) rfl

/-- Settles O25: the four rows reject the byte, once it is stored and counted. -/
theorem illegalTagsEndInError : Obligations.IllegalTagsEndInError := by
  intro b0 i hi s h
  rw [exec_illegalRow hi, rejectTag_enabled h]
  refine ⟨_, rfl, rfl, ?_, ?_, ?_, ?_, rfl, rfl, rfl, rfl, rfl, setIfInBounds_zero_toList .., rfl, rfl, rfl, rfl⟩
  · simp
  · simp [HwError.errCode]
  · simp [HwError.recordByte]
  · simp

/-! ### The answers of the input stream (R35, R85, R86) -/

/-- `s` with the acting block, input stream `id` and the schedule replaced: what a decode command can change. -/
def inMoved (s : State) (b : Block) (id : Nat) (st : InStream) (turns : List Turn) : State :=
  { s.setBlock b with inStreams := s.inStreams.set id st, schedule := turns }

theorem onlyBlockAndIn_inMoved (s : State) (b : Block) (id : Nat) (st : InStream) (turns : List Turn) :
    OnlyBlockAndIn s (inMoved s b id st turns) id st turns := rfl

@[simp] theorem inMoved_cur_block (s : State) (b : Block) (id : Nat) (st : InStream) (turns : List Turn) :
    (inMoved s b id st turns).cur.block = b := rfl

/-- A later move of the same parts replaces an earlier one. -/
theorem inMoved_inMoved (s : State) (b b' : Block) (id : Nat) (st st' : InStream) (turns turns' : List Turn) :
    inMoved (inMoved s b id st turns) b' id st' turns' = inMoved s b' id st' turns' := by
  simp only [inMoved, List.set_set]
  rfl

/-- Putting an attached stream back moves the block and the schedule alone. -/
theorem inMoved_attached {s : State} {id : Nat} {st : InStream} (h : s.attachedIn = some (id, st)) (b : Block)
    (turns : List Turn) : inMoved s b id st turns = { s.setBlock b with schedule := turns } := by
  obtain ⟨hid, hst⟩ := List.getElem?_eq_some_iff.1 (attachedIn_spec.1 h).2
  rw [inMoved, ← hst, List.set_getElem_self]
  rfl

theorem attachedIn_inMoved {s : State} {id : Nat} {st : InStream} (h : s.attachedIn = some (id, st)) (b : Block)
    (st' : InStream) (turns : List Turn) : (inMoved s b id st' turns).attachedIn = some (id, st') := by
  obtain ⟨hport, hst⟩ := attachedIn_spec.1 h
  obtain ⟨hid, -⟩ := List.getElem?_eq_some_iff.1 hst
  exact attachedIn_spec.2 ⟨hport, List.getElem?_set_self hid⟩

section Read

variable {s : State} {a : Answer} {id : Nat} {st : InStream}
variable (hat : s.attachedIn = some (id, st))
include hat

/-- At the tag a byte that the stream supplies runs as an instruction, taken from the stream (R85). -/
theorem microStep_tag_ok (hp : s.cur.block.phase = .tag) (ha : a.fails = false) {b : Byte}
    (hb : st.get st.pos = some b) :
    microStep a s = exec (decodeByte s.cur.block.op.width.tagFormat b)
      (inMoved s s.cur.block id (st.moved 1) s.schedule) := by
  simp only [microStep, hp, tagStep, inRead_ok hat ha hb]
  rfl

/-- In the body a byte that the stream supplies is taken into the block (R86). -/
theorem microStep_body_ok (hp : s.cur.block.phase = .body) (hj : s.cur.block.j < 9) (ha : a.fails = false) {b : Byte}
    (hb : st.get st.pos = some b) :
    microStep a s = .next (inMoved s (s.cur.block.takeBody b) id (st.moved 1) s.schedule) := by
  simp only [microStep, hp, bodyStep, if_pos hj, inRead_ok hat ha hb]
  rfl

/-- A read that faults raises `IN_FAULT` and does nothing else but move the stream, at the tag and in the body (R85,
R86, R95). -/
theorem microStep_read_fault (hp : s.cur.block.phase = .tag ∨ s.cur.block.phase = .body ∧ s.cur.block.j < 9)
    (hf : a.fails = true ∨ st.get st.pos = none) :
    microStep a s = .next (inMoved s (s.cur.block.raise (.inFault a.info)) id (st.moved a.advance) s.schedule) := by
  rcases hp with hp | ⟨hp, hj⟩
  · simp only [microStep, hp, tagStep, inRead_fault hat hf]
    rfl
  · simp only [microStep, hp, bodyStep, if_pos hj, inRead_fault hat hf]
    rfl

end Read

/-- Settles O30, by the fault of a read at the tag. -/
theorem tagReadFaultEndsInError : Obligations.TagReadFaultEndsInError := by
  intro s a id st hp hat hf
  exact ⟨_, microStep_read_fault hat (.inl hp) hf, onlyBlockAndIn_inMoved .., rfl⟩

/-- Settles O37: the turn is the micro-step of its instance, which at the tag runs the byte it is supplied. -/
theorem stepRunsTagByte : Obligations.StepRunsTagByte := by
  intro s s' n id a st b i rest hr hs hf hp hat ha hb hd
  cases hd
  refine ⟨(encodeByte_decodeByte _ b).1, ?_⟩
  rw [step_of_schedule hr hs]
  exact (onInst_of_focus hf).trans (microStep_tag_ok hat hp ha hb)

theorem formValue_stored (b : Block) (x : Byte) : (stored b x).formValue =
    formValue b.op.width b.tier ((stored b x).scratch.toList.take b.nb) := rfl

/-- Settles O29: the answer decides between a byte taken, as the last one or not, and the fault. -/
theorem bodyStepEffect : Obligations.BodyStepEffect := by
  intro s a id st hp hat hj
  by_cases hf : a.fails = true ∨ st.get st.pos = none
  · refine ⟨_, microStep_read_fault hat (.inr ⟨hp, hj⟩) hf, fun byte ha hb => ?_, fun _ => ⟨rfl, rfl⟩⟩
    simp [ha, hb] at hf
  · obtain ⟨ha, hb⟩ : a.fails = false ∧ st.get st.pos ≠ none := by simpa using hf
    obtain ⟨x, hx⟩ := Option.ne_none_iff_exists'.1 hb
    refine ⟨_, microStep_body_ok hat hp hj ha hx, fun byte _ hbyte => ?_, fun h => absurd h hf⟩
    obtain rfl : x = byte := Option.some.inj (hx.symm.trans hbyte)
    by_cases hlast : s.cur.block.j + 1 = s.cur.block.nb
    · rw [takeBody_of_last hlast]
      refine ⟨rfl, rfl, rfl, rfl, rfl, rfl, rfl, rfl, rfl, fun h => absurd hlast h, fun _ => ⟨rfl, rfl, ?_, ?_⟩⟩
      · intro hk
        simp only [inMoved_cur_block, finish_res, formValue_stored, formValue, if_pos hk, finish_scratch]
      · intro hk
        simp only [inMoved_cur_block, finish_res, formValue_stored, formValue, if_neg hk, finish_scratch]
    · rw [takeBody_of_not_last hlast]
      exact ⟨rfl, rfl, rfl, rfl, rfl, rfl, rfl, rfl, rfl, fun _ => ⟨rfl, hp, rfl⟩, fun h => absurd h hlast⟩

end Sys2Proof.Proofs
end

section
/-! The run of a decode command (R87 to R91): the block that has read the first bytes of its stream, the steps that
lead from one such block to the next, and the three ends of the run against the three outcomes of `dec_W`. -/

namespace Sys2Proof.Proofs

open Sys2Proof Sys2Proof.Machine Sys2Proof.Claims

/-! ### Outcomes of the decode function (R83) -/

theorem dec_unrecognized {w : Width} {bs : List Byte} {b0 : Byte} (h : dec w bs = .unrecognized b0) :
    ∃ xs, bs = b0 :: xs ∧ classify w b0 = none := by
  cases bs with
  | nil => cases h
  | cons b xs =>
    rcases hc : classify w b with _ | k
    · rw [dec_of_none hc] at h
      cases h
      exact ⟨xs, rfl, hc⟩
    · rcases Nat.lt_or_ge xs.length (extraBytes w k) with hl | hl
      · rw [dec_of_short hc hl] at h
        cases h
      · rw [dec_of_length hc hl] at h
        cases h

/-- A form is short when there is no byte, or a first byte with a tier and too few after it. -/
theorem dec_short {w : Width} {bs : List Byte} {m : Nat} (h : dec w bs = .short m) :
    (bs = [] ∧ m = 0) ∨
      ∃ b0 xs k, bs = b0 :: xs ∧ classify w b0 = some k ∧ xs.length < extraBytes w k ∧ m = xs.length + 1 := by
  cases bs with
  | nil =>
    cases h
    exact .inl ⟨rfl, rfl⟩
  | cons b xs =>
    rcases hc : classify w b with _ | k
    · rw [dec_of_none hc] at h
      cases h
    · rcases Nat.lt_or_ge xs.length (extraBytes w k) with hl | hl
      · rw [dec_of_short hc hl] at h
        cases h
        exact .inr ⟨b, xs, k, rfl, hc, hl, rfl⟩
      · rw [dec_of_length hc hl] at h
        cases h

/-! ### Blocks of a decode in progress -/

/-- The block with the first `k` of the bytes `bs` stored and counted (R85, R86). -/
def collected (b : Block) (bs : List Byte) (k : Nat) : Block :=
  { b with scratch := fillScratch b.scratch 0 (bs.take k), j := k, len := BitVec.ofNat 8 k }

/-- The block once its first byte is of tier `k` and has bytes to follow (R85). -/
abbrev inBody (b : Block) (w : Width) (k : Nat) : Block :=
  { b with tier := k, nb := 1 + extraBytes w k, phase := .body }

/-- The block that has read a whole form of tier `k`, with the form's value in `RES` (R85, R86). -/
def decoded (b : Block) (w : Width) (k : Nat) (bs : List Byte) : Block :=
  Block.finish { collected (inBody b w k) bs (1 + extraBytes w k) with
    res := some (BitVec.ofNat 64 (formValue w k (bs.take (1 + extraBytes w k)))) }

/-- The block after the start of a decode command (R30). -/
abbrev decStarted (b : Block) (w : Width) (sg : Bool) : Block :=
  { b.latch ⟨.dec, w, sg⟩ with phase := .tag }

theorem busy_decStarted (b : Block) (w : Width) (sg : Bool) : (decStarted b w sg).busy = true :=
  busy_latch b ⟨.dec, w, sg⟩

theorem busy_inBody_decStarted (b : Block) (w : Width) (sg : Bool) (k : Nat) :
    (inBody (decStarted b w sg) w k).busy = true :=
  busy_latch b ⟨.dec, w, sg⟩

theorem collected_zero {b : Block} (hj : b.j = 0) (hl : b.len = 0) (bs : List Byte) : collected b bs 0 = b := by
  change { b with j := 0, len := 0 } = b
  rw [← hj, ← hl]

/-- Filling one byte more stores it behind the others (R73). -/
theorem fillScratch_concat (sc : Vector Byte Config.scratchBytes) (j : Nat) (bs : List Byte) (x : Byte) :
    fillScratch sc j (bs ++ [x]) = (fillScratch sc j bs).setIfInBounds (j + bs.length) x := by
  induction bs generalizing sc j with
  | nil => rfl
  | cons b bs ih =>
    rw [List.cons_append, fillScratch, ih, fillScratch, List.length_cons, Nat.add_assoc, Nat.add_comm 1]

theorem stored_collected (b : Block) {bs : List Byte} {k : Nat} {x : Byte} (hx : bs[k]? = some x) :
    stored (collected b bs k) x = collected b bs (k + 1) := by
  obtain ⟨hk, -⟩ := List.getElem?_eq_some_iff.1 hx
  have hlen : (bs.take k).length = k := List.length_take_of_le hk.le
  rw [collected, collected, List.take_add_one, hx, Option.toList_some, fillScratch_concat, hlen, Nat.zero_add,
    BitVec.ofNat_add]
  rfl

theorem takeBody_collected (b : Block) {bs : List Byte} {k : Nat} {x : Byte} (hx : bs[k]? = some x)
    (h : k + 1 ≠ b.nb) : (collected b bs k).takeBody x = collected b bs (k + 1) := by
  rw [takeBody_of_not_last h, stored_collected b hx]

/-- The last byte of the form completes it, and the value is that of the bytes read (R86). -/
theorem takeBody_collected_last (b : Block) {w : Width} (hw : b.op.width = w) {tier k : Nat} {bs : List Byte}
    {x : Byte} (hx : bs[k]? = some x) (h : k + 1 = 1 + extraBytes w tier) :
    (collected (inBody b w tier) bs k).takeBody x = decoded b w tier bs := by
  obtain ⟨hk, -⟩ := List.getElem?_eq_some_iff.1 hx
  have h8 : extraBytes w tier ≤ 8 := extraBytes_le
  have hlen : (bs.take (k + 1)).length = k + 1 := List.length_take_of_le hk
  have htake := fillScratch_take b.scratch (bs.take (k + 1)) (by omega)
  rw [hlen] at htake
  have hvalue : (collected (inBody b w tier) bs (k + 1)).formValue = formValue w tier (bs.take (k + 1)) := by
    rw [← htake, h, ← hw]
    rfl
  rw [takeBody_of_last h, stored_collected _ hx, hvalue, decoded, ← h]

/-- A tier 0 byte is a whole form (R85). -/
theorem tagged_finish (b : Block) (w : Width) (b0 : Byte) (xs : List Byte) :
    Block.finish { b.tagged w 0 b0 with res := some (BitVec.ofNat 64 (b0 &&& 0x7F).toNat) } =
      decoded b w 0 (b0 :: xs) := by
  cases w <;> rfl

/-! ### Steps of a decode in progress -/

theorem exec_decodeTag_of_tier {w : Width} {b0 : Byte} {k : Nat} (hc : classify w b0 = some k) (s : State) :
    exec (decodeByte w.tagFormat b0) s = acceptTag w k b0 s := by
  rw [exec_decodeTag, hc]

theorem exec_decodeTag_of_none {w : Width} {b0 : Byte} (hc : classify w b0 = none) (s : State) :
    exec (decodeByte w.tagFormat b0) s = rejectTag w b0 s := by
  rw [exec_decodeTag, hc]

/-- From its position on, the stream has the bytes `bs`. -/
def Supplies (st : InStream) (bs : List Byte) : Prop := ∀ k, k < bs.length → st.get (st.pos + k) = bs[k]?

/-- Moves of a stream add up. -/
theorem moved_moved (st : InStream) (m n : Nat) : (st.moved m).moved n = st.moved (m + n) := by
  simp only [InStream.moved, Nat.add_assoc]

/-- No held write is ready while the acting instance is BUSY and the others are as they were: streams play no part. -/
theorem readyInst_inMoved {s : State} {b : Block} (hr : s.readyInst = none) (hb : b.busy = true) (id : Nat)
    (st : InStream) (turns : List Turn) : (inMoved s b id st turns).readyInst = none :=
  readyInst_outMoved hr hb 0 ⟨[]⟩ turns

section Run

variable {s : State} {b : Block} {bs : List Byte} {id : Nat} {st : InStream}

/-- `s` with the first `k` bytes of its stream read by the block `b`. -/
def reading (s : State) (b : Block) (bs : List Byte) (id : Nat) (st : InStream) (k : Nat) (turns : List Turn) : State :=
  inMoved s (collected b bs k) id (st.moved k) turns

theorem reading_zero (hat : s.attachedIn = some (id, st)) (hj : b.j = 0) (hl : b.len = 0) (turns : List Turn) :
    reading s b bs id st 0 turns = { s.setBlock b with schedule := turns } := by
  rw [reading, collected_zero hj hl, show st.moved 0 = st from rfl, inMoved_attached hat]

theorem inMoved_reading (b' : Block) (st' : InStream) (k : Nat) (turns turns' : List Turn) :
    inMoved (reading s b bs id st k turns) b' id st' turns' = inMoved s b' id st' turns' :=
  inMoved_inMoved ..

theorem attachedIn_reading (hat : s.attachedIn = some (id, st)) (k : Nat) (turns : List Turn) :
    (reading s b bs id st k turns).attachedIn = some (id, st.moved k) :=
  attachedIn_inMoved hat ..

variable (hr : s.readyInst = none) (hat : s.attachedIn = some (id, st)) (hb : b.busy = true)

include hr hb in
/-- The next answer of the stream runs the micro-step. -/
theorem step_reading (k : Nat) (a : Answer) (turns : List Turn) :
    step (reading s b bs id st k (.answer s.curNum a :: turns)) = microStep a (reading s b bs id st k turns) :=
  step_answer_cur (readyInst_inMoved hr (b := collected b bs k) hb ..) rfl

include hr hat hb

/-- At any byte of the form a fault, or the end of the stream, raises `IN_FAULT` (R85, R86). -/
theorem step_reading_fault {k : Nat} (hp : b.phase = .tag ∨ b.phase = .body ∧ k < 9) {a : Answer}
    (hf : a.fails = true ∨ st.get (st.pos + k) = none) (turns : List Turn) :
    step (reading s b bs id st k (.answer s.curNum a :: turns)) =
      .next (inMoved s ((collected b bs k).raise (.inFault a.info)) id (st.moved (k + a.advance)) turns) := by
  rw [step_reading hr hb, microStep_read_fault (attachedIn_reading hat k turns) hp hf, inMoved_reading, moved_moved]
  rfl

variable (hsup : Supplies st bs)
include hsup

/-- The tag step runs the first byte at the width of `OP` (R85). -/
theorem step_reading_tag {w : Width} (hp : b.phase = .tag) (hw : b.op.width = w) {b0 : Byte} (hx : bs[0]? = some b0)
    {a : Answer} (ha : a.fails = false) (turns : List Turn) :
    step (reading s b bs id st 0 (.answer s.curNum a :: turns)) =
      exec (decodeByte w.tagFormat b0) (inMoved s (collected b bs 0) id (st.moved 1) turns) := by
  obtain ⟨hlt, -⟩ := List.getElem?_eq_some_iff.1 hx
  have hget : (st.moved 0).get (st.moved 0).pos = some b0 := (hsup 0 hlt).trans hx
  subst hw
  rw [step_reading hr hb, microStep_tag_ok (attachedIn_reading hat 0 turns) hp ha hget, inMoved_reading, moved_moved]
  rfl

/-- A body step takes the byte that is due (R86). -/
theorem step_reading_body (hp : b.phase = .body) {k : Nat} (hk : k < 9) {x : Byte} (hx : bs[k]? = some x) {a : Answer}
    (ha : a.fails = false) (turns : List Turn) :
    step (reading s b bs id st k (.answer s.curNum a :: turns)) =
      .next (inMoved s ((collected b bs k).takeBody x) id (st.moved (k + 1)) turns) := by
  obtain ⟨hlt, -⟩ := List.getElem?_eq_some_iff.1 hx
  have hget : (st.moved k).get (st.moved k).pos = some x := (hsup k hlt).trans hx
  rw [step_reading hr hb, microStep_body_ok (attachedIn_reading hat k turns) hp hk ha hget, inMoved_reading,
    moved_moved]
  rfl

/-- By induction on the answers: each `ok` one before the form's last byte takes one byte more. -/
theorem run_reading (hp : b.phase = .body) (hnb : b.nb ≤ 9) (as : List Answer) (hok : AllOk as) (k n : Nat)
    (hk : k + as.length < b.nb) (hlen : k + as.length ≤ bs.length) (turns : List Turn) :
    core.run (as.length + n) (reading s b bs id st k (answerTurns s.curNum as ++ turns)) =
      core.run n (reading s b bs id st (k + as.length) turns) := by
  induction as generalizing k with
  | nil => rw [List.length_nil, Nat.zero_add]; rfl
  | cons a as ih =>
    obtain ⟨ha, hok⟩ := List.forall_mem_cons.1 hok
    rw [List.length_cons] at hk hlen
    have hx := List.getElem?_eq_getElem (show k < bs.length by omega)
    have hstep := step_reading_body hr hat hb hsup hp (by omega) hx ha (answerTurns s.curNum as ++ turns)
    rw [takeBody_collected b hx (by omega)] at hstep
    rw [List.length_cons, show as.length + 1 + n = as.length + n + 1 by omega,
      show k + (as.length + 1) = k + 1 + as.length by omega, ← ih hok (k + 1) (by omega) (by omega)]
    exact run_succ hstep

end Run

/-! ### The run of a command -/

section Command

theorem tagEnabled_decStarted (s : State) (w : Width) (sg : Bool) (bs : List Byte) (id : Nat) (st : InStream)
    (turns : List Turn) :
    tagEnabled w (inMoved s (collected (decStarted s.cur.block w sg) bs 0) id st turns) = true :=
  tagEnabled_iff.2 ⟨rfl, rfl⟩

variable {i : Instr} {w : Width} {sg : Bool} {s : State} {id : Nat} {st : InStream} {bs : List Byte}
variable (hi : (i, w, sg) ∈ decodeCommands) (hr : s.readyInst = none) (hb : s.cur.busy = false)
variable (hc : s.conflicts s.cur = false) (hat : s.attachedIn = some (id, st))
include hi hr hb hc hat

/-- The step that brings the write of a decode command starts it, with no byte read (R30). -/
theorem step_decode_write {turns : List Turn}
    (hs : s.schedule = .access s.curNum (.write 0 (encodeByte i).toNat) :: turns) :
    step s = .next (reading s (decStarted s.cur.block w sg) bs id st 0 turns) := by
  have hexec := startCommand_dec (c := encodeByte i) (op := ⟨.dec, w, sg⟩) (s := { s with schedule := turns })
    rfl hb hc
  rw [step_access hr hs (focus_curNum { s with schedule := turns }), hostAccess, hostWrite_cmd, BitVec.ofNat_toNat,
    BitVec.setWidth_eq, decodeCmd_encodeByte (List.mem_append_right _ hi), exec_decodeCommand hi, hexec,
    reading_zero hat rfl rfl]
  rfl

variable {b0 : Byte} {xs : List Byte} (hbs : bs = b0 :: xs) (hsup : Supplies st bs)
variable {a : Answer} (ha : a.fails = false) {turns : List Turn}
include hbs hsup ha

section Tag

variable (hs : s.schedule = .access s.curNum (.write 0 (encodeByte i).toNat) :: .answer s.curNum a :: turns)
include hs

/-- The write of `CMD`, then the tag step, which runs the first byte as an instruction (R30, R85). -/
theorem run_decode_tag {t : State} (hexec : exec (decodeByte w.tagFormat b0)
      (inMoved s (collected (decStarted s.cur.block w sg) bs 0) id (st.moved 1) turns) = .next t) (n : Nat) :
    core.run (2 + n) s = core.run n t := by
  have hwrite := step_decode_write (bs := bs) hi hr hb hc hat hs
  have htag := step_reading_tag hr hat (busy_decStarted s.cur.block w sg) hsup (w := w) (b0 := b0) rfl rfl
    (by rw [hbs]; rfl) ha turns
  rw [hexec] at htag
  rw [show 2 + n = n + 1 + 1 by omega]
  exact (run_succ hwrite).trans (run_succ htag)

/-- A first byte without a tier ends the run (R85, R94). -/
theorem run_decode_unrecognized (htag : classify w b0 = none) : core.run 2 s =
    .next (inMoved s ((collected (decStarted s.cur.block w sg) bs 1).raise (.unrecognizedTag b0)) id (st.moved 1)
      turns) := by
  refine run_decode_tag hi hr hb hc hat hbs hsup ha hs ?_ 0
  rw [exec_decodeTag_of_none htag, rejectTag_enabled (tagEnabled_decStarted ..), hbs]
  rfl

/-- A tier 0 byte ends the run (R85). -/
theorem run_decode_tier_zero (htag : classify w b0 = some 0) : core.run 2 s =
    .next (inMoved s (decoded (decStarted s.cur.block w sg) w 0 bs) id (st.moved 1) turns) := by
  refine run_decode_tag hi hr hb hc hat hbs hsup ha hs ?_ 0
  rw [exec_decodeTag_of_tier htag, acceptTag_zero (tagEnabled_decStarted ..), hbs, ← tagged_finish]
  rfl

/-- A byte of a longer tier leads on to the body (R85). -/
theorem run_decode_tier_pos {k : Nat} (htag : classify w b0 = some k) (hk : k ≠ 0) (n : Nat) :
    core.run (2 + n) s = core.run n (reading s (inBody (decStarted s.cur.block w sg) w k) bs id st 1 turns) := by
  refine run_decode_tag hi hr hb hc hat hbs hsup ha hs ?_ n
  rw [exec_decodeTag_of_tier htag, acceptTag_pos (tagEnabled_decStarted ..) hk, hbs]
  rfl

end Tag

/-- After a byte of a longer tier and `ok` answers before the form's last byte, as many bytes are read. -/
theorem run_decode_body {k : Nat} (htag : classify w b0 = some k) {as : List Answer} (hok : AllOk as)
    (hlt : as.length < extraBytes w k) (hlen : as.length ≤ xs.length)
    (hs : s.schedule = .access s.curNum (.write 0 (encodeByte i).toNat) :: .answer s.curNum a ::
      (answerTurns s.curNum as ++ turns)) (n : Nat) :
    core.run (2 + as.length + n) s =
      core.run n (reading s (inBody (decStarted s.cur.block w sg) w k) bs id st (1 + as.length) turns) := by
  have hk : k ≠ 0 := fun h => by rw [extraBytes_eq_zero.2 h] at hlt; exact Nat.not_lt_zero _ hlt
  have h8 : extraBytes w k ≤ 8 := extraBytes_le
  rw [Nat.add_assoc, run_decode_tier_pos hi hr hb hc hat hbs hsup ha hs htag hk]
  refine run_reading hr hat (busy_inBody_decStarted s.cur.block w sg k) hsup rfl ?_ as hok 1 n ?_ ?_ turns
  · change 1 + extraBytes w k ≤ 9
    omega
  · change 1 + as.length < 1 + extraBytes w k
    omega
  · rw [hbs, List.length_cons]
    omega

/-- With an `ok` answer for each byte of the form, the run ends with the form's value (R86). -/
theorem run_decode_ok {k : Nat} (htag : classify w b0 = some k) {as : List Answer} (hok : AllOk as)
    (hlen : as.length = extraBytes w k) (hxs : extraBytes w k ≤ xs.length)
    (hs : s.schedule = .access s.curNum (.write 0 (encodeByte i).toNat) :: .answer s.curNum a ::
      (answerTurns s.curNum as ++ turns)) :
    core.run (2 + extraBytes w k) s =
      .next (inMoved s (decoded (decStarted s.cur.block w sg) w k bs) id (st.moved (1 + extraBytes w k)) turns) := by
  obtain rfl | ⟨as, z, rfl⟩ := as.eq_nil_or_concat'
  · obtain rfl := extraBytes_eq_zero.1 hlen.symm
    rw [← hlen]
    exact run_decode_tier_zero hi hr hb hc hat hbs hsup ha hs htag
  · obtain ⟨hok, hz⟩ := List.forall_mem_append.1 hok
    have h8 : extraBytes w k ≤ 8 := extraBytes_le
    rw [List.length_append, List.length_singleton] at hlen
    rw [answerTurns_append, List.append_assoc] at hs
    have hrun := run_decode_body hi hr hb hc hat hbs hsup ha htag hok (by omega) (by omega) hs 1
    have hx : bs[1 + as.length]? = some (xs[as.length]'(by omega)) := by
      rw [hbs, Nat.add_comm, List.getElem?_cons_succ]
      exact List.getElem?_eq_getElem _
    have hstep := step_reading_body hr hat (busy_inBody_decStarted s.cur.block w sg k) hsup rfl (by omega) hx
      (hz z (List.mem_singleton_self _)) turns
    rw [takeBody_collected_last (decStarted s.cur.block w sg) (w := w) rfl hx (by omega), Nat.add_assoc, hlen] at hstep
    rw [← hlen, ← Nat.add_assoc, hrun, hlen]
    exact run_succ hstep

end Command

/-- The number of bytes read is what `LEN` holds (R18): a form has at most nine. -/
theorem collected_len_toNat (b : Block) (bs : List Byte) {k : Nat} (h : k ≤ 9) : (collected b bs k).len.toNat = k :=
  sent_len_toNat b h

theorem answerTurns_take_drop (n m : Nat) (as : List Answer) :
    answerTurns n as = answerTurns n (as.take m) ++ answerTurns n (as.drop m) := by
  rw [← answerTurns_append, List.take_append_drop]

section Ends

variable {i : Instr} {w : Width} {sg : Bool} {s : State} {id : Nat} {st : InStream} {bs : List Byte}
variable {as : List Answer} {last : Answer} {rest : List Turn}
variable (hi : (i, w, sg) ∈ decodeCommands) (hr : s.readyInst = none) (hb : s.cur.busy = false)
variable (hc : s.conflicts s.cur = false) (hat : s.attachedIn = some (id, st))
variable (hok : AllOk as) (hlen : bs.length = as.length) (hsup : Supplies st bs)
variable (hs : s.schedule =
  .access s.curNum (.write 0 (encodeByte i).toNat) :: answerTurns s.curNum (as ++ [last]) ++ rest)
include hi hr hb hc hat hok hlen hsup hs

/-- Where `dec_W` finds a whole form, the run reads it, leaves the other answers for later, and ends with its value. -/
theorem run_decode_of_dec_ok {v n : Nat} (h : dec w bs = .ok v n) : ∃ k, n = 1 + extraBytes w k ∧
    v = formValue w k (bs.take n) ∧ v < 2 ^ widthBits w ∧
    core.run (1 + n) s = .next (inMoved s (decoded (decStarted s.cur.block w sg) w k bs) id (st.moved n)
      (answerTurns s.curNum ((as ++ [last]).drop n) ++ rest)) := by
  obtain ⟨b0, xs, k, rfl, htag, hxs, rfl, rfl⟩ := dec_ok h
  obtain ⟨a, as, rfl⟩ := List.exists_cons_of_length_eq_add_one hlen.symm
  obtain ⟨ha, hok⟩ := List.forall_mem_cons.1 hok
  rw [List.length_cons, List.length_cons] at hlen
  rw [List.cons_append, List.cons_append, answerTurns, List.map_cons, ← answerTurns,
    answerTurns_take_drop _ (extraBytes w k), List.cons_append, List.append_assoc,
    List.take_append_of_le_length (by omega)] at hs
  have hrun := run_decode_ok hi hr hb hc hat rfl hsup ha htag (fun x hx => hok x (List.mem_of_mem_take hx))
    (List.length_take_of_le (by omega)) hxs hs
  refine ⟨k, rfl, ?_, (formValue_lt htag (List.length_take_of_le hxs)).1, ?_⟩
  · rw [Nat.add_comm, List.take_succ_cons]
  · rw [← Nat.add_assoc, hrun, List.cons_append, Nat.add_comm 1, List.drop_succ_cons]

/-- Where `dec_W` runs out of bytes, the run reads all there are and the fault after them ends it: at the tag, or in
the body of a form. -/
theorem run_decode_of_dec_short (hlast : last.fails = true ∨ st.get (st.pos + as.length) = none) {m : Nat}
    (h : dec w bs = .short m) : ∃ b, b.status = (decStarted s.cur.block w sg).status ∧ b.res = s.cur.block.res ∧
    b.arg = s.cur.block.arg ∧ m ≤ 9 ∧ m = as.length ∧
    core.run (2 + m) s =
      .next (inMoved s ((collected b bs m).raise (.inFault last.info)) id (st.moved (m + last.advance)) rest) := by
  rcases dec_short h with ⟨rfl, rfl⟩ | ⟨b0, xs, k, rfl, htag, hxs, rfl⟩
  · obtain rfl := List.length_eq_zero_iff.1 hlen.symm
    refine ⟨decStarted s.cur.block w sg, rfl, rfl, rfl, Nat.zero_le _, rfl, ?_⟩
    exact (run_succ (step_decode_write hi hr hb hc hat hs)).trans
      (run_succ (step_reading_fault hr hat (busy_decStarted ..) (.inl rfl) hlast rest))
  · obtain ⟨a, as, rfl⟩ := List.exists_cons_of_length_eq_add_one hlen.symm
    obtain ⟨ha, hok⟩ := List.forall_mem_cons.1 hok
    have h8 : extraBytes w k ≤ 8 := extraBytes_le
    rw [List.length_cons, List.length_cons] at hlen
    rw [List.cons_append, List.cons_append, answerTurns, List.map_cons, ← answerTurns, answerTurns_append,
      List.cons_append, List.append_assoc] at hs
    rw [List.length_cons, Nat.add_comm as.length] at hlast
    refine ⟨inBody (decStarted s.cur.block w sg) w k, rfl, rfl, rfl, by omega, hlen, ?_⟩
    rw [show xs.length = as.length by omega, ← Nat.add_assoc,
      run_decode_body hi hr hb hc hat rfl hsup ha htag hok (by omega) (by omega) hs, Nat.add_comm as.length 1]
    exact run_succ (step_reading_fault hr hat (busy_inBody_decStarted ..) (.inr ⟨rfl, by omega⟩) hlast rest)

end Ends

/-- Settles O58: each outcome of `dec_W` by the run that it describes. -/
theorem decodeRunAgreesWithFunction : Obligations.DecodeRunAgreesWithFunction := by
  intro i w sg hi s id st as last rest bs hr hb hc hat hok hlen hget hlast hs
  have hsup : Supplies st bs := fun k hk => hget k (by omega)
  refine ⟨fun v n h => ?_, fun b0 h => ?_, fun m h => ?_⟩
  · obtain ⟨k, hn, hv, hlt, hrun⟩ := run_decode_of_dec_ok hi hr hb hc hat hok hlen hsup hs h
    have h8 : extraBytes w k ≤ 8 := extraBytes_le
    refine ⟨_, hrun, onlyBlockAndIn_inMoved .., ?_, ?_, ?_, ?_, hlt, ?_, rfl, rfl, rfl⟩
    · simp [decoded]
    · simp [decoded, collected]
    · simp [decoded, collected]
    · rw [hv, hn]
      rfl
    · rw [hn]
      exact collected_len_toNat (inBody (decStarted s.cur.block w sg) w k) bs (by omega)
  · obtain ⟨xs, rfl, htag⟩ := dec_unrecognized h
    obtain ⟨a, as, rfl⟩ := List.exists_cons_of_length_eq_add_one hlen.symm
    refine ⟨_, run_decode_unrecognized hi hr hb hc hat rfl hsup (hok a List.mem_cons_self) hs htag,
      onlyBlockAndIn_inMoved .., ?_, ?_, ?_, rfl, rfl, rfl, rfl, rfl⟩
    · simp
    · simp [HwError.errCode]
    · simp [HwError.recordByte]
  · obtain ⟨b, hstatus, hres, harg, hm, hmlen, hrun⟩ :=
      run_decode_of_dec_short hi hr hb hc hat hok hlen hsup hs hlast h
    refine ⟨_, hrun, ?_, ?_, ?_, ?_, ?_, hmlen, rfl, rfl, hres, harg⟩
    · rw [Nat.add_assoc]
      exact onlyBlockAndIn_inMoved ..
    · simp
    · simp [HwError.errCode]
    · simp [HwError.recordByte, collected, hstatus]
    · exact collected_len_toNat b bs hm

end Sys2Proof.Proofs
end

section
/-! The errors (R92, R93, R97): what `raise` writes, the reserved command bytes, and the step with nothing to do. -/

namespace Sys2Proof.Proofs

open Sys2Proof Sys2Proof.Machine Sys2Proof.Claims

/-- Settles O27: the frame is `raise` itself; `ERR`, `ERR_BYTE` and `FAULT_INFO` go by the error. -/
theorem raiseWritesExactly : Obligations.RaiseWritesExactly := by
  intro b e
  refine ⟨?state, ?err, ?errByte, ?faultInfo, rfl, rfl, ?reserved⟩
  case state =>
    rw [raise_status, recordByte_state, withErr_state, withState_state]
    rfl
  case err =>
    rw [raise_status, recordByte_err, withErr_err]
    cases e <;> rfl
  case errByte =>
    cases e with
    | unrecognizedTag x => exact withErrByte_errByte ..
    | inFault | outFault | illegalCommand => exact (withErr_errByte ..).trans (withState_errByte ..)
  case faultInfo => cases e <;> rfl
  case reserved => rw [raise_status, recordByte_reserved, withErr_reserved, withState_reserved]

/-- The five reserved rows have one meaning (R52). -/
theorem exec_reservedRow {c : Byte} {i : Instr} (h : i ∈ reservedRows c) (s : State) :
    exec i s = illegalCommand c s := by
  simp only [reservedRows, List.mem_cons, List.not_mem_nil, or_false] at h
  rcases h with rfl | rfl | rfl | rfl | rfl <;> rfl

/-- The bytes that decode to a reserved row are those with `c[7:3]` not 0 (R52). -/
theorem decodeCmd_mem_reservedRows_iff (c : Byte) : decodeCmd c ∈ reservedRows c ↔ c.extractLsb' 3 5 ≠ 0 := by
  rcases decodeCmd_cases c with ⟨hzero, hlegal⟩ | ⟨hne, hreserved⟩
  · have hnot : ∀ p ∈ [(Instr.encU32, (0 : Byte)), (.decU32, 1), (.encU64, 2), (.decU64, 3), (.encI32, 4),
        (.decI32, 5), (.encI64, 6), (.decI64, 7)], p.1 ∉ reservedRows p.2 := by decide
    exact iff_of_false (hnot _ hlegal) (not_not_intro hzero)
  · exact iff_of_true hreserved hne

theorem illegalCommand_idle {c : Byte} {s : State} (hb : s.cur.busy = false) :
    illegalCommand c s = .next (s.setBlock (s.cur.block.clearResult.raise .illegalCommand)) :=
  if_neg (by simp [hb])

/-- Settles O18: the next state of a reserved row, field by field. -/
theorem reservedCommandsEndInError : Obligations.ReservedCommandsEndInError := by
  refine ⟨decodeCmd_mem_reservedRows_iff, fun c i hi s hb => ?_⟩
  rw [exec_reservedRow hi, illegalCommand_idle hb]
  refine ⟨_, rfl, rfl, ?_, ?_, ?_, ?_, rfl, rfl, rfl, rfl, rfl, rfl, rfl, rfl, rfl, rfl⟩
  · simp
  · simp [HwError.errCode]
  · simp [HwError.recordByte]
  · simp

/-- Settles O41: with no held write ready and no turn, the next move is the last line of `nextMove`. -/
theorem nothingMovesWithoutTurns : Obligations.NothingMovesWithoutTurns := by
  intro s hr hs
  simp only [step, nextMove, hr, hs]

end Sys2Proof.Proofs
end

section
/-! Reset and the end of a run (R110, R111, R124): what a reset turn leaves of its instance, and that only the launch of
a legal command makes an instance BUSY. -/

namespace Sys2Proof.Proofs

open Sys2Proof Sys2Proof.Machine

/-! ### Reset (R110, R111) -/

theorem step_reset {s s' : State} {n : Nat} {rest : List Turn} (hr : s.readyInst = none)
    (hs : s.schedule = .reset n :: rest) (hf : focus n { s with schedule := rest } = some s') :
    step s = .next (s'.setBlock Block.reset) := by
  rw [step_of_schedule hr hs]
  exact onInst_of_focus hf

/-- Settles O40: the step writes the block alone, and the reset block holds the values of R110. -/
theorem resetTurnEffect : Obligations.ResetTurnEffect := by
  intro s s' n rest hr hs hf
  exact ⟨_, step_reset hr hs hf, rfl, rfl, rfl, rfl, rfl, rfl, rfl⟩

/-! ### The end of a run (R124) -/

/-- The moves that make a block BUSY: the two command starts (R22, R30). -/
theorem blockStep_starts {b b' : Block} {o : Option Cause} (h : BlockStep b o b') (hb : b.busy = false)
    (hb' : b'.busy = true) : ∃ v, o = some (.write 0 v) ∧ (BitVec.ofNat 8 v).extractLsb' 3 5 = 0 := by
  have hstays : b.busy ≠ true := Bool.eq_false_iff.1 hb
  cases h with
  | encStart v a _ hl | decStart v _ hl => exact ⟨v, rfl, hl⟩
  | emitOk => exact absurd (busy_emitted hb') hstays
  | bodyOk => exact absurd (busy_takeBody hb') hstays
  | same | argWrite | tagGoOn => exact absurd hb' hstays
  | illegal | emitFault | readFault | tagReject | tagFinish => exact absurd hb' (by simp)
  | reset => exact absurd hb' (by decide)

theorem ended_iff {i : Inst} : i.ended = true ↔ i.program = [] ∧ i.pending = 0 ∧ i.busy = false := by
  simp [Inst.ended, and_assoc]

theorem runEnded_iff {s : State} {used : List Nat} :
    s.runEnded used = true ↔ ∀ n ∈ used, ∃ i, s.instances[n]? = some i ∧ i.ended = true := by
  simp [State.runEnded, Option.any_eq_true]

/-- A step makes no instance disappear (R31). -/
theorem step_keeps_inst {s t : State} {n : Nat} {i : Inst} (hs : step s = .next t) (hi : s.instances[n]? = some i) :
    ∃ i', t.instances[n]? = some i' := by
  obtain ⟨hn, -⟩ := List.getElem?_eq_some_iff.1 hi
  rw [← (stepTouchesOnlyItsInstance s t hs).1] at hn
  exact ⟨_, List.getElem?_eq_getElem hn⟩

/-- An instance that has ended stays so unless the step brings it a legal command. -/
theorem ended_of_step {s t : State} {n : Nat} {i i' : Inst} (hs : step s = .next t) (hi : s.instances[n]? = some i)
    (hi' : t.instances[n]? = some i') (hend : i.ended = true)
    (hno : ∀ v, (BitVec.ofNat 8 v).extractLsb' 3 5 = 0 → ¬ s.delivers n (.write 0 v)) : i'.ended = true := by
  obtain ⟨hprog, hpend, hidle⟩ := ended_iff.1 hend
  obtain ⟨o, hblock, hqueue, hdeliv⟩ := inst_move hs hi hi'
  obtain ⟨hprog', hpend'⟩ := hqueue.ended hprog hpend
  refine ended_iff.2 ⟨hprog', hpend', Bool.eq_false_iff.2 fun hbusy => ?_⟩
  obtain ⟨v, ho, hlegal⟩ := blockStep_starts hblock hidle hbusy
  exact hno v hlegal (hdeliv _ ho)

/-- Settles O60: each instance that the run used keeps its end through the step. -/
theorem endedRunStaysEnded : Obligations.EndedRunStaysEnded := by
  intro s t used hend hs hno
  refine runEnded_iff.2 fun n hn => ?_
  obtain ⟨i, hi, hiend⟩ := runEnded_iff.1 hend n hn
  obtain ⟨i', hi'⟩ := step_keeps_inst hs hi
  exact ⟨i', hi', ended_of_step hs hi hi' hiend (hno n hn)⟩

end Sys2Proof.Proofs
end

section
/-! The first-byte rows outside the tag step (R85; log 15, the model's choice): each row is a byte accepted or rejected
at the width of its format, and both are refused where no tag step of that width is enabled. -/

namespace Sys2Proof.Proofs

open Sys2Proof Sys2Proof.Machine

/-- A `TAG32` or `TAG64` row takes its own byte, at the row's tier (R55, R56) or as an illegal one (R59). -/
theorem exec_tagRow : ∀ {i : Instr} {w : Width}, i.format = w.tagFormat →
    (∃ k, exec i = acceptTag w k (encodeByte i)) ∨ exec i = rejectTag w (encodeByte i)
  | .tier0W32 _, .w32, _ | .tier0W64 _, .w64, _ => .inl ⟨0, rfl⟩
  | .tier1W32 _, .w32, _ | .tier1W64 _, .w64, _ => .inl ⟨1, rfl⟩
  | .tier2W32 _, .w32, _ | .tier2W64 _, .w64, _ => .inl ⟨2, rfl⟩
  | .tier3W32 _, .w32, _ | .tier3W64 _, .w64, _ => .inl ⟨3, rfl⟩
  | .tier4Esc32, .w32, _ | .tier4W64 _, .w64, _ => .inl ⟨4, rfl⟩
  | .tier5W64 _, .w64, _ => .inl ⟨5, rfl⟩
  | .tier6W64 _, .w64, _ => .inl ⟨6, rfl⟩
  | .tier7W64, .w64, _ => .inl ⟨7, rfl⟩
  | .tier8Esc64, .w64, _ => .inl ⟨8, rfl⟩
  | .illegalTagF1 _, .w32, _ | .illegalTagF2 _, .w32, _ | .illegalTagF4 _, .w32, _ | .illegalTagF8 _, .w32, _ =>
    .inr rfl

theorem acceptTag_disabled {w : Width} {s : State} (h : tagEnabled w s = false) (k : Nat) (b0 : Byte) :
    acceptTag w k b0 s = .refused .tagStepNotEnabled := if_neg (Bool.eq_false_iff.1 h)

theorem rejectTag_disabled {w : Width} {s : State} (h : tagEnabled w s = false) (b0 : Byte) :
    rejectTag w b0 s = .refused .tagStepNotEnabled := if_neg (Bool.eq_false_iff.1 h)

/-- Settles O26: whether the row's byte is accepted or rejected, the guard of the tag step comes first. -/
theorem tagRowsOutsideTagStepRefused : Obligations.TagRowsOutsideTagStepRefused := by
  intro i w s hformat hdisabled
  obtain ⟨k, hexec⟩ | hexec := exec_tagRow hformat
  · exact (congrFun hexec s).trans (acceptTag_disabled hdisabled k _)
  · exact (congrFun hexec s).trans (rejectTag_disabled hdisabled _)

end Sys2Proof.Proofs
end
